-- ==== Sys2Proof/Word.lean ====
section
/-! DEFINITION. The widths of the block's data (spec/00_scope.md R10, R11): bytes, 32-bit command words, 6-bit reader
register addresses. All values are unsigned; the bitwise operations are those of `BitVec`. -/

namespace Sys2Proof

/-- Every datum on the bus and in the reader register space is 8 bits (R10). -/
abbrev Byte := BitVec 8

/-- A command word on the operation port is 32 bits (R10, R90). -/
abbrev Word := BitVec 32

/-- A reader register address is 6 bits (R10, R69). -/
abbrev Addr := BitVec 6

end Sys2Proof
end

