-- ==== Sys2Proof/Machine/Event.lean ====
section
/-! DEFINITION. The names the spec gives the block's states and events: status codes (R221), lock and controller states
(R27, R28), diagnostic events (R196), trace events (R32). -/

namespace Sys2Proof.Machine

/-- The status codes of R221; the codes 6 and 7 are never written, so they have no name. -/
inductive Status where
  | ok
  | timeout
  | chipFault
  | badOp
  | badLen
  | disabled
  deriving DecidableEq, Repr

/-- The lock state (R27). -/
inductive LockState where
  | locked
  | unlocked
  deriving DecidableEq, Repr

/-- The access controller's state (R28). -/
inductive CtrlState where
  | idle
  | readUid
  | granted
  | denied
  deriving DecidableEq, Repr

/-- A diagnostic event (R196). -/
inductive Diag where
  | cardDetected
  | uid (bytes : List Byte)
  | granted
  | denied
  deriving DecidableEq, Repr

/-- An event of the trace (R32). -/
inductive Event where
  | opStart (word : Word)
  | opDone (status : Status)
  | sel
  | xfer (sent got : Byte)
  | desel
  | delay (ms : Nat)
  | diag (d : Diag)
  | outputs (lock unlock : Bool)
  | overrun
  deriving DecidableEq, Repr

end Sys2Proof.Machine
end

