-- ==== Sys2Proof/Config.lean ====
section
/-! DEFINITION. The implementation parameters (spec/00_scope.md R8, R9) and the free values. A machine's parameters are
the field `cfg` of its state, which no operation writes (R33), so that every statement holds for every configuration;
`Params.default` is the column "default" of R8. The opaque constants have no body: nothing in Lean can know a value of
theirs. -/

namespace Sys2Proof

/-- The parameters of R8. Addresses are 6 bits wide, so an address of 0x40 or above cannot be written down (R9, R69). -/
structure Params where
  /-- `UID_LEN` -/
  uidLen : Nat
  /-- `ANTICOLL_READ_LEN` -/
  anticollReadLen : Nat
  /-- `POLL_MAX_COM` -/
  pollMaxCom : Nat
  /-- `POLL_INTERVAL_MS` -/
  pollIntervalMs : Nat
  /-- `POLL_MAX_DIV` -/
  pollMaxDiv : Nat
  /-- `CRC_POLL_INTERVAL_MS` -/
  crcPollIntervalMs : Nat
  /-- `INTER_POLL_MS` -/
  interPollMs : Nat
  /-- `DWELL_MS` -/
  dwellMs : Nat
  /-- `RESET_SETTLE_MS`, which the spec leaves OPEN (D12). -/
  resetSettleMs : Nat
  /-- `WHITELIST` (R72) -/
  whitelist : List (List Byte)
  /-- `REQ_MODE` -/
  reqMode : Byte
  /-- `PICC_ANTICOLL` -/
  piccAnticoll : Byte
  /-- `NVB_ANTICOLL` -/
  nvbAnticoll : Byte
  /-- `REG_COMMAND`; this and the ten below it are the addresses of R63. -/
  regCommand : Addr
  regComIrq : Addr
  regDivIrq : Addr
  regError : Addr
  regFifoData : Addr
  regFifoLevel : Addr
  regBitFraming : Addr
  regTxControl : Addr
  regCrcResultH : Addr
  regCrcResultL : Addr
  regVersion : Addr
  /-- `CMD_IDLE`; this and the three below it are the 4-bit command codes of R103. -/
  cmdIdle : BitVec 4
  cmdCalcCrc : BitVec 4
  cmdTransceive : BitVec 4
  cmdSoftReset : BitVec 4
  /-- `COMIRQ_WAIT_MASK`; the masks and bytes from here on are those of R66. -/
  comIrqWaitMask : Byte
  divIrqCrcMask : Byte
  errMask : Byte
  antennaMask : Byte
  fifoFlush : Byte
  bitFramingShort : Byte
  bitFramingFull : Byte
  startSendBit : Byte
  irqClearValue : Byte
  /-- `DUMMY_BYTE` (R102) -/
  dummyByte : Byte
  /-- `CLEAR_IRQ_BEFORE_ISSUE` -/
  clearIrqBeforeIssue : Bool
  /-- `START_SEND_AFTER_ISSUE` -/
  startSendAfterIssue : Bool
  /-- `CRC_MAX_LEN` -/
  crcMaxLen : Nat
  /-- `HOST_ACTUATOR_OPS` -/
  hostActuatorOps : Bool
  /-- `RESET_OUTPUTS`, lock bit -/
  resetLockOut : Bool
  /-- `RESET_OUTPUTS`, unlock bit -/
  resetUnlockOut : Bool
  /-- `SEF_REGS` (R67): read only by the hypothesis `Readback`. -/
  sefRegs : List Addr
  deriving DecidableEq, Repr

/-- The default column of R8. `resetSettleMs` is PRESUMED, unsafe: R8 gives no default and suggests 50 (entry 2). -/
def Params.default : Params where
  uidLen := 4
  anticollReadLen := 5
  pollMaxCom := 200
  pollIntervalMs := 1
  pollMaxDiv := 255
  crcPollIntervalMs := 0
  interPollMs := 1000
  dwellMs := 5000
  resetSettleMs := 50
  whitelist := [[0x19#8, 0x03#8, 0x56#8, 0x73#8]]
  reqMode := 0x26#8
  piccAnticoll := 0x93#8
  nvbAnticoll := 0x20#8
  regCommand := 0x01#6
  regComIrq := 0x04#6
  regDivIrq := 0x05#6
  regError := 0x06#6
  regFifoData := 0x09#6
  regFifoLevel := 0x0A#6
  regBitFraming := 0x0D#6
  regTxControl := 0x14#6
  regCrcResultH := 0x21#6
  regCrcResultL := 0x22#6
  regVersion := 0x37#6
  cmdIdle := 0x0#4
  cmdCalcCrc := 0x3#4
  cmdTransceive := 0xC#4
  cmdSoftReset := 0xF#4
  comIrqWaitMask := 0x30#8
  divIrqCrcMask := 0x04#8
  errMask := 0x1B#8
  antennaMask := 0x03#8
  fifoFlush := 0x80#8
  bitFramingShort := 0x07#8
  bitFramingFull := 0x00#8
  startSendBit := 0x80#8
  irqClearValue := 0x7F#8
  dummyByte := 0x00#8
  clearIrqBeforeIssue := false
  startSendAfterIssue := false
  crcMaxLen := 64
  hostActuatorOps := true
  resetLockOut := true
  resetUnlockOut := false
  sefRegs := [0x14#6]

/-- `UID_LEN` in {4,5} (R9). -/
def Params.uidLenOk (c : Params) : Bool := c.uidLen == 4 || c.uidLen == 5

/-- `UID_LEN <= ANTICOLL_READ_LEN <= 5` (R9). -/
def Params.readLenOk (c : Params) : Bool := decide (c.uidLen ≤ c.anticollReadLen) && decide (c.anticollReadLen ≤ 5)

/-- Every `WHITELIST` entry has exactly `UID_LEN` bytes (R9). -/
def Params.whitelistOk (c : Params) : Bool := c.whitelist.all fun w => w.length == c.uidLen

/-- The eleven register addresses of R63. -/
def Params.regs (c : Params) : List Addr :=
  [c.regCommand, c.regComIrq, c.regDivIrq, c.regError, c.regFifoData, c.regFifoLevel, c.regBitFraming, c.regTxControl,
    c.regCrcResultH, c.regCrcResultL, c.regVersion]

/-- The eleven addresses are pairwise distinct (R9). -/
def Params.regsDistinct (c : Params) : Bool := decide c.regs.Nodup

/-- The poll bounds are 1 to 65535 (R8, R9, R31). -/
def Params.pollBoundsOk (c : Params) : Bool :=
  decide (1 ≤ c.pollMaxCom) && decide (c.pollMaxCom ≤ 65535) && decide (1 ≤ c.pollMaxDiv) && decide (c.pollMaxDiv ≤ 65535)

/-- `CRC_MAX_LEN <= 127` (R9). -/
def Params.crcLenOk (c : Params) : Bool := decide (c.crcMaxLen ≤ 127)

/-- The constraints of R9; a configuration that breaks one is refused as a whole (R228). -/
def Params.ok (c : Params) : Bool :=
  c.uidLenOk && c.readLenOk && c.whitelistOk && c.regsDistinct && c.pollBoundsOk && c.crcLenOk

/-- FREE VALUE (entry 3): the byte the reader chip answers when no answer stands in `State.answers`. It may depend on how
many bytes were drawn before and on the whole trace so far (R60). -/
opaque Config.oracle : Nat → List Machine.Event → Byte

/-- OPEN (R197, D22): the text a sink prints for `CardDetected`. -/
opaque Config.diagCardText : String

/-- OPEN (R197, D22): the text a sink prints for `Uid`. -/
opaque Config.diagUidFormat : List Byte → String

/-- OPEN (R128, D29): the bus clock divider; no rule of the block reads it. -/
opaque Config.busClockDivider : Nat

/-- OPEN (R128, D29): clock polarity and phase of the bus; no rule of the block reads it. -/
opaque Config.busMode : Bool × Bool

/-- OPEN (R128, D29): the electrical level of an asserted chip-select. -/
opaque Config.csActiveLevel : Bool

/-- OPEN (R215, D29): the electrical level of an asserted lock output. -/
opaque Config.lockPinActiveLevel : Bool

/-- OPEN (R215, D29): the electrical level of an asserted unlock output. -/
opaque Config.unlockPinActiveLevel : Bool

end Sys2Proof
end

