-- ==== Sys2Proof/Syntax.lean ====
section
/-! DEFINITION. The instructions: one constructor for each row of spec/opcode_table.json, with its operands. The twelve
operations (R92), the reserved command words (R93), and the byte encodings the block itself emits: bus frames (R100),
reader-chip command codes (R103), card command bytes (R105). -/

namespace Sys2Proof

inductive Instr where
  /-- READ_REG (R124): read reader register `a`. -/
  | readReg (a : Addr)
  /-- WRITE_REG (R126): write `v` to reader register `a`. -/
  | writeReg (a : Addr) (v : Byte)
  /-- RESET_READER (R144). -/
  | resetReader
  /-- ANTENNA_ON (R150). -/
  | antennaOn
  /-- REQUEST (R155) with mode byte `m`. -/
  | request (m : Byte)
  /-- ANTICOLL (R162). -/
  | anticoll
  /-- CALC_CRC (R168) over `n` bytes of `DATA_IN`; a count, at most 127 in a command word (R91). -/
  | calcCrc (n : Nat)
  /-- COMPARE_UID (R180). -/
  | compareUid
  /-- UNLOCK (R211). -/
  | unlock
  /-- LOCK (R212). -/
  | lock
  /-- POLL_CYCLE (R185). -/
  | pollCycle
  /-- RUN (R190). -/
  | run
  /-- A command word with RSV = 0 and OP = 0x0 (R93, R224). -/
  | reservedOp0
  /-- A command word with RSV = 0 and OP = 0xD (R93, R224). -/
  | reservedOpD
  /-- A command word with RSV = 0 and OP = 0xE (R93, R224). -/
  | reservedOpE
  /-- A command word with RSV = 0 and OP = 0xF (R93, R224). -/
  | reservedOpF
  /-- A command word whose lowest set RSV bit is bit 25 (R93, R224). -/
  | reservedRsv25
  /-- A command word whose lowest set RSV bit is bit 26 (R93, R224). -/
  | reservedRsv26
  /-- A command word whose lowest set RSV bit is bit 27 (R93, R224). -/
  | reservedRsv27
  /-- A command word whose lowest set RSV bit is bit 28 (R93, R224). -/
  | reservedRsv28
  /-- A command word whose lowest set RSV bit is bit 29 (R93, R224). -/
  | reservedRsv29
  /-- A command word whose lowest set RSV bit is bit 30 (R93, R224). -/
  | reservedRsv30
  /-- A command word whose lowest set RSV bit is bit 31 (R93, R224). -/
  | reservedRsv31
  /-- The bus frame of a read of register `a` (R100): the read transaction it opens. -/
  | frameRead (a : Addr)
  /-- The bus frame of a write of register `a` (R100): the write transaction it opens. -/
  | frameWrite (a : Addr)
  /-- The reader-chip command code `CMD_IDLE` (R103): its write to the command register. -/
  | chipIdle
  /-- The reader-chip command code `CMD_CALC_CRC` (R103). -/
  | chipCalcCrc
  /-- The reader-chip command code `CMD_TRANSCEIVE` (R103). -/
  | chipTransceive
  /-- The reader-chip command code `CMD_SOFT_RESET` (R103). -/
  | chipSoftReset
  /-- The card command byte `REQ_MODE` (R105): its staging in the FIFO. -/
  | cardReqa
  /-- The card command byte `PICC_ANTICOLL` (R105). -/
  | cardAnticollCl1
  /-- The card command byte `NVB_ANTICOLL` (R105). -/
  | cardNvb
  deriving DecidableEq, Repr

/-- The operations of R92: what a command word can start besides a rejection. -/
def Instr.isOperation : Instr → Bool
  | .readReg _ | .writeReg _ _ | .resetReader | .antennaOn | .request _ | .anticoll | .calcCrc _ | .compareUid
  | .unlock | .lock | .pollCycle | .run => true
  | .reservedOp0 | .reservedOpD | .reservedOpE | .reservedOpF
  | .reservedRsv25 | .reservedRsv26 | .reservedRsv27 | .reservedRsv28 | .reservedRsv29 | .reservedRsv30 | .reservedRsv31
  | .frameRead _ | .frameWrite _ | .chipIdle | .chipCalcCrc | .chipTransceive | .chipSoftReset
  | .cardReqa | .cardAnticollCl1 | .cardNvb => false

/-- The rejected command words of R93. -/
def Instr.isReserved : Instr → Bool
  | .reservedOp0 | .reservedOpD | .reservedOpE | .reservedOpF
  | .reservedRsv25 | .reservedRsv26 | .reservedRsv27 | .reservedRsv28 | .reservedRsv29 | .reservedRsv30 | .reservedRsv31 => true
  | .readReg _ | .writeReg _ _ | .resetReader | .antennaOn | .request _ | .anticoll | .calcCrc _ | .compareUid
  | .unlock | .lock | .pollCycle | .run
  | .frameRead _ | .frameWrite _ | .chipIdle | .chipCalcCrc | .chipTransceive | .chipSoftReset
  | .cardReqa | .cardAnticollCl1 | .cardNvb => false

/-- What a 32-bit command word can encode (R93): an operation or a rejected word. -/
def Instr.isCommand (i : Instr) : Bool := i.isOperation || i.isReserved

/-- The assembler line of an operation (R97), operands in decimal; only the twelve operations have one. -/
def Instr.asm : Instr → Option String
  | .readReg a => some ("READ_REG " ++ toString a.toNat)
  | .writeReg a v => some ("WRITE_REG " ++ toString a.toNat ++ ", " ++ toString v.toNat)
  | .resetReader => some "RESET_READER"
  | .antennaOn => some "ANTENNA_ON"
  | .request m => some ("REQUEST " ++ toString m.toNat)
  | .anticoll => some "ANTICOLL"
  | .calcCrc n => some ("CALC_CRC " ++ toString n)
  | .compareUid => some "COMPARE_UID"
  | .unlock => some "UNLOCK"
  | .lock => some "LOCK"
  | .pollCycle => some "POLL_CYCLE"
  | .run => some "RUN"
  | .reservedOp0 | .reservedOpD | .reservedOpE | .reservedOpF
  | .reservedRsv25 | .reservedRsv26 | .reservedRsv27 | .reservedRsv28 | .reservedRsv29 | .reservedRsv30 | .reservedRsv31
  | .frameRead _ | .frameWrite _ | .chipIdle | .chipCalcCrc | .chipTransceive | .chipSoftReset
  | .cardReqa | .cardAnticollCl1 | .cardNvb => none

end Sys2Proof
end

