-- ==== Sys2Proof/WellFormed.lean ====
section
/-! DEFINITION. Which instructions an encoding can hold. Addresses and bytes are bit vectors of their field's width, so
only the count of CALC_CRC needs a check: `LEN` is 7 bits, 0 to 127 (spec/30_encoding.md R90, R91). -/

namespace Sys2Proof

/-- `LEN` is a 7-bit field (R90). -/
def Instr.lenFits : Instr → Bool
  | .calcCrc n => decide (n < 128)
  | .readReg _ | .writeReg _ _ | .resetReader | .antennaOn | .request _ | .anticoll | .compareUid
  | .unlock | .lock | .pollCycle | .run
  | .reservedOp0 | .reservedOpD | .reservedOpE | .reservedOpF
  | .reservedRsv25 | .reservedRsv26 | .reservedRsv27 | .reservedRsv28 | .reservedRsv29 | .reservedRsv30 | .reservedRsv31
  | .frameRead _ | .frameWrite _ | .chipIdle | .chipCalcCrc | .chipTransceive | .chipSoftReset
  | .cardReqa | .cardAnticollCl1 | .cardNvb => true

/-- An instruction some encoding stands for. -/
def Instr.wellFormed (i : Instr) : Bool := i.lenFits

end Sys2Proof
end

