-- ==== Sys2Proof/Decode.lean ====
section
/-! DEFINITION. The four encodings of spec/30_encoding.md: the 32-bit command word (R90 to R96), the bus address frame
(R100 to R102), the reader-chip command codes (R103), the card command bytes (R105). Decoders are total; what a byte
decoder refuses has a name. The encoder follows, written from the same tables. -/

namespace Sys2Proof

/-! ## Fields of a command word (R90, R91) -/

def opField (w : Word) : BitVec 4 := w.extractLsb' 0 4

def addrField (w : Word) : Addr := w.extractLsb' 4 6

def wdataField (w : Word) : Byte := w.extractLsb' 10 8

def lenField (w : Word) : Nat := (w.extractLsb' 18 7).toNat

def rsvField (w : Word) : BitVec 7 := w.extractLsb' 25 7

/-- The row of a word with a reserved bit set (R93): named after its lowest set RSV bit (DESIGN CHOICE, safe: all seven
rows have one meaning, entry 13). -/
def decodeRsv (r : BitVec 7) : Option Instr :=
  if r.getLsbD 0 then some .reservedRsv25
  else if r.getLsbD 1 then some .reservedRsv26
  else if r.getLsbD 2 then some .reservedRsv27
  else if r.getLsbD 3 then some .reservedRsv28
  else if r.getLsbD 4 then some .reservedRsv29
  else if r.getLsbD 5 then some .reservedRsv30
  else if r.getLsbD 6 then some .reservedRsv31
  else none

/-- The operation code table (R92), for a word whose RSV is 0. -/
def decodeOp (w : Word) : Instr :=
  match (opField w).toNat with
  | 0 => .reservedOp0
  | 1 => .readReg (addrField w)
  | 2 => .writeReg (addrField w) (wdataField w)
  | 3 => .resetReader
  | 4 => .antennaOn
  | 5 => .request (wdataField w)
  | 6 => .anticoll
  | 7 => .calcCrc (lenField w)
  | 8 => .compareUid
  | 9 => .unlock
  | 10 => .lock
  | 11 => .pollCycle
  | 12 => .run
  | 13 => .reservedOpD
  | 14 => .reservedOpE
  | _ => .reservedOpF

/-- Every 32-bit word is an operation or a rejected word (R93); the RSV check comes first (R94). -/
def decodeCommand (w : Word) : Instr :=
  match decodeRsv (rsvField w) with
  | some i => i
  | none => decodeOp w

/-! ## Frames, chip commands, card bytes -/

/-- The frame byte (R100): the read flag in bit 7, the address in bits 6:1, bit 0 always 0. -/
def frame (a : Addr) (rd : Bool) : Byte :=
  (if rd then 0x80#8 else 0x00#8) ||| ((a.setWidth 8 <<< 1) &&& 0x7E#8)

/-- A command code is written as the whole byte `zext_8(code)` (R103). -/
def chipByte (code : BitVec 4) : Byte := code.setWidth 8

/-- Why a byte is no frame, no chip command, no card byte. -/
inductive Reject where
  /-- Frame bit 0 is 1: the block never sends one, and what the chip does with it is outside the block (R101). -/
  | oddFrame
  /-- None of the four codes of R103; the block never writes another value on its own (R104). -/
  | unknownChipCommand
  /-- None of the three bytes of R105. -/
  | unknownCardByte
  /-- The word has bits above the byte's eight. -/
  | notAByte
  deriving DecidableEq, Repr

/-- The address and direction of a frame (R100, R101). -/
def decodeFrame (b : Byte) : Except Reject Instr :=
  if b.getLsbD 0 then .error .oddFrame
  else if b.getLsbD 7 then .ok (.frameRead (b.extractLsb' 1 6))
  else .ok (.frameWrite (b.extractLsb' 1 6))

/-- The chip command codes of R103, under a configuration's values. -/
def decodeChipCommand (c : Params) (b : Byte) : Except Reject Instr :=
  if b = chipByte c.cmdIdle then .ok .chipIdle
  else if b = chipByte c.cmdCalcCrc then .ok .chipCalcCrc
  else if b = chipByte c.cmdTransceive then .ok .chipTransceive
  else if b = chipByte c.cmdSoftReset then .ok .chipSoftReset
  else .error .unknownChipCommand

/-- The card bytes of R105, under a configuration's values. -/
def decodeCardByte (c : Params) (b : Byte) : Except Reject Instr :=
  if b = c.reqMode then .ok .cardReqa
  else if b = c.piccAnticoll then .ok .cardAnticollCl1
  else if b = c.nvbAnticoll then .ok .cardNvb
  else .error .unknownCardByte

/-- Where an encoding stands: the "format" column of spec/opcode_table.json. A byte means different things in the four
places, as R106 says of the chip's and the card's codes. -/
inductive Format where
  | command
  | busFrame
  | commandRegister
  | cardByte
  deriving DecidableEq, Repr

/-- The decoder of a byte format, for a word that must be a byte. -/
def decodeByte (f : Byte → Except Reject Instr) (w : Word) : Except Reject Instr :=
  if w.toNat < 256 then f (w.setWidth 8) else .error .notAByte

/-- Decoding, total on every word in every place. -/
def decode (c : Params) (f : Format) (w : Word) : Except Reject Instr :=
  match f with
  | .command => .ok (decodeCommand w)
  | .busFrame => decodeByte decodeFrame w
  | .commandRegister => decodeByte (decodeChipCommand c) w
  | .cardByte => decodeByte (decodeCardByte c) w

/-! ## Encoder -/

/-- `0000000 LLLLLLL DDDDDDDD AAAAAA OOOO` (R90). -/
def commandWord (n : BitVec 7) (d : Byte) (a : Addr) (op : BitVec 4) : Word :=
  0#7 ++ n ++ d ++ a ++ op

/-- The canonical word of an operation without operands (R96). -/
def plainWord (op : BitVec 4) : Word := commandWord 0#7 0#8 0#6 op

/-- Where an instruction is encoded. -/
def encodeFormat : Instr → Format
  | .readReg _ | .writeReg _ _ | .resetReader | .antennaOn | .request _ | .anticoll | .calcCrc _ | .compareUid
  | .unlock | .lock | .pollCycle | .run
  | .reservedOp0 | .reservedOpD | .reservedOpE | .reservedOpF
  | .reservedRsv25 | .reservedRsv26 | .reservedRsv27 | .reservedRsv28 | .reservedRsv29 | .reservedRsv30
  | .reservedRsv31 => .command
  | .frameRead _ | .frameWrite _ => .busFrame
  | .chipIdle | .chipCalcCrc | .chipTransceive | .chipSoftReset => .commandRegister
  | .cardReqa | .cardAnticollCl1 | .cardNvb => .cardByte

/-- The canonical encoding (R96; R100, R103, R105 for the byte formats). -/
def encode (c : Params) : Instr → Word
  | .readReg a => commandWord 0#7 0#8 a 0x1#4
  | .writeReg a v => commandWord 0#7 v a 0x2#4
  | .resetReader => plainWord 0x3#4
  | .antennaOn => plainWord 0x4#4
  | .request m => commandWord 0#7 m 0#6 0x5#4
  | .anticoll => plainWord 0x6#4
  | .calcCrc n => commandWord (BitVec.ofNat 7 n) 0#8 0#6 0x7#4
  | .compareUid => plainWord 0x8#4
  | .unlock => plainWord 0x9#4
  | .lock => plainWord 0xA#4
  | .pollCycle => plainWord 0xB#4
  | .run => plainWord 0xC#4
  | .reservedOp0 => plainWord 0x0#4
  | .reservedOpD => plainWord 0xD#4
  | .reservedOpE => plainWord 0xE#4
  | .reservedOpF => plainWord 0xF#4
  | .reservedRsv25 => 0x02000000#32
  | .reservedRsv26 => 0x04000000#32
  | .reservedRsv27 => 0x08000000#32
  | .reservedRsv28 => 0x10000000#32
  | .reservedRsv29 => 0x20000000#32
  | .reservedRsv30 => 0x40000000#32
  | .reservedRsv31 => 0x80000000#32
  | .frameRead a => (frame a true).setWidth 32
  | .frameWrite a => (frame a false).setWidth 32
  | .chipIdle => (chipByte c.cmdIdle).setWidth 32
  | .chipCalcCrc => (chipByte c.cmdCalcCrc).setWidth 32
  | .chipTransceive => (chipByte c.cmdTransceive).setWidth 32
  | .chipSoftReset => (chipByte c.cmdSoftReset).setWidth 32
  | .cardReqa => c.reqMode.setWidth 32
  | .cardAnticollCl1 => c.piccAnticoll.setWidth 32
  | .cardNvb => c.nvbAnticoll.setWidth 32

/-! ## The pseudo-instructions (R98) that expand to operations alone -/

/-- `REQA` = `REQUEST 0x26` (R98). -/
def pseudoReqa : List Instr := [.request 0x26#8]

/-- `BOOT` = `RESET_READER` then `ANTENNA_ON` (R98). -/
def pseudoBoot : List Instr := [.resetReader, .antennaOn]

/-! ## A word of the opcode table -/

/-- One byte of the table without its place. A byte can be a row of several formats, so an order is needed (DESIGN CHOICE,
entry 12): the rows that fix all eight bits, then the reserved operation codes written as one byte, then frames, then a
command word whose upper bits are 0. Chip command codes and card bytes are parameters (R8), and the spec does not say under which
configuration a bare byte is told as one of them: the model takes the default values, whatever a state's `cfg` holds (DESIGN
CHOICE, safe, entry 33). -/
def decodeTableByte (b : Byte) : Instr :=
  match decodeChipCommand Params.default b with
  | .ok i => i
  | .error _ =>
    match decodeCardByte Params.default b with
    | .ok i => i
    | .error _ =>
      if b = 0x0D#8 ∨ b = 0x0E#8 then decodeCommand (b.setWidth 32)
      else
        match decodeFrame b with
        | .ok i => i
        | .error _ => decodeCommand (b.setWidth 32)

/-- The instruction the decoders read from a row's `nbits` bits `w` (bit 0 least significant; higher bits 0). -/
def decodeTableWord (nbits w : Nat) : Option Instr :=
  if nbits = 8 then some (decodeTableByte (BitVec.ofNat 8 w))
  else if nbits ≤ 32 then some (decodeCommand (BitVec.ofNat 32 (w % 2 ^ nbits)))
  else none

end Sys2Proof
end

