-- ==== Sys2Proof/Machine/State.lean ====
section
/-! DEFINITION. The block's state as plain data (spec/10_state.md R20), the reasons a step can stop, the stimuli of the
agents outside, and the state after reset (R37). -/

namespace Sys2Proof.Machine

/-- Why a run ends in the faulted state (R229). -/
inductive Fault where
  /-- Raised by a host read of a register that holds no value or is being rewritten (R38, R40), and by CALC_CRC and
  COMPARE_UID when an operand byte holds no value (R169, R180); as any read of a byte that holds no value (R38) also by the
UID's steps of POLL_CYCLE and RUN, whose bytes the cycle has written, so that no run reaches it. Safe: the chip would return
some byte, and R229 refuses to pick one (D31). -/
  | unwrittenRead
  /-- Raised by `Select`, `Xfer`, `Deselect` without their precondition (R120, R121). Safe: no rule reaches it. -/
  | busProtocol
  /-- Raised by `SetOutputs(1,1)` (R210). Safe: no rule reaches it. -/
  | actuatorConflict
  deriving DecidableEq, Repr

/-- Why the model has no meaning for what is asked. -/
inductive Refusal where
  /-- Raised by `exec` for an instruction without a meaning. Safe. -/
  | notModelled (mnemonic : String)
  /-- Raised by `step` when the configuration breaks R9: it is refused as a whole (R228). Safe. -/
  | badConfiguration
  deriving DecidableEq, Repr

/-- Bytes by index, strictly rising; an index that is not listed holds no value (R38). -/
abbrev Memory := List Host.Cell

/-- What the sequencer waits for (R120, R236). -/
inductive Hold where
  /-- nothing: the next atomic step is the sequencer's own -/
  | free
  /-- *BusWait*: `out` is going out; the byte coming in is bound to `v` when `keep` holds (R120, R124) -/
  | bus (out : Byte) (keep : Bool)
  /-- a delay that the timer has not completed (R236) -/
  | timer
  deriving DecidableEq, Repr

/-- How the last poll or transceive ended: the pseudocode's Hit / Timeout and Ok / Fail (R140, R153). -/
inductive Ret where
  | ok
  | timeout
  | chipFault
  deriving DecidableEq, Repr

/-- The registers a host can read (R22, R23); `CMD` is write-only (R36). -/
inductive PortReg where
  | stat
  | rdata
  | respLen
  | polls
  | resp (i : Fin 5)
  | dataIn (i : Fin 128)
  deriving DecidableEq, Repr

/-- One move of an agent outside the block, or leave for the sequencer to move (R227). -/
inductive Stimulus where
  /-- the sequencer takes one atomic step; it cannot while it holds -/
  | go
  /-- the bus completes the exchange the sequencer waits for (R120) -/
  | busDone
  /-- the timer completes the delay the sequencer waits for (R236) -/
  | timerDone
  /-- the host writes `CMD` (R22, R223) -/
  | hostWriteCmd (w : Word)
  /-- the host writes `DATA_IN[i]` (R22) -/
  | hostWriteData (i : Fin 128) (b : Byte)
  /-- the host writes output register P1 to P9 (R23): `i` is the port number less one -/
  | hostWriteOutput (i : Fin 9) (w : Word)
  /-- the host reads a port register (R22, R23, R40) -/
  | hostRead (r : PortReg)
  /-- the host polls `STAT.BUSY` and does nothing else until it reads 0 (R232) -/
  | hostAwaitIdle
  /-- block reset (R250) -/
  | blockReset
  deriving DecidableEq, Repr

/-- The machine. Fields of R20 first, in its order; then the waits and pseudocode variables that live between atomic
steps (entries 6, 22); then the parameters and the outside (entries 1, 3, 4, 17). -/
structure State where
  /-- `CMD`: the last accepted command word -/
  cmd : Word
  /-- `DATA_IN[0..127]` -/
  dataIn : Memory
  busy : Bool
  status : Status
  overrun : Bool
  rdata : Option Byte
  resp : Vector (Option Byte) 5
  respLen : BitVec 3
  polls : BitVec 16
  /-- the operation being executed, with its operands -/
  op : Option Instr
  /-- the step pointer (R24) -/
  seq : Nat
  running : Bool
  /-- chip-select, true = asserted -/
  cs : Bool
  /-- transfers done in the open transaction -/
  xfers : Nat
  lockState : LockState
  ctrlState : CtrlState
  lockOut : Bool
  unlockOut : Bool
  tagType : Vector (Option Byte) 2
  uidBuf : Vector (Option Byte) 5
  pollCount : BitVec 16
  trace : List Event
  /-- the model's: what the sequencer waits for -/
  hold : Hold
  /-- the model's: `v`, `e`, the byte the last read transaction returned -/
  v : Byte
  /-- the model's: `out`, `lo`, `hi`, the bytes read so far -/
  out : List Byte
  /-- the model's: how the last poll or transceive ended -/
  ret : Ret
  /-- the model's: `m`, `outcome` -/
  result : Byte
  /-- the parameters (R8, R33) -/
  cfg : Params
  /-- the outside: stimuli still to come, the next one first -/
  env : List Stimulus
  /-- the outside: bytes the reader chip is going to answer, the next one first; then `Config.oracle` -/
  answers : List Byte
  /-- the outside: bytes drawn from the reader chip so far -/
  draws : Nat
  /-- the outside: what the host's last port read returned -/
  hostData : Option (BitVec 16)
  deriving DecidableEq, Repr

/-- The block right after block reset under parameters `c` (R37, R250), nothing known of the outside. The pseudocode
variables are DESIGN CHOICE, unsafe (entry 22). -/
def State.initial (c : Params) : State where
  cmd := 0x00000000#32
  dataIn := []
  busy := false
  status := .ok
  overrun := false
  rdata := none
  resp := #v[none, none, none, none, none]
  respLen := 0#3
  polls := 0#16
  op := none
  seq := 0
  running := false
  cs := false
  xfers := 0
  lockState := .locked
  ctrlState := .idle
  lockOut := c.resetLockOut
  unlockOut := c.resetUnlockOut
  tagType := #v[none, none]
  uidBuf := #v[none, none, none, none, none]
  pollCount := 0#16
  trace := []
  hold := .free
  v := 0x00#8
  out := []
  ret := .ok
  result := 0x00#8
  cfg := c
  env := []
  answers := []
  draws := 0
  hostData := none

/-- The machine right after reset, with the default parameters of R8. -/
def State.reset : State := State.initial Params.default

/-- What an atomic step answers. -/
abbrev Result := Host.Outcome State Fault Refusal

end Sys2Proof.Machine
end

