-- ==== Sys2Proof/Machine/Flags.lean ====
section
/-! DEFINITION. Flag computations: status codes (R221), the `STAT` register (R23), the mask test of a poll and of the error
register (R140, R153), the match bit (R180), the outcome codes (R188). -/

namespace Sys2Proof.Machine

/-- The 3-bit code of a status (R221). -/
def statusCode : Status → BitVec 3
  | .ok => 0#3
  | .timeout => 1#3
  | .chipFault => 2#3
  | .badOp => 3#3
  | .badLen => 4#3
  | .disabled => 5#3

/-- The status an operation finishes with after its poll or transceive (R153, R168). -/
def retStatus : Ret → Status
  | .ok => .ok
  | .timeout => .timeout
  | .chipFault => .chipFault

def bit (b : Bool) : BitVec 1 := if b then 1#1 else 0#1

/-- `STAT` (R23): bits 7:5 read 0, bit 4 `OVERRUN`, bits 3:1 `STATUS`, bit 0 `BUSY`. -/
def statByte (s : State) : Byte := 0#3 ++ bit s.overrun ++ statusCode s.status ++ bit s.busy

/-- `(v & mask) != 0`: a poll's hit (R140, R142), an error register's fault (R153), an antenna bit set (R150). -/
def anyBit (v mask : Byte) : Bool := (v &&& mask) != 0#8

/-- `RDATA` of COMPARE_UID: the match bit in bit 0, bits 7:1 zero (R180). -/
def matchByte (m : Bool) : Byte := if m then 0x01#8 else 0x00#8

/-- `compareUid(u, WL)` over the first `n` bytes (R181, R182): some entry agrees with `u` byte for byte. -/
def uidMatches (n : Nat) (u : List Byte) (wl : List (List Byte)) : Bool :=
  wl.any fun w => u.take n == w.take n

/-- The outcome codes of POLL_CYCLE (R188). -/
def outcomeNoTag : Byte := 0x00#8

def outcomeNoUid : Byte := 0x01#8

def outcomeGranted : Byte := 0x02#8

def outcomeDenied : Byte := 0x03#8

end Sys2Proof.Machine
end

