-- ==== Sys2Proof/Machine/Operands.lean ====
section
/-! DEFINITION. Operands: `DATA_IN` as indexed bytes with "no value" (R22, R38), the byte a transfer sends (R124, R126,
R150, R168), the UID bytes (R163), and writing a byte sequence into `RESP`, `tagType`, `uidBuf` (R39, R155, R162). -/

namespace Sys2Proof.Machine

/-! ## Indexed bytes -/

/-- The byte at index `i`, or no value. -/
def readCell (m : Memory) (i : Nat) : Option Byte :=
  match m with
  | [] => none
  | (j, b) :: rest => if i = j then some b else readCell rest i

/-- Store `b` at index `i`, keeping the indices strictly rising. -/
def writeCell (m : Memory) (i : Nat) (b : Byte) : Memory :=
  match m with
  | [] => [(i, b)]
  | (j, c) :: rest =>
    if i < j then (i, b) :: (j, c) :: rest
    else if i = j then (i, b) :: rest
    else (j, c) :: writeCell rest i b

/-- Indices strictly rising, each at least `lo` and below 128. -/
def cellsFrom (lo : Nat) : Memory → Bool
  | [] => true
  | (j, _) :: rest => decide (lo ≤ j) && decide (j < 128) && cellsFrom (j + 1) rest

/-- The canonical form of `DATA_IN`. -/
def Memory.wf (m : Memory) : Bool := cellsFrom 0 m

/-- `DATA_IN[i..i+n-1]`, when all of them hold values. -/
def readCells (m : Memory) (i : Nat) : Nat → Option (List Byte)
  | 0 => some []
  | n + 1 =>
    match readCell m i, readCells m (i + 1) n with
    | some b, some bs => some (b :: bs)
    | _, _ => none

/-- The first `n` bytes of a buffer, when all of them hold values. -/
def takeValues : Nat → List (Option Byte) → Option (List Byte)
  | 0, _ => some []
  | _ + 1, [] => none
  | n + 1, b :: rest =>
    match b, takeValues n rest with
    | some b, some bs => some (b :: bs)
    | _, _ => none

/-- The UID: `uidBuf[0..UID_LEN-1]` (R163). -/
def uidBytes (s : State) : Option (List Byte) := takeValues s.cfg.uidLen s.uidBuf.toList

/-- The candidate of COMPARE_UID: `DATA_IN[0..UID_LEN-1]` (R180). -/
def candidate (s : State) : Option (List Byte) := readCells s.dataIn 0 s.cfg.uidLen

/-! ## Writing a sequence of bytes into a buffer -/

/-- Entry `i` after `bs` was written to entries `0..bs.length-1`. -/
def overlaid (bs : List Byte) (i : Nat) (old : Option Byte) : Option Byte :=
  match bs[i]? with
  | some b => some b
  | none => old

def overlay2 (bs : List Byte) (old : Vector (Option Byte) 2) : Vector (Option Byte) 2 :=
  #v[overlaid bs 0 old[0], overlaid bs 1 old[1]]

def overlay5 (bs : List Byte) (old : Vector (Option Byte) 5) : Vector (Option Byte) 5 :=
  #v[overlaid bs 0 old[0], overlaid bs 1 old[1], overlaid bs 2 old[2], overlaid bs 3 old[3], overlaid bs 4 old[4]]

def noBytes2 : Vector (Option Byte) 2 := #v[none, none]

def noBytes5 : Vector (Option Byte) 5 := #v[none, none, none, none, none]

/-! ## The byte a transfer sends -/

inductive Src where
  /-- a byte fixed by the operation and the parameters -/
  | imm (b : Byte)
  /-- `v` -/
  | var
  /-- `v | mask` (R150) -/
  | varOr (mask : Byte)
  /-- `DATA_IN[i]` (R168) -/
  | dataIn (i : Nat)
  deriving DecidableEq, Repr

/-- The byte, or no value (a `DATA_IN` byte never written, R38). -/
def srcByte (x : Src) (s : State) : Option Byte :=
  match x with
  | .imm b => some b
  | .var => some s.v
  | .varOr mask => some (s.v ||| mask)
  | .dataIn i => readCell s.dataIn i

end Sys2Proof.Machine
end

