-- ==== Sys2Proof/Machine/Ops.lean ====
section
/-! DEFINITION. The named operations over the state: the sequencer's step pointer, the bus primitives (R120, R121), delays
(R236), diagnostics (R196), the actuator (R210 to R212), `Finish` (R222) with the result registers (R39), acceptance and
overrun (R223), the port's reads and writes (R22, R23, R38, R40), block reset (R250). The block has no trap (R220): `finish`
with a status other than OK is its one way to end an operation with a failure. -/

namespace Sys2Proof.Machine

/-- Go on with the state an answer holds; a fault or a refusal stays what it is. -/
def onNext (r : Result) (f : State → State) : Result :=
  match r with
  | .next s => .next (f s)
  | .fault x => .fault x
  | .refused x => .refused x

/-- Append an event to the trace (R32). -/
def State.log (s : State) (e : Event) : State := { s with trace := s.trace ++ [e] }

/-- The step pointer moves past the step just taken and `n` more (R24). -/
def State.skip (s : State) (n : Nat) : State := { s with seq := s.seq + 1 + n }

/-- The step pointer moves past the step just taken (R24). -/
def State.advance (s : State) : State := { s with seq := s.seq + 1 }

/-! ## Bus primitives -/

/-- `Select()` (R121). -/
def select (s : State) : Result :=
  if s.cs then .fault .busProtocol
  else .next { s with cs := true, xfers := 0, trace := s.trace ++ [.sel] }

/-- `Deselect()` (R121). -/
def deselect (s : State) : Result :=
  if s.cs && s.xfers == 2 then .next { s with cs := false, xfers := 0, trace := s.trace ++ [.desel] }
  else .fault .busProtocol

/-- `Xfer` begins: the byte goes out and the sequencer holds in *BusWait* (R120). -/
def startXfer (x : Src) (keep : Bool) (s : State) : Result :=
  if s.cs && decide (s.xfers < 2) then
    match srcByte x s with
    | some b => .next { s with hold := .bus b keep }
    | none => .fault .unwrittenRead
  else .fault .busProtocol

/-- The byte the reader chip answers next: an oracle answer (R60, entry 3). -/
def nextAnswer (s : State) : Byte :=
  match s.answers with
  | b :: _ => b
  | [] => Config.oracle s.draws s.trace

/-- The bus agent completes the exchange (R120): the byte comes in, the event is recorded, the hold is lifted. -/
def completeXfer (out : Byte) (keep : Bool) (s : State) : State :=
  { s with
    hold := .free
    xfers := s.xfers + 1
    v := if keep then nextAnswer s else s.v
    trace := s.trace ++ [.xfer out (nextAnswer s)]
    answers := s.answers.tail
    draws := s.draws + 1
    seq := s.seq + 1 }

/-! ## Delays, diagnostics, actuator -/

/-- `Delay(ms)` (R236): an event and a hold; for `ms = 0` no event and no hold. -/
def startDelay (ms : Nat) (s : State) : State :=
  if ms = 0 then s else { s with hold := .timer, trace := s.trace ++ [.delay ms] }

/-- The timer agent completes the delay (R236). -/
def completeDelay (s : State) : State := { s with hold := .free }

/-- `Emit(d)` (R196). -/
def emit (d : Diag) (s : State) : State := s.log (.diag d)

/-- `SetOutputs(l, u)` (R210): both outputs in one step; `SetOutputs(1, 1)` is a fault. -/
def setOutputs (l u : Bool) (s : State) : Result :=
  if l && u then .fault .actuatorConflict
  else .next { s with lockOut := l, unlockOut := u, trace := s.trace ++ [.outputs l u] }

/-- `Unlock()` (R211). `lockState` changes in the step of the outputs (DEDUCED from R41(b), entry 8). -/
def unlockBody (s : State) : Result := onNext (setOutputs false true s) fun t => { t with lockState := .unlocked }

/-- `Lock()` (R212). -/
def lockBody (s : State) : Result := onNext (setOutputs true false s) fun t => { t with lockState := .locked }

/-- The electrical level of the chip-select line (R128, D29). -/
def chipSelectLevel (s : State) : Bool := s.cs == Config.csActiveLevel

/-- The electrical levels of the lock and unlock pins (R215, D29). -/
def actuatorLevels (s : State) : Bool × Bool :=
  (s.lockOut == Config.lockPinActiveLevel, s.unlockOut == Config.unlockPinActiveLevel)

/-- What the sink prints for a diagnostic event (R197); the block only emits the event. -/
def diagText : Diag → String
  | .cardDetected => Config.diagCardText
  | .uid bytes => Config.diagUidFormat bytes
  | .granted => "Access Granted!"
  | .denied => "Access Denied!"

/-! ## Finish and the result registers -/

/-- One result-register write of a `Finish` (R39). -/
inductive ResWrite where
  /-- `RDATA <- v` -/
  | rdataVar
  /-- `RDATA <- m` or `RDATA <- outcome` -/
  | rdataResult
  /-- `RESP[0..n-1] <- out`, `RESP_LEN <- n` -/
  | respOut
  /-- `RESP_LEN <- 0` -/
  | respNone
  deriving DecidableEq, Repr

def resWrite (s : State) (w : ResWrite) : State :=
  match w with
  | .rdataVar => { s with rdata := some s.v }
  | .rdataResult => { s with rdata := some s.result }
  | .respOut => { s with resp := overlay5 s.out s.resp, respLen := BitVec.ofNat 3 s.out.length }
  | .respNone => { s with respLen := 0#3 }

def resWrites (ws : List ResWrite) (s : State) : State := ws.foldl resWrite s

/-- `STATUS <- st`, `op <- none`, `running <- 0`, `BUSY <- 0`, `OpDone(st)` (R222 steps 2 to 4). -/
def endOp (st : Status) (s : State) : State :=
  { s with
    status := st
    op := none
    running := false
    busy := false
    trace := s.trace ++ [.opDone st] }

/-- `Finish(st, writes)` (R222). -/
def finish (st : Status) (ws : List ResWrite) (s : State) : State := endOp st (resWrites ws s)

/-- `Finish(s, RDATA <- e if s = CHIP_FAULT, RESP_LEN <- 0)` of REQUEST and ANTICOLL (R155, R162). -/
def finishFail (s : State) : State :=
  finish (retStatus s.ret) (if s.ret = .chipFault then [.rdataVar, .respNone] else [.respNone]) s

/-- What REQUEST and ANTICOLL leave in `RESP` and `RESP_LEN` inside a cycle, without a `Finish` (R185, entry 10). -/
def leaveResult (s : State) : State :=
  if s.ret = .ok then resWrites [.respOut] s else resWrites [.respNone] s

/-- The end of a byte encoding run by itself: the sequencer is idle again, with no status (entry 11). -/
def retire (s : State) : State := { s with op := none, running := false, busy := false }

/-! ## Bounded poll (R140) -/

def pollBegin (s : State) : State := { s with pollCount := 0#16 }

def pollIncrement (s : State) : State := { s with pollCount := s.pollCount + 1#16 }

/-- The poll ends: `POLLS <- pollCount`, with Hit or Timeout. -/
def pollEnd (r : Ret) (s : State) : State := { s with polls := s.pollCount, ret := r }

/-! ## The checks of an operation's first step (R94, R169, R180, R227) -/

inductive Check where
  /-- nothing to check -/
  | free
  /-- a rejected word: BAD_OP (R224) -/
  | reserved
  /-- CALC_CRC: the length (R225), then the data bytes (R169) -/
  | crc (n : Nat)
  /-- COMPARE_UID: the candidate bytes (R180) -/
  | candidate
  /-- UNLOCK and LOCK: `HOST_ACTUATOR_OPS` (R226) -/
  | actuator
  deriving DecidableEq, Repr

def checks (c : Check) (s : State) : Result :=
  match c with
  | .free => .next s.advance
  | .reserved => .next (finish .badOp [.respNone] s)
  | .crc n =>
    if s.cfg.crcMaxLen < n then .next (finish .badLen [.respNone] s)
    else if (readCells s.dataIn 0 n).isSome then .next s.advance
    else .fault .unwrittenRead
  | .candidate => if (candidate s).isSome then .next s.advance else .fault .unwrittenRead
  | .actuator => if s.cfg.hostActuatorOps then .next s.advance else .next (finish .disabled [.respNone] s)

/-! ## Operation port -/

/-- The sequencer is set to the first step of an operation. -/
def State.begin (s : State) (i : Instr) : State := { s with op := some i, busy := true, seq := 0, hold := .free }

/-- A host write of `w` to `CMD` while idle is accepted (R223). -/
def accept (w : Word) (s : State) : State :=
  ({ s with
      cmd := w
      rdata := none
      resp := noBytes5
      respLen := 0#3
      trace := s.trace ++ [.opStart w] } : State).begin (decodeCommand w)

/-- A host write while busy is discarded (R22, R223). -/
def overrun (s : State) : State := { s with overrun := true, trace := s.trace ++ [.overrun] }

/-- A host write of `CMD` (R223). -/
def hostWriteCmd (w : Word) (s : State) : State := if s.busy then overrun s else accept w s

/-- A host write of `DATA_IN[i]` (R22). -/
def hostWriteData (i : Nat) (b : Byte) (s : State) : State :=
  if s.busy then overrun s else { s with dataIn := writeCell s.dataIn i b }

/-- What a host read of a port register returns, or no value (R22, R23, R38, R40). -/
def portValue (r : PortReg) (s : State) : Option (BitVec 16) :=
  match r with
  | .stat => some ((statByte s).setWidth 16)
  | .rdata => if s.busy then none else s.rdata.map (·.setWidth 16)
  | .respLen => if s.busy then none else some (s.respLen.setWidth 16)
  | .polls => if s.busy then none else some s.polls
  | .resp i => if s.busy || decide (s.respLen.toNat ≤ i.val) then none else s.resp[i].map (·.setWidth 16)
  | .dataIn i => (readCell s.dataIn i.val).map (·.setWidth 16)

/-- A host read (R38, R40): the value goes to the host, or the read faults. -/
def hostRead (r : PortReg) (s : State) : Result :=
  match portValue r s with
  | some x => .next { s with hostData := some x }
  | none => .fault .unwrittenRead

/-- The number of a port register (R22, R23): P1 `STAT`, P2 `RDATA`, P3 `RESP_LEN`, P4 `POLLS`, P5+i `RESP[i]`,
P16+i `DATA_IN[i]`. -/
def portNumber : PortReg → Nat
  | .stat => 1
  | .rdata => 2
  | .respLen => 3
  | .polls => 4
  | .resp i => 5 + i.val
  | .dataIn i => 16 + i.val

/-- Block reset (R250): every piece of the block's state to its reset value; what is outside the block stays. -/
def blockReset (s : State) : State :=
  { State.initial s.cfg with env := s.env, answers := s.answers, draws := s.draws, hostData := s.hostData }

end Sys2Proof.Machine
end

