-- ==== Sys2Proof/Machine/Micro.lean ====
section
/-! DEFINITION. The sequencer. An operation's pseudocode is a list of atomic steps (R12, R13), `seq` is the index of the next
one (R24). `execMicro` is one step of the sequencer, `atom` one atomic step of the block (the sequencer's, or the bus or
timer agent's that lifts a hold), `perform` runs an operation on while nothing from outside intervenes. -/

namespace Sys2Proof.Machine

/-- One atomic step of an operation's pseudocode. A branch names how many of the following steps it passes over. -/
inductive Micro where
  /-- the checks of the first step (R94, R227) -/
  | checks (c : Check)
  /-- `Select()` -/
  | select
  /-- `_ <- Xfer(x)` -/
  | xferDrop (x : Src)
  /-- `v <- Xfer(x)` -/
  | xferKeep (x : Src)
  /-- `Deselect()` -/
  | deselect
  /-- `Delay(ms)` -/
  | delay (ms : Nat)
  /-- `pollCount <- 0` (R140) -/
  | pollBegin
  /-- `pollCount <- pollCount + 1` (R140) -/
  | pollIncrement
  /-- `if (v & mask) != 0: POLLS <- pollCount; return Hit` (R140) -/
  | pollHit (mask : Byte) (n : Nat)
  /-- `if pollCount = max: POLLS <- pollCount; return Timeout` (R140) -/
  | pollLast (max : Nat) (n : Nat)
  /-- the end of a loop's body: back by `n` steps -/
  | back (n : Nat)
  /-- `if (v & mask) != 0`, the steps that follow are passed over (R150) -/
  | unlessBits (mask : Byte) (n : Nat)
  /-- the last poll or transceive failed: pass over the steps that follow (R153, R155, R162) -/
  | ifFail (n : Nat)
  /-- `if (e & ERR_MASK) != 0: return Fail(CHIP_FAULT, e)` (R153) -/
  | errTest (mask : Byte) (n : Nat)
  /-- a read loop begins: nothing read so far (R153, R168) -/
  | clearOut
  /-- `out[i] <- v` (R153, R168) -/
  | push
  /-- `tagType[0..1] <- none; uidBuf[0..4] <- none` (R30, R185) -/
  | clearBuffers
  /-- `tagType[0..1] <- none` (R155) -/
  | clearTag
  /-- `uidBuf[0..4] <- none` (R162) -/
  | clearUid
  /-- `tagType[0] <- b[0]; tagType[1] <- b[1]` of R155, in one step (entry 31) -/
  | storeTag
  /-- `for i: uidBuf[i] <- b[i]` of R162, in one step (entry 31) -/
  | storeUid
  /-- `m <- compareUid(DATA_IN[0..UID_LEN-1], WHITELIST)` (R180) -/
  | compareData
  /-- `ctrlState <- c` (R185) -/
  | ctrl (c : CtrlState)
  /-- `Emit(d)` (R196) -/
  | emit (d : Diag)
  /-- `Emit(Uid(uid))` (R185) -/
  | emitUid
  /-- the result registers as REQUEST or ANTICOLL leaves them inside a cycle (R185) -/
  | leaveResult
  /-- `if r is Fail: outcome <- code; goto END` (R185) -/
  | onFail (code : Byte) (n : Nat)
  /-- `if compareUid(uid, WHITELIST)`, else pass over the steps that follow (R185) -/
  | ifMatch (n : Nat)
  /-- `Unlock()` (R211) -/
  | unlock
  /-- `Lock()` (R212) -/
  | lock
  /-- `outcome <- code`, then pass over `n` steps (R185) -/
  | outcome (code : Byte) (n : Nat)
  /-- `running <- 1` (R190) -/
  | setRunning
  /-- the next round of RUN's loop begins at step `n` (R190) -/
  | restart (n : Nat)
  /-- `Finish(st, writes)` (R222) -/
  | finish (st : Status) (ws : List ResWrite)
  /-- `Finish` with the status of the last poll (R168) -/
  | finishRet (ws : List ResWrite)
  /-- `Finish` of a failed REQUEST or ANTICOLL (R155, R162) -/
  | finishFail
  /-- the end of a byte encoding run by itself (entry 11) -/
  | retire
  deriving DecidableEq, Repr

/-- An operation's pseudocode. -/
abbrev Code := List Micro

/-- One atomic step of the sequencer. How control lines and local assignments of the pseudocode group into atomic steps is the
model's (DESIGN CHOICE, safe, entry 31): a test of a poll with `POLLS <- pollCount` and its return is one step, as is a failure
test with its `outcome` and `goto`, and `uid <- uidBuf[..]` with `Emit(Uid(uid))`. The stores of several bytes of block state are
one step each, too (same entry): `tagType[0] <- b[0]; tagType[1] <- b[1]` (R155), `for i: uidBuf[i] <- b[i]` (R162), and the
clearing of a whole buffer or of both. The steps that read a byte holding no value fault, as R38 says of any such read. -/
def execMicro (m : Micro) (s : State) : Result :=
  match m with
  | .checks c => checks c s
  | .select => onNext (select s) State.advance
  | .xferDrop x => startXfer x false s
  | .xferKeep x => startXfer x true s
  | .deselect => onNext (deselect s) State.advance
  | .delay ms => .next (startDelay ms s).advance
  | .pollBegin => .next (pollBegin s).advance
  | .pollIncrement => .next (pollIncrement s).advance
  | .pollHit mask n => if anyBit s.v mask then .next ((pollEnd .ok s).skip n) else .next s.advance
  | .pollLast max n => if s.pollCount.toNat = max then .next ((pollEnd .timeout s).skip n) else .next s.advance
  | .back n => .next { s with seq := s.seq - n }
  | .unlessBits mask n => if anyBit s.v mask then .next (s.skip n) else .next s.advance
  | .ifFail n => if s.ret = .ok then .next s.advance else .next (s.skip n)
  | .errTest mask n =>
    if anyBit s.v mask then .next (({ s with ret := .chipFault } : State).skip n) else .next s.advance
  | .clearOut => .next ({ s with out := [] } : State).advance
  | .push => .next ({ s with out := s.out ++ [s.v] } : State).advance
  | .clearBuffers => .next ({ s with tagType := noBytes2, uidBuf := noBytes5 } : State).advance
  | .clearTag => .next ({ s with tagType := noBytes2 } : State).advance
  | .clearUid => .next ({ s with uidBuf := noBytes5 } : State).advance
  | .storeTag => .next ({ s with tagType := overlay2 s.out s.tagType } : State).advance
  | .storeUid => .next ({ s with uidBuf := overlay5 s.out s.uidBuf } : State).advance
  | .compareData =>
    match candidate s with
    | some u => .next ({ s with result := matchByte (uidMatches s.cfg.uidLen u s.cfg.whitelist) } : State).advance
    | none => .fault .unwrittenRead
  | .ctrl c => .next ({ s with ctrlState := c } : State).advance
  | .emit d => .next (emit d s).advance
  | .emitUid =>
    match uidBytes s with
    | some u => .next (emit (.uid u) s).advance
    | none => .fault .unwrittenRead
  | .leaveResult => .next (leaveResult s).advance
  | .onFail code n => if s.ret = .ok then .next s.advance else .next (({ s with result := code } : State).skip n)
  | .ifMatch n =>
    match uidBytes s with
    | some u => if uidMatches s.cfg.uidLen u s.cfg.whitelist then .next s.advance else .next (s.skip n)
    | none => .fault .unwrittenRead
  | .unlock => onNext (unlockBody s) State.advance
  | .lock => onNext (lockBody s) State.advance
  | .outcome code n => .next (({ s with result := code } : State).skip n)
  | .setRunning => .next ({ s with running := true } : State).advance
  | .restart n => .next { s with seq := n }
  | .finish st ws => .next (finish st ws s)
  | .finishRet ws => .next (finish (retStatus s.ret) ws s)
  | .finishFail => .next (finishFail s)
  | .retire => .next (retire s)

/-- One atomic step of the block running the code `p`: the agent's that lifts a hold, or the sequencer's. Past the last
step of a code (no operation gets there, entry 26) the sequencer stays where it is. -/
def atom (p : Code) (s : State) : Result :=
  match s.hold with
  | .bus out keep => .next (completeXfer out keep s)
  | .timer => .next (completeDelay s)
  | .free =>
    match p[s.seq]? with
    | some m => execMicro m s
    | none => .next s

/-- The sequencer waits for a byte that no prepared answer provides. -/
def awaiting (s : State) : Bool :=
  match s.hold with
  | .bus _ _ => s.answers.isEmpty
  | .free | .timer => false

/-- The next atomic step closes a round of RUN's loop. -/
def closesRound (p : Code) (s : State) : Bool :=
  match s.hold, p[s.seq]? with
  | .free, some (.restart _) => true
  | _, _ => false

/-- After the atomic step that led from `s` to `t` the block rests: the operation is over, a round of RUN is over, or a
byte is awaited that nothing provides yet. -/
def rests (p : Code) (s t : State) : Bool := t.op.isNone || awaiting t || closesRound p s

/-- Atomic steps of the code `p` until the block rests, at most `n` of them. -/
def burst (p : Code) : Nat → State → Result
  | 0, s => .next s
  | n + 1, s =>
    match atom p s with
    | .next t => if rests p s t then .next t else burst p n t
    | .fault x => .fault x
    | .refused x => .refused x

/-- More atomic steps than any operation or round of RUN takes under a configuration of R9 (entry 21). -/
def burstBound : Nat := 2097152

/-- Run the code `p` on from where the step pointer stands, while nothing from outside intervenes (entry 4). -/
def perform (p : Code) (s : State) : Result := burst p burstBound s

end Sys2Proof.Machine
end

