-- ==== Sys2Proof/Machine/Bus.lean ====
section
/-! DEFINITION. The serial-bus transactor (spec/40_bus_transactions.md): `ReadReg`, `WriteReg`, the operations READ_REG
and WRITE_REG, and the two bus frames. -/

namespace Sys2Proof.Machine

/-- `v <- ReadReg(a)` (R124): select, frame, dummy byte, deselect; the second transfer's byte is the value (R125). -/
def readReg (c : Params) (a : Addr) : Code :=
  [.select, .xferDrop (.imm (frame a true)), .xferKeep (.imm c.dummyByte), .deselect]

/-- `WriteReg(a, x)` (R126): select, frame, value, deselect; both received bytes are dropped. -/
def writeReg (a : Addr) (x : Src) : Code :=
  [.select, .xferDrop (.imm (frame a false)), .xferDrop x, .deselect]

/-- `Delay(ms)` in an operation's code: no step at all for 0 ms (R236). -/
def delay (ms : Nat) : Code := if ms = 0 then [] else [.delay ms]

/-- READ_REG (R124). -/
def codeReadReg (c : Params) (a : Addr) : Code :=
  [.checks .free] ++ readReg c a ++ [.finish .ok [.rdataVar, .respNone]]

/-- WRITE_REG (R126). -/
def codeWriteReg (a : Addr) (v : Byte) : Code :=
  [.checks .free] ++ writeReg a (.imm v) ++ [.finish .ok [.respNone]]

/-- The read transaction a read frame opens (R100, R122, R124). -/
def codeFrameRead (c : Params) (a : Addr) : Code := readReg c a ++ [.retire]

/-- The write transaction a write frame opens (R100, R122, R126); its data byte is the sequencer's `v` (entry 11). -/
def codeFrameWrite (a : Addr) : Code := writeReg a .var ++ [.retire]

def execReadReg (a : Addr) (s : State) : Result := perform (codeReadReg s.cfg a) s

def execWriteReg (a : Addr) (v : Byte) (s : State) : Result := perform (codeWriteReg a v) s

def execFrameRead (a : Addr) (s : State) : Result := perform (codeFrameRead s.cfg a) s

def execFrameWrite (a : Addr) (s : State) : Result := perform (codeFrameWrite a) s

end Sys2Proof.Machine
end

