-- ==== Sys2Proof/Machine/Reader.lean ====
section
/-! DEFINITION. The reader commands and the bounded poll engine (spec/41_reader_commands.md): RESET_READER, ANTENNA_ON,
REQUEST, ANTICOLL, CALC_CRC, and the chip command codes (R103) and card bytes (R105) those operations send. -/

namespace Sys2Proof.Machine

/-- The write of a command code to the command register (R103). -/
def chipCommand (c : Params) (code : BitVec 4) : Code := writeReg c.regCommand (.imm (chipByte code))

/-- The staging of one payload byte in the FIFO (R64, R105). -/
def stage (c : Params) (x : Src) : Code := writeReg c.regFifoData x

/-- `Poll(reg, mask, max, ivl)` (R140). The delay lies between two reads only (R141); both ends leave the loop behind. -/
def poll (c : Params) (reg : Addr) (mask : Byte) (max ivl : Nat) : Code :=
  [.pollBegin] ++ readReg c reg ++
    [.pollIncrement, .pollHit mask ((delay ivl).length + 2), .pollLast max ((delay ivl).length + 1)] ++
    delay ivl ++ [.back ((delay ivl).length + 7)]

/-- `n` reads of the FIFO, each kept in order (R64, R153). -/
def readFifo (c : Params) (n : Nat) : Code :=
  [.clearOut] ++ (List.replicate n (readReg c c.regFifoData ++ [.push])).flatten

/-- The error test and the FIFO reads of `Transceive` after a hit (R153, R154). -/
def collect (c : Params) (n : Nat) : Code :=
  readReg c c.regError ++ [.errTest c.errMask (readFifo c n).length] ++ readFifo c n

/-- The prologue of `Transceive`: idle, optional clear of the IRQ bits, flush, framing, payload, transceive, optional
start of the send (R153, D13). -/
def prologue (c : Params) (framing : Byte) (payload : List Byte) : Code :=
  chipCommand c c.cmdIdle ++
    (if c.clearIrqBeforeIssue then writeReg c.regComIrq (.imm c.irqClearValue) else []) ++
    writeReg c.regFifoLevel (.imm c.fifoFlush) ++
    writeReg c.regBitFraming (.imm framing) ++
    (payload.map fun b => stage c (.imm b)).flatten ++
    chipCommand c c.cmdTransceive ++
    (if c.startSendAfterIssue then writeReg c.regBitFraming (.imm (framing ||| c.startSendBit)) else [])

/-- `Transceive(framing, payload, n)` (R153): afterwards `ret` says Ok or Fail, `out` the bytes read, `v` the error byte
of a CHIP_FAULT. -/
def transceive (c : Params) (framing : Byte) (payload : List Byte) (n : Nat) : Code :=
  prologue c framing payload ++
    poll c c.regComIrq c.comIrqWaitMask c.pollMaxCom c.pollIntervalMs ++
    [.ifFail (collect c n).length] ++ collect c n

/-- The body of REQUEST (R155). -/
def requestBody (c : Params) (m : Byte) : Code :=
  [.clearTag] ++ transceive c c.bitFramingShort [m] 2 ++ [.ifFail 1, .storeTag]

/-- The body of ANTICOLL (R162). -/
def anticollBody (c : Params) : Code :=
  [.clearUid] ++ transceive c c.bitFramingFull [c.piccAnticoll, c.nvbAnticoll] c.anticollReadLen ++
    [.ifFail 1, .storeUid]

/-- RESET_READER (R144): the settle delay is its own (R145). -/
def codeResetReader (c : Params) : Code :=
  [.checks .free] ++ chipCommand c c.cmdSoftReset ++ delay c.resetSettleMs ++ [.finish .ok [.respNone]]

/-- ANTENNA_ON (R150). -/
def codeAntennaOn (c : Params) : Code :=
  [.checks .free] ++ readReg c c.regTxControl ++ [.unlessBits c.antennaMask 4] ++
    writeReg c.regTxControl (.varOr c.antennaMask) ++ [.finish .ok [.respNone]]

/-- REQUEST (R155); both buffers are cleared at its start (R30, entry 9). -/
def codeRequest (c : Params) (m : Byte) : Code :=
  [.checks .free, .clearBuffers] ++ requestBody c m ++ [.ifFail 1, .finish .ok [.respOut], .finishFail]

/-- ANTICOLL (R162); both buffers are cleared at its start (R30, entry 9). -/
def codeAnticoll (c : Params) : Code :=
  [.checks .free, .clearBuffers] ++ anticollBody c ++ [.ifFail 1, .finish .ok [.respOut], .finishFail]

/-- CALC_CRC (R168, R169); the result registers are read after a timeout too, low byte first. -/
def codeCalcCrc (c : Params) (n : Nat) : Code :=
  [.checks (.crc n)] ++ chipCommand c c.cmdIdle ++ writeReg c.regFifoLevel (.imm c.fifoFlush) ++
    ((List.range n).map fun i => stage c (.dataIn i)).flatten ++
    chipCommand c c.cmdCalcCrc ++
    poll c c.regDivIrq c.divIrqCrcMask c.pollMaxDiv c.crcPollIntervalMs ++
    [.clearOut] ++ readReg c c.regCrcResultL ++ [.push] ++ readReg c c.regCrcResultH ++ [.push] ++
    [.finishRet [.respOut]]

def execResetReader (s : State) : Result := perform (codeResetReader s.cfg) s

def execAntennaOn (s : State) : Result := perform (codeAntennaOn s.cfg) s

def execRequest (m : Byte) (s : State) : Result := perform (codeRequest s.cfg m) s

def execAnticoll (s : State) : Result := perform (codeAnticoll s.cfg) s

def execCalcCrc (n : Nat) (s : State) : Result := perform (codeCalcCrc s.cfg n) s

/-! ## Chip command codes and card bytes by themselves (R103, R105, entry 11) -/

def codeChipIdle (c : Params) : Code := chipCommand c c.cmdIdle ++ [.retire]

def codeChipCalcCrc (c : Params) : Code := chipCommand c c.cmdCalcCrc ++ [.retire]

def codeChipTransceive (c : Params) : Code := chipCommand c c.cmdTransceive ++ [.retire]

def codeChipSoftReset (c : Params) : Code := chipCommand c c.cmdSoftReset ++ [.retire]

def codeCardReqa (c : Params) : Code := stage c (.imm c.reqMode) ++ [.retire]

def codeCardAnticollCl1 (c : Params) : Code := stage c (.imm c.piccAnticoll) ++ [.retire]

def codeCardNvb (c : Params) : Code := stage c (.imm c.nvbAnticoll) ++ [.retire]

def execChipIdle (s : State) : Result := perform (codeChipIdle s.cfg) s

def execChipCalcCrc (s : State) : Result := perform (codeChipCalcCrc s.cfg) s

def execChipTransceive (s : State) : Result := perform (codeChipTransceive s.cfg) s

def execChipSoftReset (s : State) : Result := perform (codeChipSoftReset s.cfg) s

def execCardReqa (s : State) : Result := perform (codeCardReqa s.cfg) s

def execCardAnticollCl1 (s : State) : Result := perform (codeCardAnticollCl1 s.cfg) s

def execCardNvb (s : State) : Result := perform (codeCardNvb s.cfg) s

end Sys2Proof.Machine
end

