-- ==== Sys2Proof/Machine/Access.lean ====
section
/-! DEFINITION. The whitelist comparator, one access-control cycle and the controller loop (spec/42_access_control.md):
COMPARE_UID, POLL_CYCLE, RUN. -/

namespace Sys2Proof.Machine

/-- COMPARE_UID (R180). -/
def codeCompareUid : Code :=
  [.checks .candidate, .compareData, .finish .ok [.rdataResult, .respNone]]

/-- The granted branch of a cycle (R185): diagnostic, unlock, dwell, lock; then past the `n` steps of the other branch. -/
def grantedBranch (c : Params) (n : Nat) : Code :=
  [.ctrl .granted, .emit .granted, .unlock] ++ delay c.dwellMs ++ [.lock, .outcome outcomeGranted n]

/-- The denied branch of a cycle (R185). -/
def deniedBranch : Code := [.ctrl .denied, .emit .denied, .outcome outcomeDenied 0]

/-- The access decision (R185): from the read UID to the outcome. -/
def decision (c : Params) : Code :=
  [.emitUid, .ifMatch (grantedBranch c deniedBranch.length).length] ++
    grantedBranch c deniedBranch.length ++ deniedBranch

/-- The cycle from a detected card on (R185): ANTICOLL, then the decision. -/
def afterRequest (c : Params) : Code :=
  [.emit .cardDetected, .ctrl .readUid] ++ anticollBody c ++
    [.leaveResult, .onFail outcomeNoUid (decision c).length] ++ decision c

/-- POLL_CYCLE body (R185): buffers cleared, REQUEST, and at END the inter-poll delay and Idle. -/
def cycle (c : Params) : Code :=
  [.clearBuffers, .ctrl .idle] ++ requestBody c c.reqMode ++
    [.leaveResult, .onFail outcomeNoTag (afterRequest c).length] ++ afterRequest c ++
    delay c.interPollMs ++ [.ctrl .idle]

/-- POLL_CYCLE (R185): `RDATA` is the outcome code (R188). -/
def codePollCycle (c : Params) : Code := [.checks .free] ++ cycle c ++ [.finish .ok [.rdataResult]]

/-- Where a round of RUN's loop begins in its code. -/
def roundStart : Nat := 2

/-- RUN (R190): cycles for ever, without a `Finish`. -/
def codeRun (c : Params) : Code := [.checks .free, .setRunning] ++ cycle c ++ [.restart roundStart]

def execCompareUid (s : State) : Result := perform codeCompareUid s

def execPollCycle (s : State) : Result := perform (codePollCycle s.cfg) s

def execRun (s : State) : Result := perform (codeRun s.cfg) s

end Sys2Proof.Machine
end

