-- ==== Sys2Proof/Machine/Actuator.lean ====
section
/-! DEFINITION. The port operations of the lock actuator (spec/43_lock_actuator.md): UNLOCK and LOCK. -/

namespace Sys2Proof.Machine

/-- UNLOCK (R211); DISABLED when the host may not drive the actuator (R226). -/
def codeUnlock : Code := [.checks .actuator, .unlock, .finish .ok [.respNone]]

/-- LOCK (R212). -/
def codeLock : Code := [.checks .actuator, .lock, .finish .ok [.respNone]]

def execUnlock (s : State) : Result := perform codeUnlock s

def execLock (s : State) : Result := perform codeLock s

end Sys2Proof.Machine
end

