-- ==== Sys2Proof/Machine/Reserved.lean ====
section
/-! DEFINITION. The rejected command words (spec/30_encoding.md R93, spec/60_exceptions.md R224): each finishes with BAD_OP
as its only step and touches nothing but the result registers. -/

namespace Sys2Proof.Machine

/-- A rejected word (R224). -/
def codeReserved : Code := [.checks .reserved]

def execReservedOp0 (s : State) : Result := perform codeReserved s

def execReservedOpD (s : State) : Result := perform codeReserved s

def execReservedOpE (s : State) : Result := perform codeReserved s

def execReservedOpF (s : State) : Result := perform codeReserved s

def execReservedRsv25 (s : State) : Result := perform codeReserved s

def execReservedRsv26 (s : State) : Result := perform codeReserved s

def execReservedRsv27 (s : State) : Result := perform codeReserved s

def execReservedRsv28 (s : State) : Result := perform codeReserved s

def execReservedRsv29 (s : State) : Result := perform codeReserved s

def execReservedRsv30 (s : State) : Result := perform codeReserved s

def execReservedRsv31 (s : State) : Result := perform codeReserved s

end Sys2Proof.Machine
end

