-- ==== Sys2Proof/Machine/Dispatch.lean ====
section
/-! DEFINITION. One arm per instruction, each a direct call of its meaning. -/

namespace Sys2Proof.Machine

def exec (i : Instr) (s : State) : Host.Outcome State Fault Refusal :=
  match i with
  | .readReg a => Sys2Proof.Machine.execReadReg a s
  | .writeReg a v => Sys2Proof.Machine.execWriteReg a v s
  | .resetReader => Sys2Proof.Machine.execResetReader s
  | .antennaOn => Sys2Proof.Machine.execAntennaOn s
  | .request m => Sys2Proof.Machine.execRequest m s
  | .anticoll => Sys2Proof.Machine.execAnticoll s
  | .calcCrc n => Sys2Proof.Machine.execCalcCrc n s
  | .compareUid => Sys2Proof.Machine.execCompareUid s
  | .unlock => Sys2Proof.Machine.execUnlock s
  | .lock => Sys2Proof.Machine.execLock s
  | .pollCycle => Sys2Proof.Machine.execPollCycle s
  | .run => Sys2Proof.Machine.execRun s
  | .reservedOp0 => Sys2Proof.Machine.execReservedOp0 s
  | .reservedOpD => Sys2Proof.Machine.execReservedOpD s
  | .reservedOpE => Sys2Proof.Machine.execReservedOpE s
  | .reservedOpF => Sys2Proof.Machine.execReservedOpF s
  | .reservedRsv25 => Sys2Proof.Machine.execReservedRsv25 s
  | .reservedRsv26 => Sys2Proof.Machine.execReservedRsv26 s
  | .reservedRsv27 => Sys2Proof.Machine.execReservedRsv27 s
  | .reservedRsv28 => Sys2Proof.Machine.execReservedRsv28 s
  | .reservedRsv29 => Sys2Proof.Machine.execReservedRsv29 s
  | .reservedRsv30 => Sys2Proof.Machine.execReservedRsv30 s
  | .reservedRsv31 => Sys2Proof.Machine.execReservedRsv31 s
  | .frameRead a => Sys2Proof.Machine.execFrameRead a s
  | .frameWrite a => Sys2Proof.Machine.execFrameWrite a s
  | .chipIdle => Sys2Proof.Machine.execChipIdle s
  | .chipCalcCrc => Sys2Proof.Machine.execChipCalcCrc s
  | .chipTransceive => Sys2Proof.Machine.execChipTransceive s
  | .chipSoftReset => Sys2Proof.Machine.execChipSoftReset s
  | .cardReqa => Sys2Proof.Machine.execCardReqa s
  | .cardAnticollCl1 => Sys2Proof.Machine.execCardAnticollCl1 s
  | .cardNvb => Sys2Proof.Machine.execCardNvb s

end Sys2Proof.Machine
end

