-- ==== Sys2Proof/Machine/Program.lean ====
section
/-! DEFINITION. The code of every instruction in one function: what single atomic steps index with `seq`. -/

namespace Sys2Proof.Machine

/-- The pseudocode of an instruction under parameters `c`. -/
def program (c : Params) : Instr → Code
  | .readReg a => codeReadReg c a
  | .writeReg a v => codeWriteReg a v
  | .resetReader => codeResetReader c
  | .antennaOn => codeAntennaOn c
  | .request m => codeRequest c m
  | .anticoll => codeAnticoll c
  | .calcCrc n => codeCalcCrc c n
  | .compareUid => codeCompareUid
  | .unlock => codeUnlock
  | .lock => codeLock
  | .pollCycle => codePollCycle c
  | .run => codeRun c
  | .reservedOp0 | .reservedOpD | .reservedOpE | .reservedOpF
  | .reservedRsv25 | .reservedRsv26 | .reservedRsv27 | .reservedRsv28 | .reservedRsv29 | .reservedRsv30
  | .reservedRsv31 => codeReserved
  | .frameRead a => codeFrameRead c a
  | .frameWrite a => codeFrameWrite a
  | .chipIdle => codeChipIdle c
  | .chipCalcCrc => codeChipCalcCrc c
  | .chipTransceive => codeChipTransceive c
  | .chipSoftReset => codeChipSoftReset c
  | .cardReqa => codeCardReqa c
  | .cardAnticollCl1 => codeCardAnticollCl1 c
  | .cardNvb => codeCardNvb c

end Sys2Proof.Machine
end

