-- ==== Sys2Proof/Machine/Port.lean ====
section
/-! DEFINITION. The outside world's moves (spec/00_scope.md R7, spec/60_exceptions.md R223, R227, R238) and host scripts for
the duties and pseudo-instructions the spec names (R98, R256). -/

namespace Sys2Proof.Machine

/-- Let the block run while nothing from outside intervenes: the operation in progress, if there is one. -/
def undisturbed (s : State) : Result :=
  match s.op with
  | none => .next s
  | some i => exec i s

/-- The sequencer's next atomic step, if there is an operation and it does not hold (R24, R120, R236). -/
def sequencerStep (s : State) : Result :=
  match s.op, s.hold with
  | some i, .free => atom (program s.cfg i) s
  | _, _ => .next s

/-- The bus agent's completion, if the sequencer is in *BusWait* (R120). -/
def busAgent (s : State) : Result :=
  match s.hold with
  | .bus out keep => .next (completeXfer out keep s)
  | .free | .timer => .next s

/-- The timer agent's completion, if the sequencer holds in a delay (R236). -/
def timerAgent (s : State) : Result :=
  match s.hold with
  | .timer => .next (completeDelay s)
  | .free | .bus _ _ => .next s

/-- One stimulus (already taken off `env`). An agent whose move is not enabled changes nothing (entry 4). While the host
awaits idle the block runs undisturbed and the stimulus stays; it is done when `BUSY` reads 0. -/
def deliver (e : Stimulus) (s : State) : Result :=
  match e with
  | .go => sequencerStep s
  | .busDone => busAgent s
  | .timerDone => timerAgent s
  | .hostWriteCmd w => .next (hostWriteCmd w s)
  | .hostWriteData i b => .next (hostWriteData i.val b s)
  | .hostWriteOutput _ _ => .next s
  | .hostRead r => hostRead r s
  | .hostAwaitIdle => if s.busy then onNext (undisturbed s) fun t => { t with env := .hostAwaitIdle :: t.env } else .next s
  | .blockReset => .next (blockReset s)

/-! ## Host scripts -/

/-- Issue one operation and wait for `BUSY = 0` (R256, R260). -/
def scriptIssue (w : Word) : List Stimulus := [.hostWriteCmd w, .hostAwaitIdle]

/-- The directive `DATA i: b0, b1, ...` (R97), for indices below 128. -/
def scriptData (i : Nat) : List Byte → List Stimulus
  | [] => []
  | b :: rest => if h : i < 128 then .hostWriteData ⟨i, h⟩ b :: scriptData (i + 1) rest else []

/-- `BOOT` (R98, R256): RESET_READER, then ANTENNA_ON. -/
def scriptBoot : List Stimulus := scriptIssue 0x00000003#32 ++ scriptIssue 0x00000004#32

/-- `REQA` (R98). -/
def scriptReqa : List Stimulus := scriptIssue 0x00009805#32

/-- `CHECK_UID b0, b1, ...` (R98). -/
def scriptCheckUid (bytes : List Byte) : List Stimulus := scriptData 0 bytes ++ scriptIssue 0x00000008#32

/-- The reference behaviour (R256): boot, then RUN. -/
def scriptReference : List Stimulus := scriptBoot ++ [.hostWriteCmd 0x0000000C#32]

end Sys2Proof.Machine
end

