-- ==== Sys2Proof/Machine/Step.lean ====
section
/-! DEFINITION. One step of the machine: the next stimulus of the outside, or, when the outside does nothing more, the
operation in progress run undisturbed. A configuration that breaks R9 is refused as a whole (R228). -/

namespace Sys2Proof.Machine

def step (s : State) : Host.Outcome State Fault Refusal :=
  if s.cfg.ok then
    match s.env with
    | [] => undisturbed s
    | e :: rest => deliver e { s with env := rest }
  else .refused .badConfiguration

/-- `s` with the instruction of a table word as what the next step runs: a command word as the host's accepted write of
`CMD` leaves it, a byte encoding as the sequencer's current code; nothing from outside in between (entry 18). -/
def State.withFetchWord (s : State) (nbits w : Nat) : State :=
  match decodeTableWord nbits w with
  | some i =>
    if i.isCommand then { accept (BitVec.ofNat 32 (w % 2 ^ nbits)) s with env := [] }
    else { s.begin i with env := [] }
  | none => { s with env := [] }

end Sys2Proof.Machine
end

