-- ==== Sys2Proof/Safety.lean ====
section
/-! DEFINITION. The terms claims are stated in: readings of the trace (R32: transactions, delays, diagnostics, outputs), the
bus shape of a trace (R122), the named hypothesis `Readback` (R67), a freshly accepted operation, and the invariants of
spec/10_state.md R26, R41. -/

namespace Sys2Proof.Machine

/-! ## Readings of a trace -/

/-- A register transaction as a whole (R122): its address, direction, and the byte that counts. -/
inductive Txn where
  | read (a : Addr) (v : Byte)
  | write (a : Addr) (v : Byte)
  deriving DecidableEq, Repr

def Txn.addr : Txn → Addr
  | .read a _ => a
  | .write a _ => a

/-- The transaction of a frame byte, the byte sent after it and the byte received for that (R100, R102). -/
def txnOf (f sent got : Byte) : Option Txn :=
  match decodeFrame f with
  | .ok (.frameRead a) => some (.read a got)
  | .ok (.frameWrite a) => some (.write a sent)
  | _ => none

/-- The completed transactions of a trace, in order. -/
def txns : List Event → List Txn
  | .sel :: .xfer f _ :: .xfer d r :: .desel :: rest =>
    match txnOf f d r with
    | some t => t :: txns rest
    | none => txns rest
  | _ :: rest => txns rest
  | [] => []

/-- The delays of a trace, in ms (R236). -/
def delays (tr : List Event) : List Nat :=
  tr.filterMap fun e => match e with
    | .delay ms => some ms
    | _ => none

/-- The diagnostic events of a trace (R196). -/
def diags (tr : List Event) : List Diag :=
  tr.filterMap fun e => match e with
    | .diag d => some d
    | _ => none

/-- The output changes of a trace (R210). -/
def outs (tr : List Event) : List (Bool × Bool) :=
  tr.filterMap fun e => match e with
    | .outputs l u => some (l, u)
    | _ => none

/-- Is the event one of the bus? -/
def isBusEvent : Event → Bool
  | .sel | .xfer _ _ | .desel => true
  | .opStart _ | .opDone _ | .delay _ | .diag _ | .outputs _ _ | .overrun => false

/-- The events of one read transaction (R124): `x` comes in with the frame and is dropped, `v` is the value. -/
def readEvents (c : Params) (a : Addr) (x v : Byte) : List Event :=
  [.sel, .xfer (frame a true) x, .xfer c.dummyByte v, .desel]

/-- The events of one write transaction (R126); `x` and `y` come in and are dropped. -/
def writeEvents (a : Addr) (b x y : Byte) : List Event :=
  [.sel, .xfer (frame a false) x, .xfer b y, .desel]

/-- The events of `Delay(ms)` (R236). -/
def delayEvents (ms : Nat) : List Event := if ms = 0 then [] else [.delay ms]

/-- The bytes the reader answers in a row of transactions, two to each. -/
def flatPairs : List (Byte × Byte) → List Byte
  | [] => []
  | (x, v) :: rest => x :: v :: flatPairs rest

/-! ## Bus shape (R122) -/

/-- Where a trace stands on the bus. -/
inductive BusShape where
  /-- no transaction open -/
  | idle
  /-- a transaction open with `n` transfers done -/
  | opened (n : Nat)
  /-- the shape of R122 is broken -/
  | broken
  deriving DecidableEq, Repr

/-- One event more. Only the host's `Overrun` may fall inside a transaction (R223, R227). -/
def busShapeStep (b : BusShape) (e : Event) : BusShape :=
  match e, b with
  | .overrun, b => b
  | .sel, .idle => .opened 0
  | .xfer _ _, .opened n => if n < 2 then .opened (n + 1) else .broken
  | .desel, .opened n => if n = 2 then .idle else .broken
  | .opStart _, .idle => .idle
  | .opDone _, .idle => .idle
  | .delay _, .idle => .idle
  | .diag _, .idle => .idle
  | .outputs _ _, .idle => .idle
  | _, _ => .broken

def busShape (tr : List Event) : BusShape := tr.foldl busShapeStep .idle

/-- The shape the bus-master state says (R26). -/
def stateShape (s : State) : BusShape := if s.cs then .opened s.xfers else .idle

/-! ## Readback (R67) -/

/-- The trace without the host's `Overrun` events. -/
def ownEvents (tr : List Event) : List Event := tr.filter fun e => e != .overrun

/-- A write of the soft-reset code to the command register, whose low four bits are the command (R103). -/
def Txn.resetsReader (c : Params) : Txn → Bool
  | .read _ _ => false
  | .write a v => a == c.regCommand && v.extractLsb' 0 4 == c.cmdSoftReset

/-- The hypothesis `Readback` over a trace: for `a` in `SEF_REGS`, a read of `a` after a write of `V` to `a`, with no other
transaction addressed to `a` and no reset in between, is answered with `V`. A block reset empties the trace, so none lies
between. That the reader's own soft reset counts as a reset, too, is the model's choice (DESIGN CHOICE, safe, entry 32): R67
does not say which reset it means, and after a soft reset the registers hold any value (I24). -/
def Readback (c : Params) (tr : List Event) : Prop :=
  ∀ a ∈ c.sefRegs, ∀ (before between after : List Txn) (V W : Byte),
    txns (ownEvents tr) = before ++ [.write a V] ++ between ++ [.read a W] ++ after →
    (∀ t ∈ between, t.addr ≠ a) → (∀ t ∈ .write a V :: between, t.resetsReader c = false) → W = V

/-! ## Operations about to run -/

/-- Operation `i` was accepted and none of its steps has been taken (R223): the hypotheses of the result statements. -/
structure Ready (i : Instr) (s : State) : Prop where
  op : s.op = some i
  seq : s.seq = 0
  hold : s.hold = .free
  cs : s.cs = false
  xfers : s.xfers = 0

/-- RUN stands at the beginning of a round of its loop (R190). -/
structure RoundReady (s : State) : Prop where
  op : s.op = some .run
  seq : s.seq = roundStart
  hold : s.hold = .free
  cs : s.cs = false
  xfers : s.xfers = 0
  running : s.running = true

/-- What a step makes of operation `i`: its undisturbed run (entry 4), or one atomic step of its code. -/
def Advances (i : Instr) (s t : State) : Prop := exec i s = .next t ∨ atom (program s.cfg i) s = .next t

/-- `n` atomic steps of the code `p`. -/
def atoms (p : Code) : Nat → State → Result
  | 0, s => .next s
  | n + 1, s =>
    match atom p s with
    | .next t => atoms p n t
    | .fault x => .fault x
    | .refused x => .refused x

/-- The code `p` leads from `s` to `t`, and the controller keeps its state on the way, up to the step that leads to `t`. -/
def KeepsCtrlUntil (p : Code) (s t : State) : Prop :=
  ∃ n, atoms p (n + 1) s = .next t ∧ ∀ j w, j ≤ n → atoms p j s = .next w → w.ctrlState = s.ctrlState

/-- The bits of a command word that its operation uses, by operation code (R91, R92): `OP`, and the "fields used". -/
def usedBits (op : BitVec 4) : Word :=
  match op.toNat with
  | 1 => 0x000003FF#32
  | 2 => 0x0003FFFF#32
  | 5 => 0x0003FC0F#32
  | 7 => 0x01FC000F#32
  | _ => 0x0000000F#32

/-- The register write that a chip command code or a card byte stands for (R103, R105). -/
def byteWrite (c : Params) : Instr → Option (Addr × Byte)
  | .chipIdle => some (c.regCommand, chipByte c.cmdIdle)
  | .chipCalcCrc => some (c.regCommand, chipByte c.cmdCalcCrc)
  | .chipTransceive => some (c.regCommand, chipByte c.cmdTransceive)
  | .chipSoftReset => some (c.regCommand, chipByte c.cmdSoftReset)
  | .cardReqa => some (c.regFifoData, c.reqMode)
  | .cardAnticollCl1 => some (c.regFifoData, c.piccAnticoll)
  | .cardNvb => some (c.regFifoData, c.nvbAnticoll)
  | .readReg _ | .writeReg _ _ | .resetReader | .antennaOn | .request _ | .anticoll | .calcCrc _ | .compareUid
  | .unlock | .lock | .pollCycle | .run
  | .reservedOp0 | .reservedOpD | .reservedOpE | .reservedOpF
  | .reservedRsv25 | .reservedRsv26 | .reservedRsv27 | .reservedRsv28 | .reservedRsv29 | .reservedRsv30 | .reservedRsv31
  | .frameRead _ | .frameWrite _ => none

/-- The checks that are an operation's first step (R94, R223). -/
def checkOf : Instr → Check
  | .calcCrc n => .crc n
  | .compareUid => .candidate
  | .unlock => .actuator
  | .lock => .actuator
  | .reservedOp0 | .reservedOpD | .reservedOpE | .reservedOpF
  | .reservedRsv25 | .reservedRsv26 | .reservedRsv27 | .reservedRsv28 | .reservedRsv29 | .reservedRsv30
  | .reservedRsv31 => .reserved
  | .readReg _ | .writeReg _ _ | .resetReader | .antennaOn | .request _ | .anticoll | .pollCycle | .run
  | .frameRead _ | .frameWrite _ | .chipIdle | .chipCalcCrc | .chipTransceive | .chipSoftReset
  | .cardReqa | .cardAnticollCl1 | .cardNvb => .free

/-- The register writes `Transceive` makes before its poll (R153). -/
def prologueTxns (c : Params) (framing : Byte) (payload : List Byte) : List Txn :=
  [.write c.regCommand (chipByte c.cmdIdle)] ++
    (if c.clearIrqBeforeIssue then [.write c.regComIrq c.irqClearValue] else []) ++
    [.write c.regFifoLevel c.fifoFlush, .write c.regBitFraming framing] ++
    payload.map (.write c.regFifoData) ++
    [.write c.regCommand (chipByte c.cmdTransceive)] ++
    (if c.startSendAfterIssue then [.write c.regBitFraming (framing ||| c.startSendBit)] else [])

/-- What the reader answers to one poll that misses `misses.length` times and hits with `hit` (R140). -/
structure PollHits (mask : Byte) (max : Nat) (misses : List (Byte × Byte)) (hit : Byte × Byte) : Prop where
  missed : ∀ m ∈ misses, anyBit m.2 mask = false
  inTime : misses.length < max
  hits : anyBit hit.2 mask = true

/-- What the reader answers to one poll that times out (R140). -/
structure PollTimesOut (mask : Byte) (max : Nat) (misses : List (Byte × Byte)) : Prop where
  missed : ∀ m ∈ misses, anyBit m.2 mask = false
  all : misses.length = max

/-- The last value read in a row of reads, or `v` when nothing is read. -/
def lastValue (v : Byte) : List (Byte × Byte) → Byte
  | [] => v
  | q :: qs => lastValue q.2 qs

/-- What the reader chip answers in one `Transceive` (R153), by the way it ends: for each transaction the byte received
with the frame and the byte received second. -/
inductive Exchange where
  /-- the poll times out -/
  | timeout (pre misses : List (Byte × Byte))
  /-- the poll hits, the error register shows a fault -/
  | chipFault (pre misses : List (Byte × Byte)) (hit err : Byte × Byte)
  /-- the poll hits, no fault, the FIFO is read -/
  | ok (pre misses : List (Byte × Byte)) (hit err : Byte × Byte) (fifo : List (Byte × Byte))
  deriving DecidableEq, Repr

/-- The answers are those of a `Transceive(framing, payload, n)` under parameters `c` (R140, R153). -/
def Exchange.Fits (c : Params) (framing : Byte) (payload : List Byte) (n : Nat) : Exchange → Prop
  | .timeout pre misses =>
    pre.length = (prologueTxns c framing payload).length ∧ PollTimesOut c.comIrqWaitMask c.pollMaxCom misses
  | .chipFault pre misses hit err =>
    pre.length = (prologueTxns c framing payload).length ∧ PollHits c.comIrqWaitMask c.pollMaxCom misses hit ∧
      anyBit err.2 c.errMask = true
  | .ok pre misses hit err fifo =>
    pre.length = (prologueTxns c framing payload).length ∧ PollHits c.comIrqWaitMask c.pollMaxCom misses hit ∧
      anyBit err.2 c.errMask = false ∧ fifo.length = n

/-- The transactions' answers, in order. -/
def Exchange.pairs : Exchange → List (Byte × Byte)
  | .timeout pre misses => pre ++ misses
  | .chipFault pre misses hit err => pre ++ misses ++ [hit, err]
  | .ok pre misses hit err fifo => pre ++ misses ++ [hit, err] ++ fifo

/-- Ok or Fail (R153). -/
def Exchange.ret : Exchange → Ret
  | .timeout _ _ => .timeout
  | .chipFault _ _ _ _ => .chipFault
  | .ok _ _ _ _ _ => .ok

/-- The polls made (R140). -/
def Exchange.polls : Exchange → Nat
  | .timeout _ misses => misses.length
  | .chipFault _ misses _ _ => misses.length + 1
  | .ok _ misses _ _ _ => misses.length + 1

/-- The bytes returned with Ok; else what `out` held before. -/
def Exchange.out (old : List Byte) : Exchange → List Byte
  | .timeout _ _ => old
  | .chipFault _ _ _ _ => old
  | .ok _ _ _ _ fifo => fifo.map (·.2)

/-- The byte of the last read transaction: the error register's with a CHIP_FAULT. -/
def Exchange.value (v : Byte) : Exchange → Byte
  | .timeout _ misses => lastValue v misses
  | .chipFault _ _ _ err => err.2
  | .ok _ _ _ err fifo => lastValue err.2 fifo

/-- The register transactions of a `Transceive` that is answered so (R153). -/
def Exchange.txns (c : Params) (framing : Byte) (payload : List Byte) : Exchange → List Txn
  | .timeout _ misses => prologueTxns c framing payload ++ misses.map (fun m => .read c.regComIrq m.2)
  | .chipFault _ misses hit err =>
    prologueTxns c framing payload ++ misses.map (fun m => .read c.regComIrq m.2) ++
      [.read c.regComIrq hit.2, .read c.regError err.2]
  | .ok _ misses hit err fifo =>
    prologueTxns c framing payload ++ misses.map (fun m => .read c.regComIrq m.2) ++
      [.read c.regComIrq hit.2, .read c.regError err.2] ++ fifo.map (fun m => .read c.regFifoData m.2)

/-- What the reader chip answers in one CALC_CRC (R168): the writes, the polls that miss, the poll that hits unless the poll
times out, and the two result registers. -/
structure CrcAnswers where
  pre : List (Byte × Byte)
  misses : List (Byte × Byte)
  hit : Option (Byte × Byte)
  lo : Byte × Byte
  hi : Byte × Byte
  deriving DecidableEq, Repr

/-- The answers are those of a CALC_CRC over `n` bytes under parameters `c`. -/
def CrcAnswers.Fits (c : Params) (n : Nat) (x : CrcAnswers) : Prop :=
  x.pre.length = n + 3 ∧
    match x.hit with
    | none => PollTimesOut c.divIrqCrcMask c.pollMaxDiv x.misses
    | some h => PollHits c.divIrqCrcMask c.pollMaxDiv x.misses h

/-- The transactions' answers, in order. -/
def CrcAnswers.pairs (x : CrcAnswers) : List (Byte × Byte) := x.pre ++ x.misses ++ x.hit.toList ++ [x.lo, x.hi]

/-- Hit or Timeout. -/
def CrcAnswers.ret (x : CrcAnswers) : Ret := if x.hit.isSome then .ok else .timeout

/-- The polls made. -/
def CrcAnswers.polls (x : CrcAnswers) : Nat := (x.misses ++ x.hit.toList).length

/-- The register transactions of a CALC_CRC over `data` (R168). -/
def CrcAnswers.txns (c : Params) (data : List Byte) (x : CrcAnswers) : List Txn :=
  [.write c.regCommand (chipByte c.cmdIdle), .write c.regFifoLevel c.fifoFlush] ++
    data.map (.write c.regFifoData) ++ [.write c.regCommand (chipByte c.cmdCalcCrc)] ++
    (x.misses ++ x.hit.toList).map (fun m => .read c.regDivIrq m.2) ++
    [.read c.regCrcResultL x.lo.2, .read c.regCrcResultH x.hi.2]

/-- What the reader chip answers in one cycle (R185), by the way it goes. -/
inductive CycleAnswers where
  /-- REQUEST fails -/
  | noTag (r : Exchange)
  /-- REQUEST finds a card, ANTICOLL fails -/
  | noUid (r a : Exchange)
  /-- a UID is read -/
  | uid (r a : Exchange)
  deriving DecidableEq, Repr

/-- The REQUEST of a cycle. -/
def CycleAnswers.request : CycleAnswers → Exchange
  | .noTag r => r
  | .noUid r _ => r
  | .uid r _ => r

/-- The ANTICOLL of a cycle, when one is made. -/
def CycleAnswers.anticoll : CycleAnswers → Option Exchange
  | .noTag _ => none
  | .noUid _ a => some a
  | .uid _ a => some a

/-- An exchange of REQUEST with mode `m` (R155). -/
def Exchange.FitsRequest (c : Params) (m : Byte) (e : Exchange) : Prop := e.Fits c c.bitFramingShort [m] 2

/-- An exchange of ANTICOLL (R162). -/
def Exchange.FitsAnticoll (c : Params) (e : Exchange) : Prop :=
  e.Fits c c.bitFramingFull [c.piccAnticoll, c.nvbAnticoll] c.anticollReadLen

/-- The answers are those of a cycle under parameters `c`. -/
def CycleAnswers.Fits (c : Params) : CycleAnswers → Prop
  | .noTag r => r.FitsRequest c c.reqMode ∧ r.ret ≠ .ok
  | .noUid r a => r.FitsRequest c c.reqMode ∧ r.ret = .ok ∧ a.FitsAnticoll c ∧ a.ret ≠ .ok
  | .uid r a => r.FitsRequest c c.reqMode ∧ r.ret = .ok ∧ a.FitsAnticoll c ∧ a.ret = .ok

/-- The transactions' answers, in order. -/
def CycleAnswers.pairs : CycleAnswers → List (Byte × Byte)
  | .noTag r => r.pairs
  | .noUid r a => r.pairs ++ a.pairs
  | .uid r a => r.pairs ++ a.pairs

/-- The UID read: the first `UID_LEN` bytes of the ANTICOLL (R163). -/
def Exchange.uidOf (c : Params) (e : Exchange) : List Byte := (e.out []).take c.uidLen

/-- The cycle grants access (R185). -/
def CycleAnswers.granted (c : Params) : CycleAnswers → Bool
  | .noTag _ => false
  | .noUid _ _ => false
  | .uid _ a => uidMatches c.uidLen (a.uidOf c) c.whitelist

/-- The outcome code of the cycle (R188). -/
def CycleAnswers.outcome (c : Params) (x : CycleAnswers) : Byte :=
  match x with
  | .noTag _ => 0x00#8
  | .noUid _ _ => 0x01#8
  | .uid _ _ => if x.granted c then 0x02#8 else 0x03#8

/-- The diagnostics of the cycle, in order (R185, R187). -/
def CycleAnswers.diags (c : Params) (x : CycleAnswers) : List Diag :=
  match x with
  | .noTag _ => []
  | .noUid _ _ => [.cardDetected]
  | .uid _ a => [.cardDetected, .uid (a.uidOf c), if x.granted c then .granted else .denied]

/-- The output changes of the cycle, in order (R189). -/
def CycleAnswers.outs (c : Params) (x : CycleAnswers) : List (Bool × Bool) :=
  if x.granted c then [(false, true), (true, false)] else []

/-- The register transactions of the cycle, in order. -/
def CycleAnswers.txns (c : Params) (x : CycleAnswers) : List Txn :=
  x.request.txns c c.bitFramingShort [c.reqMode] ++
    match x.anticoll with
    | none => []
    | some a => a.txns c c.bitFramingFull [c.piccAnticoll, c.nvbAnticoll]

/-- `RESP` after the cycle, from what it held (R185, R39). -/
def CycleAnswers.resp (old : Vector (Option Byte) 5) : CycleAnswers → Vector (Option Byte) 5
  | .noTag _ => old
  | .noUid r _ => overlay5 (r.out []) old
  | .uid r a => overlay5 (a.out []) (overlay5 (r.out []) old)

/-- `RESP_LEN` after the cycle. -/
def CycleAnswers.respLen (c : Params) : CycleAnswers → BitVec 3
  | .noTag _ => 0#3
  | .noUid _ _ => 0#3
  | .uid _ _ => BitVec.ofNat 3 c.anticollReadLen

/-- `tagType` after the cycle (R30, R155). -/
def CycleAnswers.tagType : CycleAnswers → Vector (Option Byte) 2
  | .noTag _ => noBytes2
  | .noUid r _ => overlay2 (r.out []) noBytes2
  | .uid r _ => overlay2 (r.out []) noBytes2

/-- `uidBuf` after the cycle (R30, R162). -/
def CycleAnswers.uidBuf : CycleAnswers → Vector (Option Byte) 5
  | .noTag _ => noBytes5
  | .noUid _ _ => noBytes5
  | .uid _ a => overlay5 (a.out []) noBytes5

/-- The polls of the cycle's last poll (R31). -/
def CycleAnswers.polls (x : CycleAnswers) : Nat :=
  match x.anticoll with
  | none => x.request.polls
  | some a => a.polls

/-- How the cycle's last transceive ended. -/
def CycleAnswers.ret (x : CycleAnswers) : Ret :=
  match x.anticoll with
  | none => x.request.ret
  | some a => a.ret

/-- `k` delays of `ms` milliseconds; none at all for 0 ms (R236). -/
def delayList (k ms : Nat) : List Nat := if ms = 0 then [] else List.replicate k ms

/-- The delays of a cycle, in order (R185, R237). -/
def CycleAnswers.delays (c : Params) (x : CycleAnswers) : List Nat :=
  delayList (x.request.polls - 1) c.pollIntervalMs ++
    (match x.anticoll with
    | none => []
    | some a => delayList (a.polls - 1) c.pollIntervalMs) ++
    (if x.granted c then delayList 1 c.dwellMs else []) ++ delayList 1 c.interPollMs

/-! ## The events of an operation, one by one -/

/-- The events of register writes, one after the other, with the bytes received. -/
def writeAllEvents : List (Addr × Byte) → List (Byte × Byte) → List Event
  | w :: ws, p :: ps => writeEvents w.1 w.2 p.1 p.2 ++ writeAllEvents ws ps
  | _, _ => []

/-- The events of reads of one register, one after the other. -/
def readsEvents (c : Params) (a : Addr) : List (Byte × Byte) → List Event
  | [] => []
  | q :: qs => readEvents c a q.1 q.2 ++ readsEvents c a qs

/-- The events of the polls that miss, each followed by the interval's delay. -/
def pollMissEvents (c : Params) (reg : Addr) (ivl : Nat) : List (Byte × Byte) → List Event
  | [] => []
  | m :: ms => readEvents c reg m.1 m.2 ++ delayEvents ivl ++ pollMissEvents c reg ivl ms

/-- The events of a poll that times out: no delay follows the last read. -/
def pollTimeoutEvents (c : Params) (reg : Addr) (ivl : Nat) : List (Byte × Byte) → List Event
  | [] => []
  | [m] => readEvents c reg m.1 m.2
  | m :: m' :: ms => readEvents c reg m.1 m.2 ++ delayEvents ivl ++ pollTimeoutEvents c reg ivl (m' :: ms)

/-- The register writes of the prologue, in order. -/
def prologueWrites (c : Params) (framing : Byte) (payload : List Byte) : List (Addr × Byte) :=
  [(c.regCommand, chipByte c.cmdIdle)] ++
    (if c.clearIrqBeforeIssue then [(c.regComIrq, c.irqClearValue)] else []) ++
    [(c.regFifoLevel, c.fifoFlush), (c.regBitFraming, framing)] ++
    payload.map (fun b => (c.regFifoData, b)) ++
    [(c.regCommand, chipByte c.cmdTransceive)] ++
    (if c.startSendAfterIssue then [(c.regBitFraming, framing ||| c.startSendBit)] else [])

/-- The events of a transceive whose poll hits, up to the error register's read (R153). -/
def hitEvents (c : Params) (framing : Byte) (payload : List Byte) (pre ms : List (Byte × Byte)) (hit err : Byte × Byte) :
    List Event :=
  writeAllEvents (prologueWrites c framing payload) pre ++ pollMissEvents c c.regComIrq c.pollIntervalMs ms ++
    readEvents c c.regComIrq hit.1 hit.2 ++ readEvents c c.regError err.1 err.2

/-- The events of a transceive whose poll times out (R153). -/
def missEvents (c : Params) (framing : Byte) (payload : List Byte) (pre ms : List (Byte × Byte)) : List Event :=
  writeAllEvents (prologueWrites c framing payload) pre ++ pollTimeoutEvents c c.regComIrq c.pollIntervalMs ms

/-- The events of an exchange. -/
def Exchange.events (c : Params) (framing : Byte) (payload : List Byte) : Exchange → List Event
  | .timeout pre misses => missEvents c framing payload pre misses
  | .chipFault pre misses hit err => hitEvents c framing payload pre misses hit err
  | .ok pre misses hit err fifo => hitEvents c framing payload pre misses hit err ++ readsEvents c c.regFifoData fifo

/-- `tagType` after REQUEST (R155). -/
def Exchange.tag : Exchange → Vector (Option Byte) 2
  | .timeout _ _ => noBytes2
  | .chipFault _ _ _ _ => noBytes2
  | .ok _ _ _ _ fifo => overlay2 (fifo.map (·.2)) noBytes2

/-- `uidBuf` after ANTICOLL (R162). -/
def Exchange.uid : Exchange → Vector (Option Byte) 5
  | .timeout _ _ => noBytes5
  | .chipFault _ _ _ _ => noBytes5
  | .ok _ _ _ _ fifo => overlay5 (fifo.map (·.2)) noBytes5

/-- The register writes of CALC_CRC before its poll. -/
def crcWrites (c : Params) (data : List Byte) : List (Addr × Byte) :=
  [(c.regCommand, chipByte c.cmdIdle), (c.regFifoLevel, c.fifoFlush)] ++ data.map (fun b => (c.regFifoData, b)) ++
    [(c.regCommand, chipByte c.cmdCalcCrc)]

/-- The events of the polls of a CALC_CRC. -/
def CrcAnswers.pollEvents (c : Params) (x : CrcAnswers) : List Event :=
  match x.hit with
  | none => pollTimeoutEvents c c.regDivIrq c.crcPollIntervalMs x.misses
  | some h => pollMissEvents c c.regDivIrq c.crcPollIntervalMs x.misses ++ readEvents c c.regDivIrq h.1 h.2

/-- The events of a CALC_CRC. -/
def CrcAnswers.events (c : Params) (data : List Byte) (x : CrcAnswers) : List Event :=
  writeAllEvents (crcWrites c data) x.pre ++ x.pollEvents c ++ readEvents c c.regCrcResultL x.lo.1 x.lo.2 ++
    readEvents c c.regCrcResultH x.hi.1 x.hi.2

/-- The events of a granted decision, after the UID's (R185). -/
def grantedEvents (c : Params) : List Event :=
  [.diag .granted, .outputs false true] ++ delayEvents c.dwellMs ++ [.outputs true false]

/-- The events of a cycle (R185): REQUEST; when a card answers, the detection and ANTICOLL; when a UID is read, the UID and
the decision; and the inter-poll delay. -/
def CycleAnswers.events (c : Params) (x : CycleAnswers) : List Event :=
  x.request.events c c.bitFramingShort [c.reqMode] ++
    (match x with
    | .noTag _ => []
    | .noUid _ a => .diag .cardDetected :: a.events c c.bitFramingFull [c.piccAnticoll, c.nvbAnticoll]
    | .uid _ a =>
      .diag .cardDetected :: a.events c c.bitFramingFull [c.piccAnticoll, c.nvbAnticoll] ++
        .diag (.uid (a.uidOf c)) :: (if x.granted c then grantedEvents c else [.diag .denied])) ++
    delayEvents c.interPollMs

/-- `s` with its operation finished (R222): events `ev` since, then `OpDone`; `d` bytes received from the reader, `rest` still
prepared. -/
def State.ended (s : State) (st : Status) (ev : List Event) (rest : List Byte) (d : Nat) : State :=
  { s with
    status := st
    op := none
    running := false
    busy := false
    trace := s.trace ++ ev ++ [.opDone st]
    answers := rest
    draws := s.draws + d }

/-! ## Invariants -/

/-- The phase of the bus a code's step needs, as transfers done in the open transaction (none: no transaction open). -/
def microPhase (m : Micro) (ph : Option Nat) : Option (Option Nat) :=
  match m, ph with
  | .select, none => some (some 0)
  | .xferDrop _, some 0 => some (some 1)
  | .xferDrop _, some 1 => some (some 2)
  | .xferKeep _, some 0 => some (some 1)
  | .xferKeep _, some 1 => some (some 2)
  | .deselect, some 2 => some none
  | .select, _ => none
  | .xferDrop _, _ => none
  | .xferKeep _, _ => none
  | .deselect, _ => none
  | _, none => some none
  | _, some _ => none

/-- The bus phase in which step `k` of a code stands, read straight through the code. -/
def phaseAt : Code → Nat → Option Nat → Option (Option Nat)
  | _, 0, ph => some ph
  | [], _ + 1, _ => none
  | m :: p, k + 1, ph =>
    match microPhase m ph with
    | some ph' => phaseAt p k ph'
    | none => none

/-- The bus phase the state says. -/
def statePhase (s : State) : Option Nat := if s.cs then some s.xfers else none

/-- A wait for the bus fits the step the pointer stands at. -/
def holdFits (p : Code) (s : State) : Bool :=
  match s.hold, p[s.seq]? with
  | .bus _ keep, some (.xferDrop _) => !keep
  | .bus _ keep, some (.xferKeep _) => keep
  | .bus _ _, _ => false
  | .free, _ => true
  | .timer, _ => true

/-- Bus and sequencer agree (R26, R41(c), R122, R123): the trace has the shape of R122 with `cs` and `xfers` where it says,
an operation runs exactly while `BUSY` is 1, and the step pointer stands where the code needs the bus as it is. -/
structure BusInv (s : State) : Prop where
  shape : busShape s.trace = stateShape s
  closed : s.cs = false → s.xfers = 0
  busy : s.busy = s.op.isSome
  idle : s.op = none → s.cs = false ∧ s.hold = .free
  fits : ∀ i, s.op = some i → phaseAt (program s.cfg i) s.seq none = some (statePhase s)
  held : ∀ i, s.op = some i → holdFits (program s.cfg i) s = true
  seqUsed : ∀ i, s.op = some i → s.seq < (program s.cfg i).length

/-- Lock and outputs agree (R41(a), R41(b)). -/
structure LockInv (s : State) : Prop where
  resets : s.cfg.resetUnlockOut = false
  exclusive : ¬(s.lockOut = true ∧ s.unlockOut = true)
  agrees : s.lockState = .unlocked ↔ s.unlockOut = true

/-- UNLOCK and LOCK get past their first step only where the host may drive the actuator (R214, R226). The step pointer is
numbered as entry 7 says. -/
structure ActuatorInv (s : State) : Prop where
  free : s.op = some .unlock ∨ s.op = some .lock → s.hold = .free
  allowed : s.op = some .unlock ∨ s.op = some .lock → s.seq ≠ 0 → s.cfg.hostActuatorOps = true

/-- The port and the sequencer (R22, R25, R41(c)): `DATA_IN` keeps its canonical form, `BUSY` is 1 exactly while an operation
runs, `running` is 1 only while RUN does. -/
structure PortInv (s : State) : Prop where
  dataIn : s.dataIn.wf = true
  busy : s.busy = s.op.isSome
  running : s.running = true → s.op = some .run

end Sys2Proof.Machine
end

