-- ==== Sys2Proof/Certificates/Slice0/Obligations.lean ====
section
/-! DEFINITION. The statements for the provers, in five groups: encodings, the step and the port, what each operation does,
what it leaves alone, what every step keeps. The answers of the reader chip are data of the state (`answers`): a statement
that names them holds for every list of them. -/

open Sys2Proof Sys2Proof.Machine

/-! ## Encodings -/

/-- Words written out from the spec's encodings decode to the instructions they stand for (R96, R90 to R93; R100; R103;
R105). -/
def Obligations.SpecWordsDecode : Prop :=
  decodeCommand 0x00000371#32 = .readReg 0x37#6 ∧
  decodeCommand 0x00020D42#32 = .writeReg 0x14#6 0x83#8 ∧
  decodeCommand 0x00009805#32 = .request 0x26#8 ∧
  decodeCommand 0x00080007#32 = .calcCrc 2 ∧
  decodeCommand 0x01FFFFF3#32 = .resetReader ∧
  decodeCommand 0x0000000C#32 = .run ∧
  decodeCommand 0x00000000#32 = .reservedOp0 ∧
  decodeCommand 0x02000001#32 = .reservedRsv25 ∧
  decodeFrame 0x88#8 = .ok (.frameRead 0x04#6) ∧
  decodeFrame 0x7E#8 = .ok (.frameWrite 0x3F#6) ∧
  decodeFrame 0x01#8 = .error .oddFrame ∧
  decodeChipCommand Params.default 0x0C#8 = .ok .chipTransceive ∧
  decodeCardByte Params.default 0x93#8 = .ok .cardAnticollCl1

/-- Decoding undoes encoding. Command words and frames do not depend on the parameters; a chip command code or a card byte
is told from the others of its kind when the parameters give them different values, which R9 does not ask for. -/
def Obligations.DecodingUndoesEncoding : Prop :=
  (∀ (c : Params) (i : Instr), i.wellFormed = true → (encodeFormat i = .command ∨ encodeFormat i = .busFrame) →
    decode c (encodeFormat i) (encode c i) = .ok i) ∧
  (∀ (c : Params) (i : Instr), i.wellFormed = true →
    [c.cmdIdle, c.cmdCalcCrc, c.cmdTransceive, c.cmdSoftReset].Nodup →
    [c.reqMode, c.piccAnticoll, c.nvbAnticoll].Nodup →
    decode c (encodeFormat i) (encode c i) = .ok i)

/-- The fields of a command word are its bit ranges, zero-extended (R90, R91). -/
def Obligations.CommandFieldsAreBitRanges : Prop :=
  ∀ w : Word,
    (opField w).toNat = w.toNat % 16 ∧
    (addrField w).toNat = w.toNat / 2 ^ 4 % 64 ∧
    (wdataField w).toNat = w.toNat / 2 ^ 10 % 256 ∧
    lenField w = w.toNat / 2 ^ 18 % 128 ∧
    (rsvField w).toNat = w.toNat / 2 ^ 25

/-- The table of operation codes, for a word whose RSV is 0 (R92). -/
def Obligations.OperationCodesDecode : Prop :=
  ∀ w : Word, rsvField w = 0#7 →
    (opField w = 0x1#4 → decodeCommand w = .readReg (addrField w)) ∧
    (opField w = 0x2#4 → decodeCommand w = .writeReg (addrField w) (wdataField w)) ∧
    (opField w = 0x3#4 → decodeCommand w = .resetReader) ∧
    (opField w = 0x4#4 → decodeCommand w = .antennaOn) ∧
    (opField w = 0x5#4 → decodeCommand w = .request (wdataField w)) ∧
    (opField w = 0x6#4 → decodeCommand w = .anticoll) ∧
    (opField w = 0x7#4 → decodeCommand w = .calcCrc (lenField w)) ∧
    (opField w = 0x8#4 → decodeCommand w = .compareUid) ∧
    (opField w = 0x9#4 → decodeCommand w = .unlock) ∧
    (opField w = 0xA#4 → decodeCommand w = .lock) ∧
    (opField w = 0xB#4 → decodeCommand w = .pollCycle) ∧
    (opField w = 0xC#4 → decodeCommand w = .run)

/-- A word is rejected exactly if RSV ≠ 0 or OP is 0x0, 0xD, 0xE or 0xF; every other word is one of the twelve operations,
with operands the encoding admits (R93, R94). -/
def Obligations.ReservedWordsExactly : Prop :=
  ∀ w : Word,
    ((decodeCommand w).isReserved = true ↔
      rsvField w ≠ 0#7 ∨ opField w = 0x0#4 ∨ opField w = 0xD#4 ∨ opField w = 0xE#4 ∨ opField w = 0xF#4) ∧
    (decodeCommand w).isOperation = !(decodeCommand w).isReserved ∧
    (decodeCommand w).wellFormed = true

/-- Encoding the decoded operation again gives the canonical word: the word with every ignored field set to 0 (R96). So
decode-then-encode is the identity exactly on canonical words. -/
def Obligations.ReencodingGivesTheCanonicalWord : Prop :=
  ∀ (c : Params) (w : Word), (decodeCommand w).isOperation = true →
    encode c (decodeCommand w) = w &&& usedBits (opField w) ∧
    decodeCommand (w &&& usedBits (opField w)) = decodeCommand w ∧
    (encode c (decodeCommand w) = w ↔ w &&& usedBits (opField w) = w)

/-- A field that an operation does not use is ignored (R91): words that agree in the used bits are the same operation. -/
def Obligations.IgnoredFieldsAreIgnored : Prop :=
  ∀ w w' : Word, (decodeCommand w).isOperation = true → rsvField w' = 0#7 →
    w' &&& usedBits (opField w) = w &&& usedBits (opField w) → decodeCommand w' = decodeCommand w

/-- The frame byte (R100, R101): flag in bit 7, address in bits 6:1, bit 0 always 0; and back. -/
def Obligations.FrameBytes : Prop :=
  (∀ (a : Addr) (rd : Bool), (frame a rd).getLsbD 0 = false ∧ (frame a rd).getLsbD 7 = rd ∧
    (frame a rd).toNat = 2 * a.toNat + (if rd then 128 else 0)) ∧
  (∀ a : Addr, decodeFrame (frame a true) = .ok (.frameRead a) ∧ decodeFrame (frame a false) = .ok (.frameWrite a)) ∧
  (∀ b : Byte, b.getLsbD 0 = false → ∃ a rd, frame a rd = b) ∧
  (∀ b : Byte, b.getLsbD 0 = true → decodeFrame b = .error .oddFrame)

/-! ## The step and the port -/

/-- What a step is. With nothing from outside it runs the operation in progress; otherwise the next stimulus is delivered,
the sequencer's next atomic step among them. A configuration that breaks R9 is refused as a whole (R228). What
is the model's choice: that one step runs an operation undisturbed (log entry 4); how a table word is placed, since the block
has no fetch (R69, R253; log entries 11, 12, 18, 33); the row that a rejected word leaves in `op` (log entry 27). -/
def Obligations.StepRunsTheDecodedCommand : Prop :=
  (∀ (s : State) (i : Instr), s.cfg.ok = true → s.env = [] → s.op = some i → step s = exec i s) ∧
  (∀ s : State, s.cfg.ok = true → s.env = [] → s.op = none → step s = .next s) ∧
  (∀ (s : State) (i : Instr) (rest : List Stimulus), s.cfg.ok = true → s.env = .go :: rest → s.op = some i →
    s.hold = .free → step s = atom (program s.cfg i) { s with env := rest }) ∧
  (∀ (s : State) (w : Word) (rest : List Stimulus), s.cfg.ok = true → s.env = .hostWriteCmd w :: rest → s.busy = false →
    step s = .next (accept w { s with env := rest })) ∧
  (∀ (s : State) (w : Word), s.cs = false → s.xfers = 0 → Ready (decodeCommand w) (accept w s)) ∧
  (∀ (s : State) (nbits w : Nat) (i : Instr), s.cfg.ok = true → decodeTableWord nbits w = some i →
    step (s.withFetchWord nbits w) = exec i (s.withFetchWord nbits w)) ∧
  (∀ s : State, s.cfg.ok = false → step s = .refused .badConfiguration)

/-- Acceptance and overrun (R223). A `CMD` write while idle sets exactly the fields listed, `op` to the rejected row for a word
that encodes no operation (the model's choice, log entry 27); the checks are the operation's first step. A `CMD` or
`DATA_IN` write while busy is discarded, sets `OVERRUN` and is recorded; `OVERRUN` stays until block reset. -/
def Obligations.AcceptanceAndOverrun : Prop :=
  (∀ (s : State) (w : Word) (rest : List Stimulus), s.cfg.ok = true → s.env = .hostWriteCmd w :: rest → s.busy = false →
    step s = .next { s with
      env := rest, cmd := w, busy := true, rdata := none, resp := noBytes5, respLen := 0#3, seq := 0
      op := some (decodeCommand w), hold := .free, trace := s.trace ++ [.opStart w] }) ∧
  (∀ (c : Params) (w : Word), (program c (decodeCommand w))[0]? = some (.checks (checkOf (decodeCommand w)))) ∧
  (∀ (s : State) (e : Stimulus) (rest : List Stimulus), s.cfg.ok = true → s.env = e :: rest → s.busy = true →
    ((∃ w, e = .hostWriteCmd w) ∨ (∃ i b, e = .hostWriteData i b)) →
    step s = .next { s with env := rest, overrun := true, trace := s.trace ++ [.overrun] }) ∧
  (∀ s t : State, s.overrun = true → step s = .next t → s.env.head? ≠ some .blockReset → t.overrun = true)

/-- A host read of a result register while busy faults; a read of `STAT` is always allowed (R40). -/
def Obligations.ResultReadsFaultWhileBusy : Prop :=
  (∀ (s : State) (r : PortReg) (rest : List Stimulus), s.cfg.ok = true → s.env = .hostRead r :: rest → s.busy = true →
    (r = .rdata ∨ r = .respLen ∨ r = .polls ∨ ∃ i, r = .resp i) → step s = .fault .unwrittenRead) ∧
  (∀ (s : State) (rest : List Stimulus), s.cfg.ok = true → s.env = .hostRead .stat :: rest →
    step s = .next { s with env := rest, hostData := some ((statByte s).setWidth 16) })

/-- What a host read returns when it may be made: the fields of `STAT` (R23), the result registers while idle, and a fault
where a byte holds no value (R38); a read changes nothing of the block. `DATA_IN[i]` may be read while busy, too (R22; R40 does
not list it). -/
def Obligations.HostReadsReturnTheRegisters : Prop :=
  (∀ s : State,
    (statByte s).getLsbD 0 = s.busy ∧ (statByte s).extractLsb' 1 3 = statusCode s.status ∧
    (statByte s).getLsbD 4 = s.overrun ∧ (statByte s).extractLsb' 5 3 = 0#3) ∧
  (∀ (s : State) (r : PortReg) (rest : List Stimulus), s.cfg.ok = true → s.env = .hostRead r :: rest → s.busy = false →
    match r with
    | .stat => step s = .next { s with env := rest, hostData := some ((statByte s).setWidth 16) }
    | .rdata =>
      match s.rdata with
      | some b => step s = .next { s with env := rest, hostData := some (b.setWidth 16) }
      | none => step s = .fault .unwrittenRead
    | .respLen => step s = .next { s with env := rest, hostData := some (s.respLen.setWidth 16) }
    | .polls => step s = .next { s with env := rest, hostData := some s.polls }
    | .resp i =>
      match s.resp[i] with
      | some b =>
        if i.val < s.respLen.toNat then step s = .next { s with env := rest, hostData := some (b.setWidth 16) }
        else step s = .fault .unwrittenRead
      | none => step s = .fault .unwrittenRead
    | .dataIn i =>
      match readCell s.dataIn i with
      | some b => step s = .next { s with env := rest, hostData := some (b.setWidth 16) }
      | none => step s = .fault .unwrittenRead) ∧
  (∀ (s : State) (i : Fin 128) (rest : List Stimulus), s.cfg.ok = true → s.env = .hostRead (.dataIn i) :: rest →
    (∀ b, readCell s.dataIn i = some b → step s = .next { s with env := rest, hostData := some (b.setWidth 16) }) ∧
    (readCell s.dataIn i = none → step s = .fault .unwrittenRead))

/-- `DATA_IN` (R22): a byte the host writes while idle reads back, every other byte reads as before, nothing else changes;
writes to the output registers are ignored (R23). -/
def Obligations.HostWritesDataIn : Prop :=
  (∀ (s : State) (i : Fin 128) (b : Byte) (rest : List Stimulus), s.cfg.ok = true →
    s.env = .hostWriteData i b :: rest → s.busy = false →
    ∃ m, step s = .next { s with env := rest, dataIn := m } ∧ readCell m i = some b ∧
      (∀ j, j ≠ i.val → readCell m j = readCell s.dataIn j) ∧ (s.dataIn.wf = true → m.wf = true)) ∧
  (∀ (s : State) (i : Fin 9) (w : Word) (rest : List Stimulus), s.cfg.ok = true →
    s.env = .hostWriteOutput i w :: rest → step s = .next { s with env := rest })

/-- Holds (R120, R236). While the sequencer waits for the bus, only the bus agent's completion lifts the wait: the byte comes
in, the transfer is recorded and counted; where no answer is prepared, some byte does (R60). While it waits in a
delay, only the timer's completion does. The sequencer itself does not move meanwhile. -/
def Obligations.HoldsAreLiftedByTheirAgentsOnly : Prop :=
  (∀ (s : State) (b : Byte) (keep : Bool) (y : Byte) (rest : List Byte) (env : List Stimulus), s.cfg.ok = true →
    s.hold = .bus b keep → s.env = .busDone :: env → s.answers = y :: rest →
    step s = .next { s with
      env := env, hold := .free, xfers := s.xfers + 1, v := if keep then y else s.v, trace := s.trace ++ [.xfer b y]
      answers := rest, draws := s.draws + 1, seq := s.seq + 1 }) ∧
  (∀ (s : State) (b : Byte) (keep : Bool) (env : List Stimulus), s.cfg.ok = true →
    s.hold = .bus b keep → s.env = .busDone :: env → s.answers = [] →
    ∃ y, step s = .next { s with
      env := env, hold := .free, xfers := s.xfers + 1, v := if keep then y else s.v, trace := s.trace ++ [.xfer b y]
      answers := [], draws := s.draws + 1, seq := s.seq + 1 }) ∧
  (∀ (s : State) (env : List Stimulus), s.cfg.ok = true → s.hold = .timer → s.env = .timerDone :: env →
    step s = .next { s with env := env, hold := .free }) ∧
  (∀ (s t : State) (e : Stimulus) (env : List Stimulus), s.cfg.ok = true → s.hold ≠ .free → s.env = e :: env →
    (e = .go ∨ (e = .busDone ∧ s.hold = .timer) ∨ (e = .timerDone ∧ s.hold ≠ .timer) ∨ (∃ r, e = .hostRead r) ∨
      (∃ i b, e = .hostWriteData i b) ∨ (s.busy = true ∧ ∃ w, e = .hostWriteCmd w)) →
    step s = .next t → t.hold = s.hold ∧ t.seq = s.seq)

/-- Block reset, from every state, in one step (R250, R251): the value of the table for every piece of state (R37). What is
outside the block stays. -/
def Obligations.BlockResetSetsEveryRegister : Prop :=
  ∀ (s : State) (rest : List Stimulus), s.cfg.ok = true → s.env = .blockReset :: rest →
    ∃ t, step s = .next t ∧
      t.cmd = 0x00000000#32 ∧ (∀ i : Fin 128, readCell t.dataIn i = none) ∧ t.busy = false ∧ t.status = .ok ∧
      statusCode t.status = 0#3 ∧ t.overrun = false ∧ t.rdata = none ∧ (∀ i : Fin 5, t.resp[i] = none) ∧
      t.respLen = 0#3 ∧ t.polls = 0#16 ∧ t.op = none ∧ t.seq = 0 ∧ t.running = false ∧ t.cs = false ∧ t.xfers = 0 ∧
      t.lockState = .locked ∧ t.ctrlState = .idle ∧ t.lockOut = s.cfg.resetLockOut ∧ t.unlockOut = s.cfg.resetUnlockOut ∧
      (∀ i : Fin 2, t.tagType[i] = none) ∧ (∀ i : Fin 5, t.uidBuf[i] = none) ∧ t.pollCount = 0#16 ∧ t.trace = [] ∧
      t.hold = .free ∧ t.cfg = s.cfg ∧ t.env = rest ∧ t.answers = s.answers ∧ t.draws = s.draws ∧ t.hostData = s.hostData ∧
      Params.default.resetLockOut = true ∧ Params.default.resetUnlockOut = false

/-- What reset leaves, with the default parameters (R37, R8). -/
def Obligations.ResetValues : Prop :=
  State.reset.cmd = 0x00000000#32 ∧ State.reset.dataIn = [] ∧ State.reset.busy = false ∧ State.reset.status = .ok ∧
  State.reset.overrun = false ∧ State.reset.rdata = none ∧ State.reset.respLen = 0#3 ∧ State.reset.polls = 0#16 ∧
  State.reset.op = none ∧ State.reset.cs = false ∧ State.reset.lockState = .locked ∧ State.reset.ctrlState = .idle ∧
  State.reset.lockOut = true ∧ State.reset.unlockOut = false ∧ State.reset.trace = [] ∧
  State.reset.cfg = Params.default ∧ State.reset.cfg.ok = true

/-- The invariants hold at reset: all but the lock's under all parameters, the lock's under those whose `RESET_OUTPUTS` does
not assert the unlock output (log entry 15). -/
def Obligations.InvariantsHoldAtReset : Prop :=
  (∀ c : Params, BusInv (State.initial c) ∧ PortInv (State.initial c) ∧ ActuatorInv (State.initial c)) ∧
  (∀ c : Params, c.resetUnlockOut = false → LockInv (State.initial c)) ∧
  BusInv State.reset ∧ PortInv State.reset ∧ ActuatorInv State.reset ∧ LockInv State.reset

/-! ## What each operation does, run undisturbed by `exec` (log entry 4) -/

/-- READ_REG (R124, R125): one read transaction; `RDATA` is the second byte received, the first is dropped. -/
def Obligations.ReadRegReturnsTheSecondByte : Prop :=
  ∀ (s : State) (a : Addr) (x v : Byte) (rest : List Byte), Ready (.readReg a) s → s.answers = x :: v :: rest →
    ∃ k, exec (.readReg a) s = .next { s.ended .ok (readEvents s.cfg a x v) rest 2 with
      seq := k, v := v, rdata := some v, respLen := 0#3 }

/-- WRITE_REG (R126): one write transaction; both bytes received are dropped; `RDATA` is not written. -/
def Obligations.WriteRegSendsTheByte : Prop :=
  ∀ (s : State) (a : Addr) (b x y : Byte) (rest : List Byte), Ready (.writeReg a b) s → s.answers = x :: y :: rest →
    ∃ k, exec (.writeReg a b) s = .next { s.ended .ok (writeEvents a b x y) rest 2 with seq := k, respLen := 0#3 }

/-- RESET_READER (R144, R145): the soft-reset code, the settle delay, nothing read. -/
def Obligations.ResetReaderWritesAndSettles : Prop :=
  ∀ (s : State) (x y : Byte) (rest : List Byte), Ready .resetReader s → s.answers = x :: y :: rest →
    ∃ k, exec .resetReader s = .next
      { s.ended .ok (writeEvents s.cfg.regCommand (chipByte s.cfg.cmdSoftReset) x y ++ delayEvents s.cfg.resetSettleMs) rest 2 with
        seq := k, respLen := 0#3 }

/-- ANTENNA_ON (R150): one read of TX-control; when no antenna bit is set, the value with all of them set is written back;
when one is set, nothing is written. -/
def Obligations.AntennaOnWritesOnlyWhenBothBitsAreOff : Prop :=
  (∀ (s : State) (x v y z : Byte) (rest : List Byte), Ready .antennaOn s → v &&& s.cfg.antennaMask = 0#8 →
    s.answers = x :: v :: y :: z :: rest →
    ∃ k, exec .antennaOn s = .next
      { s.ended .ok (readEvents s.cfg s.cfg.regTxControl x v ++
          writeEvents s.cfg.regTxControl (v ||| s.cfg.antennaMask) y z) rest 4 with
        seq := k, v := v, respLen := 0#3 }) ∧
  (∀ (s : State) (x v : Byte) (rest : List Byte), Ready .antennaOn s → v &&& s.cfg.antennaMask ≠ 0#8 →
    s.answers = x :: v :: rest →
    ∃ k, exec .antennaOn s = .next
      { s.ended .ok (readEvents s.cfg s.cfg.regTxControl x v) rest 2 with seq := k, v := v, respLen := 0#3 })

/-- ANTENNA_ON is idempotent under `Readback` (R151, R67): after one that wrote TX-control, with no other transaction to it
and no reset of the reader in between, the next one reads both antenna bits set and writes nothing. That a soft reset counts as
the reset of R67 is the model's choice (log entry 32). -/
def Obligations.AntennaOnIsIdempotentUnderReadback : Prop :=
  ∀ (s : State) (before between : List Txn) (v₀ x v : Byte) (rest : List Byte), Ready .antennaOn s →
    s.cfg.ok = true → s.cfg.antennaMask ≠ 0#8 → s.cfg.regTxControl ∈ s.cfg.sefRegs → busShape s.trace = .idle →
    txns (ownEvents s.trace) = before ++ [.write s.cfg.regTxControl (v₀ ||| s.cfg.antennaMask)] ++ between →
    (∀ t ∈ between, t.addr ≠ s.cfg.regTxControl ∧ t.resetsReader s.cfg = false) → s.answers = x :: v :: rest →
    Readback s.cfg (s.trace ++ readEvents s.cfg s.cfg.regTxControl x v) →
    v &&& s.cfg.antennaMask = s.cfg.antennaMask ∧
    ∃ k, exec .antennaOn s = .next
      { s.ended .ok (readEvents s.cfg s.cfg.regTxControl x v) rest 2 with seq := k, v := v, respLen := 0#3 }

/-- REQUEST that succeeds (R153, R155): prologue, polls, error register, two FIFO bytes, which are the tag type and
`RESP[0..1]`; `uidBuf` is emptied, too (R30, log entry 9). -/
def Obligations.RequestReturnsTheTagType : Prop :=
  ∀ (s : State) (m : Byte) (pre misses : List (Byte × Byte)) (hit err t₀ t₁ : Byte × Byte) (rest : List Byte),
    Ready (.request m) s → s.cfg.ok = true →
    (Exchange.ok pre misses hit err [t₀, t₁]).FitsRequest s.cfg m →
    s.answers = flatPairs (pre ++ misses ++ [hit, err, t₀, t₁]) ++ rest →
    ∃ k, exec (.request m) s = .next
      { s.ended .ok (hitEvents s.cfg s.cfg.bitFramingShort [m] pre misses hit err ++
          readsEvents s.cfg s.cfg.regFifoData [t₀, t₁]) rest (2 * (pre.length + misses.length + 4)) with
        seq := k, v := t₁.2, out := [t₀.2, t₁.2], ret := .ok
        resp := #v[some t₀.2, some t₁.2, s.resp[2], s.resp[3], s.resp[4]], respLen := 2#3
        polls := BitVec.ofNat 16 (misses.length + 1), pollCount := BitVec.ofNat 16 (misses.length + 1)
        tagType := #v[some t₀.2, some t₁.2], uidBuf := noBytes5 }

/-- REQUEST that fails (R153, R154, R155). On a timeout neither error register nor FIFO is read; on a chip fault the FIFO is
not read and `RDATA` is the error register's byte. Both buffers hold no value (R30 as log entry 9 reads it). -/
def Obligations.RequestFails : Prop :=
  (∀ (s : State) (m : Byte) (pre misses : List (Byte × Byte)) (rest : List Byte), Ready (.request m) s → s.cfg.ok = true →
    (Exchange.timeout pre misses).FitsRequest s.cfg m → s.answers = flatPairs (pre ++ misses) ++ rest →
    ∃ k v, exec (.request m) s = .next
      { s.ended .timeout (missEvents s.cfg s.cfg.bitFramingShort [m] pre misses) rest (2 * (pre.length + misses.length)) with
        seq := k, v := v, ret := .timeout, respLen := 0#3, polls := BitVec.ofNat 16 s.cfg.pollMaxCom
        pollCount := BitVec.ofNat 16 s.cfg.pollMaxCom, tagType := noBytes2, uidBuf := noBytes5 }) ∧
  (∀ (s : State) (m : Byte) (pre misses : List (Byte × Byte)) (hit err : Byte × Byte) (rest : List Byte),
    Ready (.request m) s → s.cfg.ok = true → (Exchange.chipFault pre misses hit err).FitsRequest s.cfg m →
    s.answers = flatPairs (pre ++ misses ++ [hit, err]) ++ rest →
    ∃ k, exec (.request m) s = .next
      { s.ended .chipFault (hitEvents s.cfg s.cfg.bitFramingShort [m] pre misses hit err) rest
          (2 * (pre.length + misses.length + 2)) with
        seq := k, v := err.2, ret := .chipFault, rdata := some err.2, respLen := 0#3
        polls := BitVec.ofNat 16 (misses.length + 1), pollCount := BitVec.ofNat 16 (misses.length + 1)
        tagType := noBytes2, uidBuf := noBytes5 })

/-- ANTICOLL that succeeds (R162): the `ANTICOLL_READ_LEN` FIFO bytes are `uidBuf` and `RESP` from 0 on; the tag type is
emptied, too (R30, log entry 9). -/
def Obligations.AnticollReturnsTheUidBytes : Prop :=
  ∀ (s : State) (pre misses : List (Byte × Byte)) (hit err : Byte × Byte) (fifo : List (Byte × Byte)) (rest : List Byte),
    Ready .anticoll s → s.cfg.ok = true → (Exchange.ok pre misses hit err fifo).FitsAnticoll s.cfg →
    s.answers = flatPairs (pre ++ misses ++ [hit, err] ++ fifo) ++ rest →
    ∃ k v, exec .anticoll s = .next
      { s.ended .ok (hitEvents s.cfg s.cfg.bitFramingFull [s.cfg.piccAnticoll, s.cfg.nvbAnticoll] pre misses hit err ++
          readsEvents s.cfg s.cfg.regFifoData fifo) rest (2 * (pre.length + misses.length + 2 + s.cfg.anticollReadLen)) with
        seq := k, v := v, out := fifo.map (·.2), ret := .ok, resp := overlay5 (fifo.map (·.2)) s.resp
        respLen := BitVec.ofNat 3 s.cfg.anticollReadLen
        polls := BitVec.ofNat 16 (misses.length + 1), pollCount := BitVec.ofNat 16 (misses.length + 1)
        tagType := noBytes2, uidBuf := overlay5 (fifo.map (·.2)) noBytes5 }

/-- ANTICOLL that fails (R162): as REQUEST; both buffers hold no value (R30 as log entry 9 reads it). -/
def Obligations.AnticollFails : Prop :=
  (∀ (s : State) (pre misses : List (Byte × Byte)) (rest : List Byte), Ready .anticoll s → s.cfg.ok = true →
    (Exchange.timeout pre misses).FitsAnticoll s.cfg → s.answers = flatPairs (pre ++ misses) ++ rest →
    ∃ k v, exec .anticoll s = .next
      { s.ended .timeout (missEvents s.cfg s.cfg.bitFramingFull [s.cfg.piccAnticoll, s.cfg.nvbAnticoll] pre misses) rest
          (2 * (pre.length + misses.length)) with
        seq := k, v := v, ret := .timeout, respLen := 0#3, polls := BitVec.ofNat 16 s.cfg.pollMaxCom
        pollCount := BitVec.ofNat 16 s.cfg.pollMaxCom, tagType := noBytes2, uidBuf := noBytes5 }) ∧
  (∀ (s : State) (pre misses : List (Byte × Byte)) (hit err : Byte × Byte) (rest : List Byte), Ready .anticoll s →
    s.cfg.ok = true → (Exchange.chipFault pre misses hit err).FitsAnticoll s.cfg →
    s.answers = flatPairs (pre ++ misses ++ [hit, err]) ++ rest →
    ∃ k, exec .anticoll s = .next
      { s.ended .chipFault
          (hitEvents s.cfg s.cfg.bitFramingFull [s.cfg.piccAnticoll, s.cfg.nvbAnticoll] pre misses hit err) rest
          (2 * (pre.length + misses.length + 2)) with
        seq := k, v := err.2, ret := .chipFault, rdata := some err.2, respLen := 0#3
        polls := BitVec.ofNat 16 (misses.length + 1), pollCount := BitVec.ofNat 16 (misses.length + 1)
        tagType := noBytes2, uidBuf := noBytes5 })

/-- The events of an exchange read as what R153 and R140 say: the register transactions in order, one delay between two
polls, no diagnostic, no output; and the counts of R156. -/
def Obligations.ExchangeReadings : Prop :=
  ∀ (c : Params) (framing : Byte) (payload : List Byte) (n : Nat) (e : Exchange), e.Fits c framing payload n →
    txns (e.events c framing payload) = e.txns c framing payload ∧
    delays (e.events c framing payload) = delayList (e.polls - 1) c.pollIntervalMs ∧
    diags (e.events c framing payload) = [] ∧ outs (e.events c framing payload) = [] ∧
    e.polls ≤ c.pollMaxCom ∧
    (c.clearIrqBeforeIssue = false → c.startSendAfterIssue = false →
      (txns (e.events c framing payload)).length = 4 + payload.length + e.polls +
        (match e with
        | .timeout _ _ => 0
        | .chipFault _ _ _ _ => 1
        | .ok _ _ _ _ _ => 1 + n))

/-- CALC_CRC (R168): the writes, the polls, and the two result registers low byte first, read after a timeout too. -/
def Obligations.CalcCrcReturnsTheResultRegisters : Prop :=
  ∀ (s : State) (n : Nat) (data : List Byte) (x : CrcAnswers) (rest : List Byte), Ready (.calcCrc n) s →
    s.cfg.ok = true → n ≤ s.cfg.crcMaxLen → readCells s.dataIn 0 n = some data → x.Fits s.cfg n →
    s.answers = flatPairs x.pairs ++ rest →
    (∃ k, exec (.calcCrc n) s = .next
      { s.ended (if x.hit.isSome then .ok else .timeout) (x.events s.cfg data) rest (2 * x.pairs.length) with
        seq := k, v := x.hi.2, out := [x.lo.2, x.hi.2], ret := if x.hit.isSome then .ok else .timeout
        resp := #v[some x.lo.2, some x.hi.2, s.resp[2], s.resp[3], s.resp[4]], respLen := 2#3
        polls := BitVec.ofNat 16 x.polls, pollCount := BitVec.ofNat 16 x.polls }) ∧
    txns (x.events s.cfg data) = x.txns s.cfg data ∧
    delays (x.events s.cfg data) = delayList (x.polls - 1) s.cfg.crcPollIntervalMs ∧ x.polls ≤ s.cfg.pollMaxDiv

/-- BAD_LEN (R225). -/
def Obligations.CalcCrcTooLongIsBadLen : Prop :=
  ∀ (s : State) (n : Nat), Ready (.calcCrc n) s → s.cfg.crcMaxLen < n →
    exec (.calcCrc n) s = .next { s.ended .badLen [] s.answers 0 with respLen := 0#3 }

/-- Operand bytes that hold no value fault before any transaction (R169, R180); for CALC_CRC the length comes first
(R227(a)). -/
def Obligations.UnwrittenOperandsFault : Prop :=
  (∀ (s : State) (n i : Nat), Ready (.calcCrc n) s → n ≤ s.cfg.crcMaxLen → i < n → readCell s.dataIn i = none →
    exec (.calcCrc n) s = .fault .unwrittenRead) ∧
  (∀ (s : State) (i : Nat), Ready .compareUid s → i < s.cfg.uidLen → readCell s.dataIn i = none →
    exec .compareUid s = .fault .unwrittenRead)

/-- COMPARE_UID (R180): `RDATA` is the match bit of the candidate bytes; no transaction, no other event. -/
def Obligations.CompareUidAnswersTheMatchBit : Prop :=
  ∀ (s : State) (u : List Byte), Ready .compareUid s → u.length = s.cfg.uidLen →
    (∀ i, i < s.cfg.uidLen → readCell s.dataIn i = u[i]?) →
    ∃ k, exec .compareUid s = .next
      { s.ended .ok [] s.answers 0 with
        seq := k, rdata := some (if uidMatches s.cfg.uidLen u s.cfg.whitelist then 0x01#8 else 0x00#8)
        result := if uidMatches s.cfg.uidLen u s.cfg.whitelist then 0x01#8 else 0x00#8, respLen := 0#3 }

/-- `compareUid` is the existential of R181, and its two properties (R182). -/
def Obligations.CompareUidIsExactMembership : Prop :=
  (∀ (n : Nat) (u : List Byte) (wl : List (List Byte)), n ≤ u.length → (∀ w ∈ wl, w.length = n) →
    (uidMatches n u wl = true ↔ ∃ w ∈ wl, ∀ i, i < n → u[i]? = w[i]?)) ∧
  (∀ (n : Nat) (wl : List (List Byte)) (w : List Byte), w ∈ wl → uidMatches n w wl = true) ∧
  (∀ (n : Nat) (u : List Byte) (wl : List (List Byte)), u.length = n → (∀ w ∈ wl, w.length = n) →
    (∀ w ∈ wl, ∃ i, i < n ∧ u[i]? ≠ w[i]?) → uidMatches n u wl = false)

/-- UNLOCK where the host may drive the actuator (R211): both outputs in one step, `lockState` Unlocked. -/
def Obligations.UnlockOpens : Prop :=
  ∀ s : State, Ready .unlock s → s.cfg.hostActuatorOps = true →
    ∃ k, exec .unlock s = .next
      { s.ended .ok [.outputs false true] s.answers 0 with
        seq := k, lockOut := false, unlockOut := true, lockState := .unlocked, respLen := 0#3 }

/-- LOCK where the host may drive the actuator (R212). -/
def Obligations.LockCloses : Prop :=
  ∀ s : State, Ready .lock s → s.cfg.hostActuatorOps = true →
    ∃ k, exec .lock s = .next
      { s.ended .ok [.outputs true false] s.answers 0 with
        seq := k, lockOut := true, unlockOut := false, lockState := .locked, respLen := 0#3 }

/-- DISABLED (R226). -/
def Obligations.HostActuatorOpsOffIsDisabled : Prop :=
  ∀ (s : State) (i : Instr), i = .unlock ∨ i = .lock → Ready i s → s.cfg.hostActuatorOps = false →
    exec i s = .next { s.ended .disabled [] s.answers 0 with respLen := 0#3 }

/-- BAD_OP (R224): a word with RSV ≠ 0, or with OP 0x0, 0xD, 0xE or 0xF, finishes with BAD_OP as its only step after
acceptance; nothing but the status and the operation's end is written. The same for every constructor of a rejected word. -/
def Obligations.RejectedWordsAreBadOp : Prop :=
  (∀ (s : State) (w : Word), (rsvField w ≠ 0#7 ∨ opField w = 0x0#4 ∨ opField w = 0xD#4 ∨ opField w = 0xE#4 ∨ opField w = 0xF#4) →
    Ready (decodeCommand w) s →
    exec (decodeCommand w) s = .next { s.ended .badOp [] s.answers 0 with respLen := 0#3 }) ∧
  (∀ (s : State) (i : Instr), i.isReserved = true → Ready i s →
    exec i s = .next { s.ended .badOp [] s.answers 0 with respLen := 0#3 } ∧
    atom (program s.cfg i) s = .next { s.ended .badOp [] s.answers 0 with respLen := 0#3 } ∧
    program s.cfg i = [.checks .reserved])

/-- The two frames by themselves: the transaction they open (R100, R102, R122). A frame is no operation of the port, so
nothing finishes; that a write frame's data byte is the sequencer's `v` is the model's choice (log entry 11). -/
def Obligations.FramesOpenTheirTransaction : Prop :=
  (∀ (s : State) (a : Addr) (x v : Byte) (rest : List Byte), Ready (.frameRead a) s → s.answers = x :: v :: rest →
    ∃ k, exec (.frameRead a) s = .next { s with
      op := none, busy := false, running := false, seq := k, v := v, trace := s.trace ++ readEvents s.cfg a x v
      answers := rest, draws := s.draws + 2 }) ∧
  (∀ (s : State) (a : Addr) (x y : Byte) (rest : List Byte), Ready (.frameWrite a) s → s.answers = x :: y :: rest →
    ∃ k, exec (.frameWrite a) s = .next { s with
      op := none, busy := false, running := false, seq := k, trace := s.trace ++ writeEvents a s.v x y
      answers := rest, draws := s.draws + 2 })

/-- The chip command codes and card bytes by themselves: the write of the byte to the command register (R103), or to the FIFO
(R105, R106). -/
def Obligations.ChipAndCardBytesAreWritten : Prop :=
  ∀ (s : State) (i : Instr) (a : Addr) (b x y : Byte) (rest : List Byte), byteWrite s.cfg i = some (a, b) → Ready i s →
    s.answers = x :: y :: rest →
    ∃ k, exec i s = .next { s with
      op := none, busy := false, running := false, seq := k, trace := s.trace ++ writeEvents a b x y
      answers := rest, draws := s.draws + 2 }

/-- POLL_CYCLE (R185, R187, R188), whichever way it goes: its events in order, `RDATA` the outcome code, the lock shut again
after a granted cycle and untouched otherwise, the controller Idle. That an inner CHIP_FAULT leaves nothing in `RDATA` is log
entry 10. -/
def Obligations.PollCycleRunsOneCycle : Prop :=
  ∀ (s : State) (x : CycleAnswers) (rest : List Byte), Ready .pollCycle s → s.cfg.ok = true → x.Fits s.cfg →
    s.answers = flatPairs x.pairs ++ rest →
    ∃ k v out, exec .pollCycle s = .next
      { s.ended .ok (x.events s.cfg) rest (2 * x.pairs.length) with
        seq := k, v := v, out := out, ret := x.ret, rdata := some (x.outcome s.cfg), result := x.outcome s.cfg
        resp := x.resp s.resp, respLen := x.respLen s.cfg
        polls := BitVec.ofNat 16 x.polls, pollCount := BitVec.ofNat 16 x.polls
        tagType := x.tagType, uidBuf := x.uidBuf, ctrlState := .idle
        lockState := if x.granted s.cfg then .locked else s.lockState
        lockOut := if x.granted s.cfg then true else s.lockOut
        unlockOut := if x.granted s.cfg then false else s.unlockOut }

/-- RUN (R190): a round of the loop is one cycle, from its start or from the beginning of a later round; afterwards it stands
at the beginning of the next round, still busy, with `STATUS` and `RDATA` as before. That an inner CHIP_FAULT leaves `RDATA` alone
is log entry 10; the numbering that puts the round at `roundStart` is log entry 7. -/
def Obligations.RunRepeatsTheCycle : Prop :=
  ∀ (s : State) (x : CycleAnswers) (rest : List Byte), Ready .run s ∨ RoundReady s → s.cfg.ok = true → x.Fits s.cfg →
    s.answers = flatPairs x.pairs ++ rest →
    ∃ t v out, exec .run s = .next t ∧ RoundReady t ∧ t =
      { s with
        seq := roundStart, running := true, v := v, out := out, ret := x.ret, result := x.outcome s.cfg
        resp := x.resp s.resp, respLen := x.respLen s.cfg
        polls := BitVec.ofNat 16 x.polls, pollCount := BitVec.ofNat 16 x.polls
        tagType := x.tagType, uidBuf := x.uidBuf, ctrlState := .idle
        lockState := if x.granted s.cfg then .locked else s.lockState
        lockOut := if x.granted s.cfg then true else s.lockOut
        unlockOut := if x.granted s.cfg then false else s.unlockOut
        trace := s.trace ++ x.events s.cfg, answers := rest, draws := s.draws + 2 * x.pairs.length }

/-- RUN ends by block reset alone (R190, R250): every step from a state that runs it leaves it running, unless the next
stimulus is block reset. -/
def Obligations.RunEndsByBlockResetAlone : Prop :=
  ∀ s t : State, s.op = some .run → s.busy = true → step s = .next t → s.env.head? ≠ some .blockReset →
    t.op = some .run ∧ t.busy = true ∧ t.status = s.status

/-- The events of a cycle (R185, R189): its transactions, delays, diagnostics and outputs. A granted cycle has `Out(0,1)`
exactly once, after `Granted`, then the dwell and nothing else, then `Out(1,0)`, then the inter-poll delay; every other cycle
has no `Out`, and none without a UID has a decision. Both polls are within the bound. -/
def Obligations.CycleReadings : Prop :=
  ∀ (c : Params) (x : CycleAnswers), x.Fits c →
    txns (x.events c) = x.txns c ∧ delays (x.events c) = x.delays c ∧ diags (x.events c) = x.diags c ∧
    outs (x.events c) = x.outs c ∧ x.request.polls ≤ c.pollMaxCom ∧ (∀ a, x.anticoll = some a → a.polls ≤ c.pollMaxCom) ∧
    x.polls ≤ c.pollMaxCom ∧
    (∃ before, x.events c = before ++ delayEvents c.interPollMs ∧
      (x.granted c = true → ∃ first, outs first = [] ∧
        before = first ++ [.diag .granted, .outputs false true] ++ delayEvents c.dwellMs ++ [.outputs true false]) ∧
      (x.granted c = false → outs before = [])) ∧
    (c.pollIntervalMs = 1 → c.interPollMs = 1000 → c.dwellMs = 5000 →
      (x.delays c).sum = (x.request.polls - 1) +
        (match x.anticoll with
        | none => 0
        | some a => a.polls - 1) + (if x.granted c then 5000 else 0) + 1000)

/-- The controller's way through a cycle (R186), atomic step by atomic step: Idle at the start, ReadUid once REQUEST has
succeeded and the card is announced, Granted or Denied by the match once the UID is, and Idle again after the inter-poll delay;
between these steps the state stays. -/
def Obligations.CyclesMoveTheControllerAsR186Says : Prop :=
  ∀ (i : Instr) (s : State) (x : CycleAnswers) (rest : List Byte), i = .pollCycle ∨ i = .run →
    Ready i s ∨ (i = .run ∧ RoundReady s) → s.cfg.ok = true → x.Fits s.cfg → s.answers = flatPairs x.pairs ++ rest →
    ∃ s₁, (KeepsCtrlUntil (program s.cfg i) s s₁ ∧ s₁.ctrlState = .idle ∧ s₁.trace = s.trace) ∧
      match x with
      | .noTag _ =>
        ∃ u, KeepsCtrlUntil (program s.cfg i) s₁ u ∧ u.ctrlState = .idle ∧ u.trace = s.trace ++ x.events s.cfg
      | .noUid r _ =>
        ∃ u w,
          (KeepsCtrlUntil (program s.cfg i) s₁ u ∧ u.ctrlState = .readUid ∧
            u.trace = s.trace ++ (r.events s.cfg s.cfg.bitFramingShort [s.cfg.reqMode] ++ [.diag .cardDetected])) ∧
          (KeepsCtrlUntil (program s.cfg i) u w ∧ w.ctrlState = .idle ∧ w.trace = s.trace ++ x.events s.cfg)
      | .uid r a =>
        ∃ u v w,
          (KeepsCtrlUntil (program s.cfg i) s₁ u ∧ u.ctrlState = .readUid ∧
            u.trace = s.trace ++ (r.events s.cfg s.cfg.bitFramingShort [s.cfg.reqMode] ++ [.diag .cardDetected])) ∧
          (KeepsCtrlUntil (program s.cfg i) u v ∧
            v.ctrlState = (if uidMatches s.cfg.uidLen (a.uidOf s.cfg) s.cfg.whitelist then .granted else .denied) ∧
            v.trace = u.trace ++ (a.events s.cfg s.cfg.bitFramingFull [s.cfg.piccAnticoll, s.cfg.nvbAnticoll] ++
              [.diag (.uid (a.uidOf s.cfg))])) ∧
          (KeepsCtrlUntil (program s.cfg i) v w ∧ w.ctrlState = .idle ∧ w.trace = s.trace ++ x.events s.cfg)

/-! ## What an operation leaves alone, in its undisturbed run and in each of its atomic steps -/

/-- No operation writes `CMD`, `DATA_IN`, `OVERRUN` or the configuration, or moves the outside (R22, R33, R35, R36); every
byte of `DATA_IN` reads as before; the trace only grows (R32). -/
def Obligations.OperationsLeaveTheInputsAlone : Prop :=
  ∀ (i : Instr) (s t : State), Advances i s t →
    t.cmd = s.cmd ∧ t.dataIn = s.dataIn ∧ (∀ j, readCell t.dataIn j = readCell s.dataIn j) ∧ t.overrun = s.overrun ∧
    t.cfg = s.cfg ∧ t.env = s.env ∧ t.hostData = s.hostData ∧ s.trace <+: t.trace

/-- Only UNLOCK, LOCK, POLL_CYCLE and RUN touch the lock state and the outputs (R27, R29). -/
def Obligations.OnlyActuatorOperationsTouchTheLock : Prop :=
  ∀ (i : Instr) (s t : State), i ≠ .unlock → i ≠ .lock → i ≠ .pollCycle → i ≠ .run → Advances i s t →
    t.lockState = s.lockState ∧ t.lockOut = s.lockOut ∧ t.unlockOut = s.unlockOut ∧ outs t.trace = outs s.trace

/-- Only POLL_CYCLE and RUN move the controller and emit diagnostics (R28, R196). -/
def Obligations.OnlyCyclesMoveTheController : Prop :=
  ∀ (i : Instr) (s t : State), i ≠ .pollCycle → i ≠ .run → Advances i s t →
    t.ctrlState = s.ctrlState ∧ diags t.trace = diags s.trace

/-- Only REQUEST, ANTICOLL, POLL_CYCLE and RUN write the buffers (R30); only those and CALC_CRC poll (R31). -/
def Obligations.OnlyReaderOperationsTouchBuffersAndPolls : Prop :=
  ∀ (i : Instr) (s t : State), (∀ m, i ≠ .request m) → i ≠ .anticoll → i ≠ .pollCycle → i ≠ .run → Advances i s t →
    t.tagType = s.tagType ∧ t.uidBuf = s.uidBuf ∧
    ((∀ n, i ≠ .calcCrc n) → t.pollCount = s.pollCount ∧ t.polls = s.polls)

/-- An operation that stops short of its end has written none of `STATUS`, `BUSY`, `RDATA`, and `RESP` only inside a cycle;
one that ended is idle (R35, R39, R222). That an unfinished cycle leaves `RDATA` alone past an inner CHIP_FAULT is log entry 10. -/
def Obligations.ResultsAppearAtTheEnd : Prop :=
  ∀ (i : Instr) (s t : State), s.op = some i → Advances i s t →
    (t.op = some i ∧ t.busy = s.busy ∧ t.status = s.status ∧ t.rdata = s.rdata ∧ (i ≠ .run → t.running = s.running) ∧
      (i ≠ .pollCycle → i ≠ .run → t.resp = s.resp ∧ t.respLen = s.respLen)) ∨
    (t.op = none ∧ t.busy = false ∧ t.running = false)

/-- Nothing but block reset erases an event (R32), and nothing changes the configuration (R33). -/
def Obligations.TheTraceOnlyGrows : Prop :=
  ∀ s t : State, step s = .next t → t.cfg = s.cfg ∧ (s.env.head? ≠ some .blockReset → s.trace <+: t.trace)

/-! ## What every step keeps -/

/-- Bus, sequencer and step pointer stay in agreement (R26, R41(c), R122, R123), whatever the outside does. That the host's
Overrun may fall inside a transaction is log entry 29; the step pointer's numbering and range are log entries 7 and 26. -/
def Obligations.EveryStepKeepsTheBusInvariant : Prop :=
  ∀ s t : State, BusInv s → step s = .next t → BusInv t

/-- Lock state and outputs stay in agreement, and never both outputs asserted (R41(a), R41(b), R210), for parameters whose
`RESET_OUTPUTS` does not assert the unlock output (log entry 15). -/
def Obligations.EveryStepKeepsTheLockInvariant : Prop :=
  ∀ s t : State, LockInv s → step s = .next t → LockInv t

/-- `DATA_IN` keeps its canonical form, `BUSY` is 1 exactly while an operation runs, `running` only while RUN does (R25). -/
def Obligations.EveryStepKeepsThePortInvariant : Prop :=
  ∀ s t : State, PortInv s → step s = .next t → PortInv t

/-- The one fault a step can end in is `UnwrittenRead`; `BusProtocol` and `ActuatorConflict` are reached by no rule (R120,
R121, R210, R229). -/
def Obligations.NoProtocolOrActuatorFault : Prop :=
  ∀ (s : State) (f : Fault), BusInv s → step s = .fault f → f = .unwrittenRead

/-- UNLOCK and LOCK are past their first step only where the host may drive the actuator (R226), whatever the outside does. The
step pointer's numbering is log entry 7. -/
def Obligations.EveryStepKeepsTheActuatorInvariant : Prop :=
  ∀ s t : State, ActuatorInv s → step s = .next t → ActuatorInv t

/-- The lock opens only in an UNLOCK that the host may make, a POLL_CYCLE or RUN (R27, R214); where the host may not drive the
actuator, only cycles and block reset change the lock state. -/
def Obligations.OnlyUnlockAndCyclesOpenTheLock : Prop :=
  (∀ s t : State, ActuatorInv s → step s = .next t → s.lockState = .locked → t.lockState = .unlocked →
    (s.op = some .unlock ∧ s.cfg.hostActuatorOps = true) ∨ s.op = some .pollCycle ∨ s.op = some .run) ∧
  (∀ s t : State, ActuatorInv s → s.cfg.hostActuatorOps = false → step s = .next t → t.lockState ≠ s.lockState →
    s.op = some .pollCycle ∨ s.op = some .run ∨ s.env.head? = some .blockReset)

/-- Every sufficiently long list of bytes that the reader may answer is the answers of a REQUEST, of an ANTICOLL, of a
CALC_CRC and of a cycle: the result statements leave no behaviour of the reader out (R60). -/
def Obligations.AnyAnswersAreAnswered : Prop :=
  ∀ (c : Params) (l : List Byte), c.ok = true → 300000 ≤ l.length →
    (∀ m, ∃ (e : Exchange) (rest : List Byte), l = flatPairs e.pairs ++ rest ∧ e.FitsRequest c m) ∧
    (∃ (e : Exchange) (rest : List Byte), l = flatPairs e.pairs ++ rest ∧ e.FitsAnticoll c) ∧
    (∀ n, n ≤ 127 → ∃ (x : CrcAnswers) (rest : List Byte), l = flatPairs x.pairs ++ rest ∧ x.Fits c n) ∧
    (∃ (x : CycleAnswers) (rest : List Byte), l = flatPairs x.pairs ++ rest ∧ x.Fits c)

/-- Every operation but RUN ends, and every round of RUN ends, once the reader answers every transfer (R143, R191): whatever
it answers, a bounded number of bytes is enough. It rests on the fairness of bus and timer (R120, R236, log entry 5) and on the
bound of one undisturbed step (log entry 21). -/
def Obligations.EveryOperationEnds : Prop :=
  (∀ (s : State) (i : Instr), Ready i s → s.cfg.ok = true → 300000 ≤ s.answers.length → i ≠ .run →
    (∀ n j, i = .calcCrc n → j < n → (readCell s.dataIn j).isSome = true) →
    (∀ j, i = .compareUid → j < s.cfg.uidLen → (readCell s.dataIn j).isSome = true) →
    ∃ t, exec i s = .next t ∧ t.op = none ∧ t.busy = false) ∧
  (∀ s : State, Ready .run s ∨ RoundReady s → s.cfg.ok = true → 300000 ≤ s.answers.length →
    ∃ t, exec .run s = .next t ∧ RoundReady t)

/-- A granted cycle needs a UID of the whitelist (R185, R189, R213): when an undisturbed POLL_CYCLE or round of RUN drives
the outputs, the bytes ANTICOLL read begin with an entry's. -/
def Obligations.ACycleOpensOnlyForAListedUid : Prop :=
  ∀ (s t : State), (Ready .pollCycle s ∧ exec .pollCycle s = .next t) ∨ ((Ready .run s ∨ RoundReady s) ∧ exec .run s = .next t) →
    s.cfg.ok = true → 300000 ≤ s.answers.length → outs t.trace ≠ outs s.trace →
    ∃ u ∈ s.cfg.whitelist, t.uidBuf.toList.take s.cfg.uidLen = u.map some ∧
      outs t.trace = outs s.trace ++ [(false, true), (true, false)] ∧ t.lockState = .locked
end

