-- ==== Sys2Proof/Laws/State.lean ====
section
/-! SUPPORT. One lemma per field for each named update of the state, true by definition, so that no proof unfolds one. -/

namespace Sys2Proof.Machine

@[simp] theorem State.log_cmd (s : State) (e : Event) : (s.log e).cmd = s.cmd := rfl
@[simp] theorem State.log_dataIn (s : State) (e : Event) : (s.log e).dataIn = s.dataIn := rfl
@[simp] theorem State.log_busy (s : State) (e : Event) : (s.log e).busy = s.busy := rfl
@[simp] theorem State.log_status (s : State) (e : Event) : (s.log e).status = s.status := rfl
@[simp] theorem State.log_overrun (s : State) (e : Event) : (s.log e).overrun = s.overrun := rfl
@[simp] theorem State.log_rdata (s : State) (e : Event) : (s.log e).rdata = s.rdata := rfl
@[simp] theorem State.log_resp (s : State) (e : Event) : (s.log e).resp = s.resp := rfl
@[simp] theorem State.log_respLen (s : State) (e : Event) : (s.log e).respLen = s.respLen := rfl
@[simp] theorem State.log_polls (s : State) (e : Event) : (s.log e).polls = s.polls := rfl
@[simp] theorem State.log_op (s : State) (e : Event) : (s.log e).op = s.op := rfl
@[simp] theorem State.log_seq (s : State) (e : Event) : (s.log e).seq = s.seq := rfl
@[simp] theorem State.log_running (s : State) (e : Event) : (s.log e).running = s.running := rfl
@[simp] theorem State.log_cs (s : State) (e : Event) : (s.log e).cs = s.cs := rfl
@[simp] theorem State.log_xfers (s : State) (e : Event) : (s.log e).xfers = s.xfers := rfl
@[simp] theorem State.log_lockState (s : State) (e : Event) : (s.log e).lockState = s.lockState := rfl
@[simp] theorem State.log_ctrlState (s : State) (e : Event) : (s.log e).ctrlState = s.ctrlState := rfl
@[simp] theorem State.log_lockOut (s : State) (e : Event) : (s.log e).lockOut = s.lockOut := rfl
@[simp] theorem State.log_unlockOut (s : State) (e : Event) : (s.log e).unlockOut = s.unlockOut := rfl
@[simp] theorem State.log_tagType (s : State) (e : Event) : (s.log e).tagType = s.tagType := rfl
@[simp] theorem State.log_uidBuf (s : State) (e : Event) : (s.log e).uidBuf = s.uidBuf := rfl
@[simp] theorem State.log_pollCount (s : State) (e : Event) : (s.log e).pollCount = s.pollCount := rfl
@[simp] theorem State.log_trace (s : State) (e : Event) : (s.log e).trace = s.trace ++ [e] := rfl
@[simp] theorem State.log_hold (s : State) (e : Event) : (s.log e).hold = s.hold := rfl
@[simp] theorem State.log_v (s : State) (e : Event) : (s.log e).v = s.v := rfl
@[simp] theorem State.log_out (s : State) (e : Event) : (s.log e).out = s.out := rfl
@[simp] theorem State.log_ret (s : State) (e : Event) : (s.log e).ret = s.ret := rfl
@[simp] theorem State.log_result (s : State) (e : Event) : (s.log e).result = s.result := rfl
@[simp] theorem State.log_cfg (s : State) (e : Event) : (s.log e).cfg = s.cfg := rfl
@[simp] theorem State.log_env (s : State) (e : Event) : (s.log e).env = s.env := rfl
@[simp] theorem State.log_answers (s : State) (e : Event) : (s.log e).answers = s.answers := rfl
@[simp] theorem State.log_draws (s : State) (e : Event) : (s.log e).draws = s.draws := rfl
@[simp] theorem State.log_hostData (s : State) (e : Event) : (s.log e).hostData = s.hostData := rfl

@[simp] theorem State.skip_cmd (s : State) (n : Nat) : (s.skip n).cmd = s.cmd := rfl
@[simp] theorem State.skip_dataIn (s : State) (n : Nat) : (s.skip n).dataIn = s.dataIn := rfl
@[simp] theorem State.skip_busy (s : State) (n : Nat) : (s.skip n).busy = s.busy := rfl
@[simp] theorem State.skip_status (s : State) (n : Nat) : (s.skip n).status = s.status := rfl
@[simp] theorem State.skip_overrun (s : State) (n : Nat) : (s.skip n).overrun = s.overrun := rfl
@[simp] theorem State.skip_rdata (s : State) (n : Nat) : (s.skip n).rdata = s.rdata := rfl
@[simp] theorem State.skip_resp (s : State) (n : Nat) : (s.skip n).resp = s.resp := rfl
@[simp] theorem State.skip_respLen (s : State) (n : Nat) : (s.skip n).respLen = s.respLen := rfl
@[simp] theorem State.skip_polls (s : State) (n : Nat) : (s.skip n).polls = s.polls := rfl
@[simp] theorem State.skip_op (s : State) (n : Nat) : (s.skip n).op = s.op := rfl
@[simp] theorem State.skip_seq (s : State) (n : Nat) : (s.skip n).seq = s.seq + 1 + n := rfl
@[simp] theorem State.skip_running (s : State) (n : Nat) : (s.skip n).running = s.running := rfl
@[simp] theorem State.skip_cs (s : State) (n : Nat) : (s.skip n).cs = s.cs := rfl
@[simp] theorem State.skip_xfers (s : State) (n : Nat) : (s.skip n).xfers = s.xfers := rfl
@[simp] theorem State.skip_lockState (s : State) (n : Nat) : (s.skip n).lockState = s.lockState := rfl
@[simp] theorem State.skip_ctrlState (s : State) (n : Nat) : (s.skip n).ctrlState = s.ctrlState := rfl
@[simp] theorem State.skip_lockOut (s : State) (n : Nat) : (s.skip n).lockOut = s.lockOut := rfl
@[simp] theorem State.skip_unlockOut (s : State) (n : Nat) : (s.skip n).unlockOut = s.unlockOut := rfl
@[simp] theorem State.skip_tagType (s : State) (n : Nat) : (s.skip n).tagType = s.tagType := rfl
@[simp] theorem State.skip_uidBuf (s : State) (n : Nat) : (s.skip n).uidBuf = s.uidBuf := rfl
@[simp] theorem State.skip_pollCount (s : State) (n : Nat) : (s.skip n).pollCount = s.pollCount := rfl
@[simp] theorem State.skip_trace (s : State) (n : Nat) : (s.skip n).trace = s.trace := rfl
@[simp] theorem State.skip_hold (s : State) (n : Nat) : (s.skip n).hold = s.hold := rfl
@[simp] theorem State.skip_v (s : State) (n : Nat) : (s.skip n).v = s.v := rfl
@[simp] theorem State.skip_out (s : State) (n : Nat) : (s.skip n).out = s.out := rfl
@[simp] theorem State.skip_ret (s : State) (n : Nat) : (s.skip n).ret = s.ret := rfl
@[simp] theorem State.skip_result (s : State) (n : Nat) : (s.skip n).result = s.result := rfl
@[simp] theorem State.skip_cfg (s : State) (n : Nat) : (s.skip n).cfg = s.cfg := rfl
@[simp] theorem State.skip_env (s : State) (n : Nat) : (s.skip n).env = s.env := rfl
@[simp] theorem State.skip_answers (s : State) (n : Nat) : (s.skip n).answers = s.answers := rfl
@[simp] theorem State.skip_draws (s : State) (n : Nat) : (s.skip n).draws = s.draws := rfl
@[simp] theorem State.skip_hostData (s : State) (n : Nat) : (s.skip n).hostData = s.hostData := rfl

@[simp] theorem State.advance_cmd (s : State) : s.advance.cmd = s.cmd := rfl
@[simp] theorem State.advance_dataIn (s : State) : s.advance.dataIn = s.dataIn := rfl
@[simp] theorem State.advance_busy (s : State) : s.advance.busy = s.busy := rfl
@[simp] theorem State.advance_status (s : State) : s.advance.status = s.status := rfl
@[simp] theorem State.advance_overrun (s : State) : s.advance.overrun = s.overrun := rfl
@[simp] theorem State.advance_rdata (s : State) : s.advance.rdata = s.rdata := rfl
@[simp] theorem State.advance_resp (s : State) : s.advance.resp = s.resp := rfl
@[simp] theorem State.advance_respLen (s : State) : s.advance.respLen = s.respLen := rfl
@[simp] theorem State.advance_polls (s : State) : s.advance.polls = s.polls := rfl
@[simp] theorem State.advance_op (s : State) : s.advance.op = s.op := rfl
@[simp] theorem State.advance_seq (s : State) : s.advance.seq = s.seq + 1 := rfl
@[simp] theorem State.advance_running (s : State) : s.advance.running = s.running := rfl
@[simp] theorem State.advance_cs (s : State) : s.advance.cs = s.cs := rfl
@[simp] theorem State.advance_xfers (s : State) : s.advance.xfers = s.xfers := rfl
@[simp] theorem State.advance_lockState (s : State) : s.advance.lockState = s.lockState := rfl
@[simp] theorem State.advance_ctrlState (s : State) : s.advance.ctrlState = s.ctrlState := rfl
@[simp] theorem State.advance_lockOut (s : State) : s.advance.lockOut = s.lockOut := rfl
@[simp] theorem State.advance_unlockOut (s : State) : s.advance.unlockOut = s.unlockOut := rfl
@[simp] theorem State.advance_tagType (s : State) : s.advance.tagType = s.tagType := rfl
@[simp] theorem State.advance_uidBuf (s : State) : s.advance.uidBuf = s.uidBuf := rfl
@[simp] theorem State.advance_pollCount (s : State) : s.advance.pollCount = s.pollCount := rfl
@[simp] theorem State.advance_trace (s : State) : s.advance.trace = s.trace := rfl
@[simp] theorem State.advance_hold (s : State) : s.advance.hold = s.hold := rfl
@[simp] theorem State.advance_v (s : State) : s.advance.v = s.v := rfl
@[simp] theorem State.advance_out (s : State) : s.advance.out = s.out := rfl
@[simp] theorem State.advance_ret (s : State) : s.advance.ret = s.ret := rfl
@[simp] theorem State.advance_result (s : State) : s.advance.result = s.result := rfl
@[simp] theorem State.advance_cfg (s : State) : s.advance.cfg = s.cfg := rfl
@[simp] theorem State.advance_env (s : State) : s.advance.env = s.env := rfl
@[simp] theorem State.advance_answers (s : State) : s.advance.answers = s.answers := rfl
@[simp] theorem State.advance_draws (s : State) : s.advance.draws = s.draws := rfl
@[simp] theorem State.advance_hostData (s : State) : s.advance.hostData = s.hostData := rfl

@[simp] theorem State.begin_cmd (s : State) (i : Instr) : (s.begin i).cmd = s.cmd := rfl
@[simp] theorem State.begin_dataIn (s : State) (i : Instr) : (s.begin i).dataIn = s.dataIn := rfl
@[simp] theorem State.begin_busy (s : State) (i : Instr) : (s.begin i).busy = true := rfl
@[simp] theorem State.begin_status (s : State) (i : Instr) : (s.begin i).status = s.status := rfl
@[simp] theorem State.begin_overrun (s : State) (i : Instr) : (s.begin i).overrun = s.overrun := rfl
@[simp] theorem State.begin_rdata (s : State) (i : Instr) : (s.begin i).rdata = s.rdata := rfl
@[simp] theorem State.begin_resp (s : State) (i : Instr) : (s.begin i).resp = s.resp := rfl
@[simp] theorem State.begin_respLen (s : State) (i : Instr) : (s.begin i).respLen = s.respLen := rfl
@[simp] theorem State.begin_polls (s : State) (i : Instr) : (s.begin i).polls = s.polls := rfl
@[simp] theorem State.begin_op (s : State) (i : Instr) : (s.begin i).op = some i := rfl
@[simp] theorem State.begin_seq (s : State) (i : Instr) : (s.begin i).seq = 0 := rfl
@[simp] theorem State.begin_running (s : State) (i : Instr) : (s.begin i).running = s.running := rfl
@[simp] theorem State.begin_cs (s : State) (i : Instr) : (s.begin i).cs = s.cs := rfl
@[simp] theorem State.begin_xfers (s : State) (i : Instr) : (s.begin i).xfers = s.xfers := rfl
@[simp] theorem State.begin_lockState (s : State) (i : Instr) : (s.begin i).lockState = s.lockState := rfl
@[simp] theorem State.begin_ctrlState (s : State) (i : Instr) : (s.begin i).ctrlState = s.ctrlState := rfl
@[simp] theorem State.begin_lockOut (s : State) (i : Instr) : (s.begin i).lockOut = s.lockOut := rfl
@[simp] theorem State.begin_unlockOut (s : State) (i : Instr) : (s.begin i).unlockOut = s.unlockOut := rfl
@[simp] theorem State.begin_tagType (s : State) (i : Instr) : (s.begin i).tagType = s.tagType := rfl
@[simp] theorem State.begin_uidBuf (s : State) (i : Instr) : (s.begin i).uidBuf = s.uidBuf := rfl
@[simp] theorem State.begin_pollCount (s : State) (i : Instr) : (s.begin i).pollCount = s.pollCount := rfl
@[simp] theorem State.begin_trace (s : State) (i : Instr) : (s.begin i).trace = s.trace := rfl
@[simp] theorem State.begin_hold (s : State) (i : Instr) : (s.begin i).hold = .free := rfl
@[simp] theorem State.begin_v (s : State) (i : Instr) : (s.begin i).v = s.v := rfl
@[simp] theorem State.begin_out (s : State) (i : Instr) : (s.begin i).out = s.out := rfl
@[simp] theorem State.begin_ret (s : State) (i : Instr) : (s.begin i).ret = s.ret := rfl
@[simp] theorem State.begin_result (s : State) (i : Instr) : (s.begin i).result = s.result := rfl
@[simp] theorem State.begin_cfg (s : State) (i : Instr) : (s.begin i).cfg = s.cfg := rfl
@[simp] theorem State.begin_env (s : State) (i : Instr) : (s.begin i).env = s.env := rfl
@[simp] theorem State.begin_answers (s : State) (i : Instr) : (s.begin i).answers = s.answers := rfl
@[simp] theorem State.begin_draws (s : State) (i : Instr) : (s.begin i).draws = s.draws := rfl
@[simp] theorem State.begin_hostData (s : State) (i : Instr) : (s.begin i).hostData = s.hostData := rfl

@[simp] theorem endOp_cmd (s : State) (st : Status) : (endOp st s).cmd = s.cmd := rfl
@[simp] theorem endOp_dataIn (s : State) (st : Status) : (endOp st s).dataIn = s.dataIn := rfl
@[simp] theorem endOp_busy (s : State) (st : Status) : (endOp st s).busy = false := rfl
@[simp] theorem endOp_status (s : State) (st : Status) : (endOp st s).status = st := rfl
@[simp] theorem endOp_overrun (s : State) (st : Status) : (endOp st s).overrun = s.overrun := rfl
@[simp] theorem endOp_rdata (s : State) (st : Status) : (endOp st s).rdata = s.rdata := rfl
@[simp] theorem endOp_resp (s : State) (st : Status) : (endOp st s).resp = s.resp := rfl
@[simp] theorem endOp_respLen (s : State) (st : Status) : (endOp st s).respLen = s.respLen := rfl
@[simp] theorem endOp_polls (s : State) (st : Status) : (endOp st s).polls = s.polls := rfl
@[simp] theorem endOp_op (s : State) (st : Status) : (endOp st s).op = none := rfl
@[simp] theorem endOp_seq (s : State) (st : Status) : (endOp st s).seq = s.seq := rfl
@[simp] theorem endOp_running (s : State) (st : Status) : (endOp st s).running = false := rfl
@[simp] theorem endOp_cs (s : State) (st : Status) : (endOp st s).cs = s.cs := rfl
@[simp] theorem endOp_xfers (s : State) (st : Status) : (endOp st s).xfers = s.xfers := rfl
@[simp] theorem endOp_lockState (s : State) (st : Status) : (endOp st s).lockState = s.lockState := rfl
@[simp] theorem endOp_ctrlState (s : State) (st : Status) : (endOp st s).ctrlState = s.ctrlState := rfl
@[simp] theorem endOp_lockOut (s : State) (st : Status) : (endOp st s).lockOut = s.lockOut := rfl
@[simp] theorem endOp_unlockOut (s : State) (st : Status) : (endOp st s).unlockOut = s.unlockOut := rfl
@[simp] theorem endOp_tagType (s : State) (st : Status) : (endOp st s).tagType = s.tagType := rfl
@[simp] theorem endOp_uidBuf (s : State) (st : Status) : (endOp st s).uidBuf = s.uidBuf := rfl
@[simp] theorem endOp_pollCount (s : State) (st : Status) : (endOp st s).pollCount = s.pollCount := rfl
@[simp] theorem endOp_trace (s : State) (st : Status) : (endOp st s).trace = s.trace ++ [.opDone st] := rfl
@[simp] theorem endOp_hold (s : State) (st : Status) : (endOp st s).hold = s.hold := rfl
@[simp] theorem endOp_v (s : State) (st : Status) : (endOp st s).v = s.v := rfl
@[simp] theorem endOp_out (s : State) (st : Status) : (endOp st s).out = s.out := rfl
@[simp] theorem endOp_ret (s : State) (st : Status) : (endOp st s).ret = s.ret := rfl
@[simp] theorem endOp_result (s : State) (st : Status) : (endOp st s).result = s.result := rfl
@[simp] theorem endOp_cfg (s : State) (st : Status) : (endOp st s).cfg = s.cfg := rfl
@[simp] theorem endOp_env (s : State) (st : Status) : (endOp st s).env = s.env := rfl
@[simp] theorem endOp_answers (s : State) (st : Status) : (endOp st s).answers = s.answers := rfl
@[simp] theorem endOp_draws (s : State) (st : Status) : (endOp st s).draws = s.draws := rfl
@[simp] theorem endOp_hostData (s : State) (st : Status) : (endOp st s).hostData = s.hostData := rfl

@[simp] theorem completeXfer_cmd (s : State) (b : Byte) (k : Bool) : (completeXfer b k s).cmd = s.cmd := rfl
@[simp] theorem completeXfer_dataIn (s : State) (b : Byte) (k : Bool) : (completeXfer b k s).dataIn = s.dataIn := rfl
@[simp] theorem completeXfer_busy (s : State) (b : Byte) (k : Bool) : (completeXfer b k s).busy = s.busy := rfl
@[simp] theorem completeXfer_status (s : State) (b : Byte) (k : Bool) : (completeXfer b k s).status = s.status := rfl
@[simp] theorem completeXfer_overrun (s : State) (b : Byte) (k : Bool) : (completeXfer b k s).overrun = s.overrun := rfl
@[simp] theorem completeXfer_rdata (s : State) (b : Byte) (k : Bool) : (completeXfer b k s).rdata = s.rdata := rfl
@[simp] theorem completeXfer_resp (s : State) (b : Byte) (k : Bool) : (completeXfer b k s).resp = s.resp := rfl
@[simp] theorem completeXfer_respLen (s : State) (b : Byte) (k : Bool) : (completeXfer b k s).respLen = s.respLen := rfl
@[simp] theorem completeXfer_polls (s : State) (b : Byte) (k : Bool) : (completeXfer b k s).polls = s.polls := rfl
@[simp] theorem completeXfer_op (s : State) (b : Byte) (k : Bool) : (completeXfer b k s).op = s.op := rfl
@[simp] theorem completeXfer_seq (s : State) (b : Byte) (k : Bool) : (completeXfer b k s).seq = s.seq + 1 := rfl
@[simp] theorem completeXfer_running (s : State) (b : Byte) (k : Bool) : (completeXfer b k s).running = s.running := rfl
@[simp] theorem completeXfer_cs (s : State) (b : Byte) (k : Bool) : (completeXfer b k s).cs = s.cs := rfl
@[simp] theorem completeXfer_xfers (s : State) (b : Byte) (k : Bool) : (completeXfer b k s).xfers = s.xfers + 1 := rfl
@[simp] theorem completeXfer_lockState (s : State) (b : Byte) (k : Bool) : (completeXfer b k s).lockState = s.lockState := rfl
@[simp] theorem completeXfer_ctrlState (s : State) (b : Byte) (k : Bool) : (completeXfer b k s).ctrlState = s.ctrlState := rfl
@[simp] theorem completeXfer_lockOut (s : State) (b : Byte) (k : Bool) : (completeXfer b k s).lockOut = s.lockOut := rfl
@[simp] theorem completeXfer_unlockOut (s : State) (b : Byte) (k : Bool) : (completeXfer b k s).unlockOut = s.unlockOut := rfl
@[simp] theorem completeXfer_tagType (s : State) (b : Byte) (k : Bool) : (completeXfer b k s).tagType = s.tagType := rfl
@[simp] theorem completeXfer_uidBuf (s : State) (b : Byte) (k : Bool) : (completeXfer b k s).uidBuf = s.uidBuf := rfl
@[simp] theorem completeXfer_pollCount (s : State) (b : Byte) (k : Bool) : (completeXfer b k s).pollCount = s.pollCount := rfl
@[simp] theorem completeXfer_trace (s : State) (b : Byte) (k : Bool) : (completeXfer b k s).trace = s.trace ++ [.xfer b (nextAnswer s)] := rfl
@[simp] theorem completeXfer_hold (s : State) (b : Byte) (k : Bool) : (completeXfer b k s).hold = .free := rfl
@[simp] theorem completeXfer_v (s : State) (b : Byte) (k : Bool) : (completeXfer b k s).v = if k then nextAnswer s else s.v := rfl
@[simp] theorem completeXfer_out (s : State) (b : Byte) (k : Bool) : (completeXfer b k s).out = s.out := rfl
@[simp] theorem completeXfer_ret (s : State) (b : Byte) (k : Bool) : (completeXfer b k s).ret = s.ret := rfl
@[simp] theorem completeXfer_result (s : State) (b : Byte) (k : Bool) : (completeXfer b k s).result = s.result := rfl
@[simp] theorem completeXfer_cfg (s : State) (b : Byte) (k : Bool) : (completeXfer b k s).cfg = s.cfg := rfl
@[simp] theorem completeXfer_env (s : State) (b : Byte) (k : Bool) : (completeXfer b k s).env = s.env := rfl
@[simp] theorem completeXfer_answers (s : State) (b : Byte) (k : Bool) : (completeXfer b k s).answers = s.answers.tail := rfl
@[simp] theorem completeXfer_draws (s : State) (b : Byte) (k : Bool) : (completeXfer b k s).draws = s.draws + 1 := rfl
@[simp] theorem completeXfer_hostData (s : State) (b : Byte) (k : Bool) : (completeXfer b k s).hostData = s.hostData := rfl

@[simp] theorem completeDelay_cmd (s : State) : (completeDelay s).cmd = s.cmd := rfl
@[simp] theorem completeDelay_dataIn (s : State) : (completeDelay s).dataIn = s.dataIn := rfl
@[simp] theorem completeDelay_busy (s : State) : (completeDelay s).busy = s.busy := rfl
@[simp] theorem completeDelay_status (s : State) : (completeDelay s).status = s.status := rfl
@[simp] theorem completeDelay_overrun (s : State) : (completeDelay s).overrun = s.overrun := rfl
@[simp] theorem completeDelay_rdata (s : State) : (completeDelay s).rdata = s.rdata := rfl
@[simp] theorem completeDelay_resp (s : State) : (completeDelay s).resp = s.resp := rfl
@[simp] theorem completeDelay_respLen (s : State) : (completeDelay s).respLen = s.respLen := rfl
@[simp] theorem completeDelay_polls (s : State) : (completeDelay s).polls = s.polls := rfl
@[simp] theorem completeDelay_op (s : State) : (completeDelay s).op = s.op := rfl
@[simp] theorem completeDelay_seq (s : State) : (completeDelay s).seq = s.seq := rfl
@[simp] theorem completeDelay_running (s : State) : (completeDelay s).running = s.running := rfl
@[simp] theorem completeDelay_cs (s : State) : (completeDelay s).cs = s.cs := rfl
@[simp] theorem completeDelay_xfers (s : State) : (completeDelay s).xfers = s.xfers := rfl
@[simp] theorem completeDelay_lockState (s : State) : (completeDelay s).lockState = s.lockState := rfl
@[simp] theorem completeDelay_ctrlState (s : State) : (completeDelay s).ctrlState = s.ctrlState := rfl
@[simp] theorem completeDelay_lockOut (s : State) : (completeDelay s).lockOut = s.lockOut := rfl
@[simp] theorem completeDelay_unlockOut (s : State) : (completeDelay s).unlockOut = s.unlockOut := rfl
@[simp] theorem completeDelay_tagType (s : State) : (completeDelay s).tagType = s.tagType := rfl
@[simp] theorem completeDelay_uidBuf (s : State) : (completeDelay s).uidBuf = s.uidBuf := rfl
@[simp] theorem completeDelay_pollCount (s : State) : (completeDelay s).pollCount = s.pollCount := rfl
@[simp] theorem completeDelay_trace (s : State) : (completeDelay s).trace = s.trace := rfl
@[simp] theorem completeDelay_hold (s : State) : (completeDelay s).hold = .free := rfl
@[simp] theorem completeDelay_v (s : State) : (completeDelay s).v = s.v := rfl
@[simp] theorem completeDelay_out (s : State) : (completeDelay s).out = s.out := rfl
@[simp] theorem completeDelay_ret (s : State) : (completeDelay s).ret = s.ret := rfl
@[simp] theorem completeDelay_result (s : State) : (completeDelay s).result = s.result := rfl
@[simp] theorem completeDelay_cfg (s : State) : (completeDelay s).cfg = s.cfg := rfl
@[simp] theorem completeDelay_env (s : State) : (completeDelay s).env = s.env := rfl
@[simp] theorem completeDelay_answers (s : State) : (completeDelay s).answers = s.answers := rfl
@[simp] theorem completeDelay_draws (s : State) : (completeDelay s).draws = s.draws := rfl
@[simp] theorem completeDelay_hostData (s : State) : (completeDelay s).hostData = s.hostData := rfl

@[simp] theorem pollBegin_cmd (s : State) : (pollBegin s).cmd = s.cmd := rfl
@[simp] theorem pollBegin_dataIn (s : State) : (pollBegin s).dataIn = s.dataIn := rfl
@[simp] theorem pollBegin_busy (s : State) : (pollBegin s).busy = s.busy := rfl
@[simp] theorem pollBegin_status (s : State) : (pollBegin s).status = s.status := rfl
@[simp] theorem pollBegin_overrun (s : State) : (pollBegin s).overrun = s.overrun := rfl
@[simp] theorem pollBegin_rdata (s : State) : (pollBegin s).rdata = s.rdata := rfl
@[simp] theorem pollBegin_resp (s : State) : (pollBegin s).resp = s.resp := rfl
@[simp] theorem pollBegin_respLen (s : State) : (pollBegin s).respLen = s.respLen := rfl
@[simp] theorem pollBegin_polls (s : State) : (pollBegin s).polls = s.polls := rfl
@[simp] theorem pollBegin_op (s : State) : (pollBegin s).op = s.op := rfl
@[simp] theorem pollBegin_seq (s : State) : (pollBegin s).seq = s.seq := rfl
@[simp] theorem pollBegin_running (s : State) : (pollBegin s).running = s.running := rfl
@[simp] theorem pollBegin_cs (s : State) : (pollBegin s).cs = s.cs := rfl
@[simp] theorem pollBegin_xfers (s : State) : (pollBegin s).xfers = s.xfers := rfl
@[simp] theorem pollBegin_lockState (s : State) : (pollBegin s).lockState = s.lockState := rfl
@[simp] theorem pollBegin_ctrlState (s : State) : (pollBegin s).ctrlState = s.ctrlState := rfl
@[simp] theorem pollBegin_lockOut (s : State) : (pollBegin s).lockOut = s.lockOut := rfl
@[simp] theorem pollBegin_unlockOut (s : State) : (pollBegin s).unlockOut = s.unlockOut := rfl
@[simp] theorem pollBegin_tagType (s : State) : (pollBegin s).tagType = s.tagType := rfl
@[simp] theorem pollBegin_uidBuf (s : State) : (pollBegin s).uidBuf = s.uidBuf := rfl
@[simp] theorem pollBegin_pollCount (s : State) : (pollBegin s).pollCount = 0#16 := rfl
@[simp] theorem pollBegin_trace (s : State) : (pollBegin s).trace = s.trace := rfl
@[simp] theorem pollBegin_hold (s : State) : (pollBegin s).hold = s.hold := rfl
@[simp] theorem pollBegin_v (s : State) : (pollBegin s).v = s.v := rfl
@[simp] theorem pollBegin_out (s : State) : (pollBegin s).out = s.out := rfl
@[simp] theorem pollBegin_ret (s : State) : (pollBegin s).ret = s.ret := rfl
@[simp] theorem pollBegin_result (s : State) : (pollBegin s).result = s.result := rfl
@[simp] theorem pollBegin_cfg (s : State) : (pollBegin s).cfg = s.cfg := rfl
@[simp] theorem pollBegin_env (s : State) : (pollBegin s).env = s.env := rfl
@[simp] theorem pollBegin_answers (s : State) : (pollBegin s).answers = s.answers := rfl
@[simp] theorem pollBegin_draws (s : State) : (pollBegin s).draws = s.draws := rfl
@[simp] theorem pollBegin_hostData (s : State) : (pollBegin s).hostData = s.hostData := rfl

@[simp] theorem pollIncrement_cmd (s : State) : (pollIncrement s).cmd = s.cmd := rfl
@[simp] theorem pollIncrement_dataIn (s : State) : (pollIncrement s).dataIn = s.dataIn := rfl
@[simp] theorem pollIncrement_busy (s : State) : (pollIncrement s).busy = s.busy := rfl
@[simp] theorem pollIncrement_status (s : State) : (pollIncrement s).status = s.status := rfl
@[simp] theorem pollIncrement_overrun (s : State) : (pollIncrement s).overrun = s.overrun := rfl
@[simp] theorem pollIncrement_rdata (s : State) : (pollIncrement s).rdata = s.rdata := rfl
@[simp] theorem pollIncrement_resp (s : State) : (pollIncrement s).resp = s.resp := rfl
@[simp] theorem pollIncrement_respLen (s : State) : (pollIncrement s).respLen = s.respLen := rfl
@[simp] theorem pollIncrement_polls (s : State) : (pollIncrement s).polls = s.polls := rfl
@[simp] theorem pollIncrement_op (s : State) : (pollIncrement s).op = s.op := rfl
@[simp] theorem pollIncrement_seq (s : State) : (pollIncrement s).seq = s.seq := rfl
@[simp] theorem pollIncrement_running (s : State) : (pollIncrement s).running = s.running := rfl
@[simp] theorem pollIncrement_cs (s : State) : (pollIncrement s).cs = s.cs := rfl
@[simp] theorem pollIncrement_xfers (s : State) : (pollIncrement s).xfers = s.xfers := rfl
@[simp] theorem pollIncrement_lockState (s : State) : (pollIncrement s).lockState = s.lockState := rfl
@[simp] theorem pollIncrement_ctrlState (s : State) : (pollIncrement s).ctrlState = s.ctrlState := rfl
@[simp] theorem pollIncrement_lockOut (s : State) : (pollIncrement s).lockOut = s.lockOut := rfl
@[simp] theorem pollIncrement_unlockOut (s : State) : (pollIncrement s).unlockOut = s.unlockOut := rfl
@[simp] theorem pollIncrement_tagType (s : State) : (pollIncrement s).tagType = s.tagType := rfl
@[simp] theorem pollIncrement_uidBuf (s : State) : (pollIncrement s).uidBuf = s.uidBuf := rfl
@[simp] theorem pollIncrement_pollCount (s : State) : (pollIncrement s).pollCount = s.pollCount + 1#16 := rfl
@[simp] theorem pollIncrement_trace (s : State) : (pollIncrement s).trace = s.trace := rfl
@[simp] theorem pollIncrement_hold (s : State) : (pollIncrement s).hold = s.hold := rfl
@[simp] theorem pollIncrement_v (s : State) : (pollIncrement s).v = s.v := rfl
@[simp] theorem pollIncrement_out (s : State) : (pollIncrement s).out = s.out := rfl
@[simp] theorem pollIncrement_ret (s : State) : (pollIncrement s).ret = s.ret := rfl
@[simp] theorem pollIncrement_result (s : State) : (pollIncrement s).result = s.result := rfl
@[simp] theorem pollIncrement_cfg (s : State) : (pollIncrement s).cfg = s.cfg := rfl
@[simp] theorem pollIncrement_env (s : State) : (pollIncrement s).env = s.env := rfl
@[simp] theorem pollIncrement_answers (s : State) : (pollIncrement s).answers = s.answers := rfl
@[simp] theorem pollIncrement_draws (s : State) : (pollIncrement s).draws = s.draws := rfl
@[simp] theorem pollIncrement_hostData (s : State) : (pollIncrement s).hostData = s.hostData := rfl

@[simp] theorem pollEnd_cmd (s : State) (r : Ret) : (pollEnd r s).cmd = s.cmd := rfl
@[simp] theorem pollEnd_dataIn (s : State) (r : Ret) : (pollEnd r s).dataIn = s.dataIn := rfl
@[simp] theorem pollEnd_busy (s : State) (r : Ret) : (pollEnd r s).busy = s.busy := rfl
@[simp] theorem pollEnd_status (s : State) (r : Ret) : (pollEnd r s).status = s.status := rfl
@[simp] theorem pollEnd_overrun (s : State) (r : Ret) : (pollEnd r s).overrun = s.overrun := rfl
@[simp] theorem pollEnd_rdata (s : State) (r : Ret) : (pollEnd r s).rdata = s.rdata := rfl
@[simp] theorem pollEnd_resp (s : State) (r : Ret) : (pollEnd r s).resp = s.resp := rfl
@[simp] theorem pollEnd_respLen (s : State) (r : Ret) : (pollEnd r s).respLen = s.respLen := rfl
@[simp] theorem pollEnd_polls (s : State) (r : Ret) : (pollEnd r s).polls = s.pollCount := rfl
@[simp] theorem pollEnd_op (s : State) (r : Ret) : (pollEnd r s).op = s.op := rfl
@[simp] theorem pollEnd_seq (s : State) (r : Ret) : (pollEnd r s).seq = s.seq := rfl
@[simp] theorem pollEnd_running (s : State) (r : Ret) : (pollEnd r s).running = s.running := rfl
@[simp] theorem pollEnd_cs (s : State) (r : Ret) : (pollEnd r s).cs = s.cs := rfl
@[simp] theorem pollEnd_xfers (s : State) (r : Ret) : (pollEnd r s).xfers = s.xfers := rfl
@[simp] theorem pollEnd_lockState (s : State) (r : Ret) : (pollEnd r s).lockState = s.lockState := rfl
@[simp] theorem pollEnd_ctrlState (s : State) (r : Ret) : (pollEnd r s).ctrlState = s.ctrlState := rfl
@[simp] theorem pollEnd_lockOut (s : State) (r : Ret) : (pollEnd r s).lockOut = s.lockOut := rfl
@[simp] theorem pollEnd_unlockOut (s : State) (r : Ret) : (pollEnd r s).unlockOut = s.unlockOut := rfl
@[simp] theorem pollEnd_tagType (s : State) (r : Ret) : (pollEnd r s).tagType = s.tagType := rfl
@[simp] theorem pollEnd_uidBuf (s : State) (r : Ret) : (pollEnd r s).uidBuf = s.uidBuf := rfl
@[simp] theorem pollEnd_pollCount (s : State) (r : Ret) : (pollEnd r s).pollCount = s.pollCount := rfl
@[simp] theorem pollEnd_trace (s : State) (r : Ret) : (pollEnd r s).trace = s.trace := rfl
@[simp] theorem pollEnd_hold (s : State) (r : Ret) : (pollEnd r s).hold = s.hold := rfl
@[simp] theorem pollEnd_v (s : State) (r : Ret) : (pollEnd r s).v = s.v := rfl
@[simp] theorem pollEnd_out (s : State) (r : Ret) : (pollEnd r s).out = s.out := rfl
@[simp] theorem pollEnd_ret (s : State) (r : Ret) : (pollEnd r s).ret = r := rfl
@[simp] theorem pollEnd_result (s : State) (r : Ret) : (pollEnd r s).result = s.result := rfl
@[simp] theorem pollEnd_cfg (s : State) (r : Ret) : (pollEnd r s).cfg = s.cfg := rfl
@[simp] theorem pollEnd_env (s : State) (r : Ret) : (pollEnd r s).env = s.env := rfl
@[simp] theorem pollEnd_answers (s : State) (r : Ret) : (pollEnd r s).answers = s.answers := rfl
@[simp] theorem pollEnd_draws (s : State) (r : Ret) : (pollEnd r s).draws = s.draws := rfl
@[simp] theorem pollEnd_hostData (s : State) (r : Ret) : (pollEnd r s).hostData = s.hostData := rfl

@[simp] theorem retire_cmd (s : State) : (retire s).cmd = s.cmd := rfl
@[simp] theorem retire_dataIn (s : State) : (retire s).dataIn = s.dataIn := rfl
@[simp] theorem retire_busy (s : State) : (retire s).busy = false := rfl
@[simp] theorem retire_status (s : State) : (retire s).status = s.status := rfl
@[simp] theorem retire_overrun (s : State) : (retire s).overrun = s.overrun := rfl
@[simp] theorem retire_rdata (s : State) : (retire s).rdata = s.rdata := rfl
@[simp] theorem retire_resp (s : State) : (retire s).resp = s.resp := rfl
@[simp] theorem retire_respLen (s : State) : (retire s).respLen = s.respLen := rfl
@[simp] theorem retire_polls (s : State) : (retire s).polls = s.polls := rfl
@[simp] theorem retire_op (s : State) : (retire s).op = none := rfl
@[simp] theorem retire_seq (s : State) : (retire s).seq = s.seq := rfl
@[simp] theorem retire_running (s : State) : (retire s).running = false := rfl
@[simp] theorem retire_cs (s : State) : (retire s).cs = s.cs := rfl
@[simp] theorem retire_xfers (s : State) : (retire s).xfers = s.xfers := rfl
@[simp] theorem retire_lockState (s : State) : (retire s).lockState = s.lockState := rfl
@[simp] theorem retire_ctrlState (s : State) : (retire s).ctrlState = s.ctrlState := rfl
@[simp] theorem retire_lockOut (s : State) : (retire s).lockOut = s.lockOut := rfl
@[simp] theorem retire_unlockOut (s : State) : (retire s).unlockOut = s.unlockOut := rfl
@[simp] theorem retire_tagType (s : State) : (retire s).tagType = s.tagType := rfl
@[simp] theorem retire_uidBuf (s : State) : (retire s).uidBuf = s.uidBuf := rfl
@[simp] theorem retire_pollCount (s : State) : (retire s).pollCount = s.pollCount := rfl
@[simp] theorem retire_trace (s : State) : (retire s).trace = s.trace := rfl
@[simp] theorem retire_hold (s : State) : (retire s).hold = s.hold := rfl
@[simp] theorem retire_v (s : State) : (retire s).v = s.v := rfl
@[simp] theorem retire_out (s : State) : (retire s).out = s.out := rfl
@[simp] theorem retire_ret (s : State) : (retire s).ret = s.ret := rfl
@[simp] theorem retire_result (s : State) : (retire s).result = s.result := rfl
@[simp] theorem retire_cfg (s : State) : (retire s).cfg = s.cfg := rfl
@[simp] theorem retire_env (s : State) : (retire s).env = s.env := rfl
@[simp] theorem retire_answers (s : State) : (retire s).answers = s.answers := rfl
@[simp] theorem retire_draws (s : State) : (retire s).draws = s.draws := rfl
@[simp] theorem retire_hostData (s : State) : (retire s).hostData = s.hostData := rfl

@[simp] theorem overrun_cmd (s : State) : (overrun s).cmd = s.cmd := rfl
@[simp] theorem overrun_dataIn (s : State) : (overrun s).dataIn = s.dataIn := rfl
@[simp] theorem overrun_busy (s : State) : (overrun s).busy = s.busy := rfl
@[simp] theorem overrun_status (s : State) : (overrun s).status = s.status := rfl
@[simp] theorem overrun_overrun (s : State) : (overrun s).overrun = true := rfl
@[simp] theorem overrun_rdata (s : State) : (overrun s).rdata = s.rdata := rfl
@[simp] theorem overrun_resp (s : State) : (overrun s).resp = s.resp := rfl
@[simp] theorem overrun_respLen (s : State) : (overrun s).respLen = s.respLen := rfl
@[simp] theorem overrun_polls (s : State) : (overrun s).polls = s.polls := rfl
@[simp] theorem overrun_op (s : State) : (overrun s).op = s.op := rfl
@[simp] theorem overrun_seq (s : State) : (overrun s).seq = s.seq := rfl
@[simp] theorem overrun_running (s : State) : (overrun s).running = s.running := rfl
@[simp] theorem overrun_cs (s : State) : (overrun s).cs = s.cs := rfl
@[simp] theorem overrun_xfers (s : State) : (overrun s).xfers = s.xfers := rfl
@[simp] theorem overrun_lockState (s : State) : (overrun s).lockState = s.lockState := rfl
@[simp] theorem overrun_ctrlState (s : State) : (overrun s).ctrlState = s.ctrlState := rfl
@[simp] theorem overrun_lockOut (s : State) : (overrun s).lockOut = s.lockOut := rfl
@[simp] theorem overrun_unlockOut (s : State) : (overrun s).unlockOut = s.unlockOut := rfl
@[simp] theorem overrun_tagType (s : State) : (overrun s).tagType = s.tagType := rfl
@[simp] theorem overrun_uidBuf (s : State) : (overrun s).uidBuf = s.uidBuf := rfl
@[simp] theorem overrun_pollCount (s : State) : (overrun s).pollCount = s.pollCount := rfl
@[simp] theorem overrun_trace (s : State) : (overrun s).trace = s.trace ++ [.overrun] := rfl
@[simp] theorem overrun_hold (s : State) : (overrun s).hold = s.hold := rfl
@[simp] theorem overrun_v (s : State) : (overrun s).v = s.v := rfl
@[simp] theorem overrun_out (s : State) : (overrun s).out = s.out := rfl
@[simp] theorem overrun_ret (s : State) : (overrun s).ret = s.ret := rfl
@[simp] theorem overrun_result (s : State) : (overrun s).result = s.result := rfl
@[simp] theorem overrun_cfg (s : State) : (overrun s).cfg = s.cfg := rfl
@[simp] theorem overrun_env (s : State) : (overrun s).env = s.env := rfl
@[simp] theorem overrun_answers (s : State) : (overrun s).answers = s.answers := rfl
@[simp] theorem overrun_draws (s : State) : (overrun s).draws = s.draws := rfl
@[simp] theorem overrun_hostData (s : State) : (overrun s).hostData = s.hostData := rfl

end Sys2Proof.Machine
end

