-- ==== Sys2Proof/Laws/Run.lean ====
section
/-! SUPPORT. How an operation's code runs: a burst taken apart into atomic steps, pieces of code at a place, and what one
register transaction, one delay and one bounded poll do to the state. Result proofs chain these. -/

namespace Sys2Proof.Machine

/-! ## Bursts -/

theorem burst_step {p : Code} {n : Nat} {s t : State} (h : atom p s = .next t) (hr : rests p s t = false) :
    burst p (n + 1) s = burst p n t := by
  simp [burst, h, hr]

theorem burst_rest {p : Code} {n : Nat} {s t : State} (h : atom p s = .next t) (hr : rests p s t = true) :
    burst p (n + 1) s = .next t := by
  simp [burst, h, hr]

/-- From `s` the code `p` gets to `t` in exactly `k` atomic steps without resting. -/
def Runs (p : Code) (k : Nat) (s t : State) : Prop := ∀ n, burst p (n + k) s = burst p n t

theorem Runs.nil {p : Code} (s : State) : Runs p 0 s s := fun _ => rfl

theorem Runs.append {p : Code} {k l : Nat} {s t u : State} (h : Runs p k s t) (h' : Runs p l t u) : Runs p (k + l) s u := by
  intro n
  rw [show n + (k + l) = (n + l) + k by omega, h (n + l), h' n]

theorem Runs.one {p : Code} {s t : State} (h : atom p s = .next t) (hr : rests p s t = false) : Runs p 1 s t :=
  fun _ => burst_step h hr

theorem Runs.cast {p : Code} {k l : Nat} {s t u : State} (h : Runs p k s t) (hk : k = l) (ht : t = u) : Runs p l s u := by
  subst hk ht; exact h

/-- From `s` to `t` in at most `K` atomic steps without resting. -/
def Gets (p : Code) (K : Nat) (s t : State) : Prop := ∃ k, k ≤ K ∧ Runs p k s t

theorem Runs.gets {p : Code} {k : Nat} {s t : State} (h : Runs p k s t) : Gets p k s t := ⟨k, Nat.le_refl k, h⟩

theorem Gets.nil {p : Code} (s : State) : Gets p 0 s s := (Runs.nil s).gets

theorem Gets.append {p : Code} {K L : Nat} {s t u : State} (h : Gets p K s t) (h' : Gets p L t u) : Gets p (K + L) s u := by
  obtain ⟨k, hk, h⟩ := h
  obtain ⟨l, hl, h'⟩ := h'
  exact ⟨k + l, by omega, h.append h'⟩

theorem Gets.cast {p : Code} {K L : Nat} {s t u : State} (h : Gets p K s t) (hk : K ≤ L) (ht : t = u) : Gets p L s u := by
  obtain ⟨k, hk', h⟩ := h
  exact ⟨k, by omega, ht ▸ h⟩

/-- A whole run: `k` atomic steps, then one after which the block rests. -/
theorem perform_of_runs {p : Code} {k : Nat} {s t u : State} (h : Runs p k s t) (hk : k < burstBound)
    (ha : atom p t = .next u) (hr : rests p t u = true) : perform p s = .next u := by
  obtain ⟨n, hn⟩ : ∃ n, burstBound = (n + 1) + k := ⟨burstBound - k - 1, by omega⟩
  rw [perform, hn, h (n + 1), burst_rest ha hr]

theorem perform_of_gets {p : Code} {K : Nat} {s t u : State} (h : Gets p K s t) (hk : K < burstBound)
    (ha : atom p t = .next u) (hr : rests p t u = true) : perform p s = .next u := by
  obtain ⟨k, hk', h⟩ := h
  exact perform_of_runs h (by omega) ha hr

/-! ## A piece of code at a place -/

/-- The piece `q` stands in the code `p` from step `n` on. -/
def CodeAt (p : Code) (n : Nat) (q : Code) : Prop := ∀ j, j < q.length → p[n + j]? = q[j]?

theorem CodeAt.whole (p : Code) : CodeAt p 0 p := fun j _ => by simp

theorem CodeAt.left {p : Code} {n : Nat} {q r : Code} (h : CodeAt p n (q ++ r)) : CodeAt p n q := fun j hj => by
  rw [h j (by simp; omega), List.getElem?_append_left hj]

theorem CodeAt.right {p : Code} {n : Nat} {q r : Code} (h : CodeAt p n (q ++ r)) : CodeAt p (n + q.length) r := fun j hj => by
  rw [Nat.add_assoc, h (q.length + j) (by simp; omega), List.getElem?_append_right (by omega)]
  congr 1; omega

theorem CodeAt.head {p : Code} {n : Nat} {m : Micro} {q : Code} (h : CodeAt p n (m :: q)) : p[n]? = some m := by
  simpa using h 0 (by simp)

theorem CodeAt.tail {p : Code} {n : Nat} {m : Micro} {q : Code} (h : CodeAt p n (m :: q)) : CodeAt p (n + 1) q := fun j hj => by
  have := h (j + 1) (by simpa using hj)
  simpa [Nat.add_assoc, Nat.add_comm 1] using this

/-! ## Single steps -/

/-- A step of the sequencer that does not end anything. -/
theorem Runs.micro {p : Code} {s t : State} {m : Micro} (hp : p[s.seq]? = some m) (hold : s.hold = .free)
    (he : execMicro m s = .next t) (hop : t.op.isSome = true) (hw : awaiting t = false) (hm : ∀ n, m ≠ .restart n) :
    Runs p 1 s t := by
  refine Runs.one (by simp [atom, hold, hp, he]) ?_
  have : closesRound p s = false := by
    unfold closesRound
    rw [hold, hp]
    cases m <;> simp_all
  simp [rests, hw, this, hop]

/-- A step that ends the operation ends the burst. -/
theorem perform_ends {p : Code} {K : Nat} {s t u : State} {m : Micro} (h : Gets p K s t) (hk : K < burstBound)
    (hp : p[t.seq]? = some m) (hold : t.hold = .free) (he : execMicro m t = .next u) (hop : u.op = none) :
    perform p s = .next u :=
  perform_of_gets h hk (by simp [atom, hold, hp, he]) (by simp [rests, hop])

theorem awaiting_of_free {s : State} (h : s.hold = .free) : awaiting s = false := by simp [awaiting, h]

/-! ## Register transactions -/

/-- The state after `Select()`. -/
theorem runs_select {p : Code} {s : State} (hp : p[s.seq]? = some .select) (hold : s.hold = .free)
    (hop : s.op.isSome = true) (hcs : s.cs = false) :
    Runs p 1 s { s with cs := true, xfers := 0, trace := s.trace ++ [.sel], seq := s.seq + 1 } :=
  Runs.micro hp hold (by simp [execMicro, select, hcs, onNext, State.advance]) (by simpa using hop)
    (awaiting_of_free hold) (by simp)

/-- The state after `Deselect()`. -/
theorem runs_deselect {p : Code} {s : State} (hp : p[s.seq]? = some .deselect) (hold : s.hold = .free)
    (hop : s.op.isSome = true) (hcs : s.cs = true) (hx : s.xfers = 2) :
    Runs p 1 s { s with cs := false, xfers := 0, trace := s.trace ++ [.desel], seq := s.seq + 1 } :=
  Runs.micro hp hold (by simp [execMicro, deselect, hcs, hx, onNext, State.advance]) (by simpa using hop)
    (awaiting_of_free hold) (by simp)

/-- One `Xfer` whose answer is prepared: issued, and completed by the bus agent. -/
theorem runs_xfer {p : Code} {s : State} {x : Src} {keep : Bool} {b y : Byte} {rest : List Byte}
    (hp : p[s.seq]? = some (if keep then .xferKeep x else .xferDrop x)) (hold : s.hold = .free) (hop : s.op.isSome = true)
    (hcs : s.cs = true) (hx : s.xfers < 2) (hb : srcByte x s = some b) (ha : s.answers = y :: rest) :
    Runs p 2 s { s with
      hold := .free, xfers := s.xfers + 1, v := if keep then y else s.v, trace := s.trace ++ [.xfer b y]
      answers := rest, draws := s.draws + 1, seq := s.seq + 1 } := by
  have h1 : Runs p 1 s { s with hold := .bus b keep } := by
    cases keep <;>
    · refine Runs.micro (by simpa using hp) hold (by simp [execMicro, startXfer, hcs, hx, hb]) hop
        (by simp [awaiting, ha]) (by simp)
  refine h1.append (Runs.one (by simp [atom, completeXfer, nextAnswer, ha]) ?_)
  have hc : closesRound p { s with hold := .bus b keep } = false := by simp [closesRound]
  have hn : s.op.isNone = false := by simpa using hop
  simp [rests, hc, awaiting, hn]

/-- A write transaction (R126) with its two answers prepared. -/
theorem runs_writeReg {p : Code} {s : State} {a : Addr} {x : Src} {b y z : Byte} {rest : List Byte}
    (hc : CodeAt p s.seq (writeReg a x)) (hold : s.hold = .free) (hop : s.op.isSome = true) (hcs : s.cs = false)
    (hb : srcByte x s = some b) (ha : s.answers = y :: z :: rest) :
    Runs p 6 s { s with
      hold := .free, cs := false, xfers := 0, trace := s.trace ++ writeEvents a b y z, answers := rest
      draws := s.draws + 2, seq := s.seq + 4 } := by
  have h1 := runs_select hc.head hold hop hcs
  have h2 := runs_xfer (p := p) (keep := false) (x := .imm (frame a false)) (b := frame a false) (y := y) (rest := z :: rest)
    (s := { s with cs := true, xfers := 0, trace := s.trace ++ [.sel], seq := s.seq + 1 })
    (by simpa using hc.tail.head) hold hop rfl (by simp) rfl ha
  have h3 := runs_xfer (p := p) (keep := false) (x := x) (b := b) (y := z) (rest := rest)
    (s := { s with
      hold := .free, cs := true, xfers := 1, trace := s.trace ++ [.sel] ++ [.xfer (frame a false) y]
      answers := z :: rest, draws := s.draws + 1, seq := s.seq + 1 + 1 })
    (by simpa using hc.tail.tail.head) rfl hop rfl (by simp) (by cases x <;> simpa [srcByte] using hb) rfl
  have h4 := runs_deselect (p := p)
    (s := { s with
      hold := .free, cs := true, xfers := 2
      trace := s.trace ++ [.sel] ++ [.xfer (frame a false) y] ++ [.xfer b z]
      answers := rest, draws := s.draws + 1 + 1, seq := s.seq + 1 + 1 + 1 })
    (by simpa using hc.tail.tail.tail.head) rfl hop rfl rfl
  have := ((h1.append h2).append h3).append h4
  simpa [writeEvents] using this

/-- A read transaction (R124) with its two answers prepared: the second one is the value (R125). -/
theorem runs_readReg {p : Code} {s : State} {a : Addr} {y z : Byte} {rest : List Byte}
    (hc : CodeAt p s.seq (readReg s.cfg a)) (hold : s.hold = .free) (hop : s.op.isSome = true) (hcs : s.cs = false)
    (ha : s.answers = y :: z :: rest) :
    Runs p 6 s { s with
      hold := .free, cs := false, xfers := 0, v := z, trace := s.trace ++ readEvents s.cfg a y z, answers := rest
      draws := s.draws + 2, seq := s.seq + 4 } := by
  have h1 := runs_select hc.head hold hop hcs
  have h2 := runs_xfer (p := p) (keep := false) (x := .imm (frame a true)) (b := frame a true) (y := y) (rest := z :: rest)
    (s := { s with cs := true, xfers := 0, trace := s.trace ++ [.sel], seq := s.seq + 1 })
    (by simpa using hc.tail.head) hold hop rfl (by simp) rfl ha
  have h3 := runs_xfer (p := p) (keep := true) (x := .imm s.cfg.dummyByte) (b := s.cfg.dummyByte) (y := z) (rest := rest)
    (s := { s with
      hold := .free, cs := true, xfers := 1, trace := s.trace ++ [.sel] ++ [.xfer (frame a true) y]
      answers := z :: rest, draws := s.draws + 1, seq := s.seq + 1 + 1 })
    (by simpa using hc.tail.tail.head) rfl hop rfl (by simp) rfl rfl
  have h4 := runs_deselect (p := p)
    (s := { s with
      hold := .free, cs := true, xfers := 2, v := z
      trace := s.trace ++ [.sel] ++ [.xfer (frame a true) y] ++ [.xfer s.cfg.dummyByte z]
      answers := rest, draws := s.draws + 1 + 1, seq := s.seq + 1 + 1 + 1 })
    (by simpa using hc.tail.tail.tail.head) rfl hop rfl rfl
  have := ((h1.append h2).append h3).append h4
  simpa [readEvents] using this

end Sys2Proof.Machine
end

