-- ==== Sys2Proof/Laws/Blocks.lean ====
section
/-! SUPPORT. What whole blocks of pseudocode do when the reader's answers are prepared: runs of register writes, the bounded
poll (R140, R141), FIFO reads, `Transceive` (R153), the bodies of REQUEST and ANTICOLL. -/

namespace Sys2Proof.Machine

/-! ## Progress of the sequencer through bus traffic -/

/-- `s` after events `ev` with no transaction open: `d` bytes drawn with `rest` left, `v` bound, `n` steps further on. -/
@[simps] def State.moved (s : State) (ev : List Event) (rest : List Byte) (d : Nat) (v : Byte) (n : Nat) : State :=
  { s with
    hold := .free, cs := false, xfers := 0, trace := s.trace ++ ev, answers := rest
    draws := s.draws + d, v := v, seq := s.seq + n }

@[simp] theorem readReg_length (c : Params) (a : Addr) : (readReg c a).length = 4 := rfl

@[simp] theorem writeReg_length (a : Addr) (x : Src) : (writeReg a x).length = 4 := rfl

theorem State.moved_moved (s : State) (e₁ e₂ : List Event) (r₁ r₂ : List Byte) (d₁ d₂ : Nat) (v₁ v₂ : Byte) (n₁ n₂ : Nat) :
    (s.moved e₁ r₁ d₁ v₁ n₁).moved e₂ r₂ d₂ v₂ n₂ = s.moved (e₁ ++ e₂) r₂ (d₁ + d₂) v₂ (n₁ + n₂) := by
  simp [State.moved, List.append_assoc, Nat.add_assoc]

/-- Ready for the next step of a code: an operation runs, nothing is waited for, no transaction is open. -/
structure Going (s : State) : Prop where
  op : s.op.isSome = true
  hold : s.hold = .free
  cs : s.cs = false
  xfers : s.xfers = 0

theorem Going.moved {s : State} (h : Going s) (e : List Event) (r : List Byte) (d : Nat) (v : Byte) (n : Nat) :
    Going (s.moved e r d v n) := ⟨h.op, rfl, rfl, rfl⟩

/-- Nothing happened. -/
theorem Going.moved_nil {s : State} (h : Going s) {r : List Byte} (hr : s.answers = r) : s.moved [] r 0 s.v 0 = s := by
  obtain ⟨-, h1, h2, h3⟩ := h
  cases s
  simp_all [State.moved]

theorem runs_write {p : Code} {s : State} {a : Addr} {x : Src} {b y z : Byte} {rest : List Byte}
    (hc : CodeAt p s.seq (writeReg a x)) (h : Going s) (hb : srcByte x s = some b) (ha : s.answers = y :: z :: rest) :
    Runs p 6 s (s.moved (writeEvents a b y z) rest 2 s.v 4) :=
  runs_writeReg hc h.hold h.op h.cs hb ha

theorem runs_read {p : Code} {s : State} {a : Addr} {y z : Byte} {rest : List Byte}
    (hc : CodeAt p s.seq (readReg s.cfg a)) (h : Going s) (ha : s.answers = y :: z :: rest) :
    Runs p 6 s (s.moved (readEvents s.cfg a y z) rest 2 z 4) :=
  runs_readReg hc h.hold h.op h.cs ha

/-- `Delay(ms)` as a piece of code: the event, and the timer completes it. -/
theorem runs_delay {p : Code} {s : State} {ms : Nat} (hc : CodeAt p s.seq (delay ms)) (h : Going s) :
    Runs p (2 * (delay ms).length) s (s.moved (delayEvents ms) s.answers 0 s.v (delay ms).length) := by
  by_cases hms : ms = 0
  · simpa [delay, delayEvents, hms, h.moved_nil rfl] using Runs.nil s
  · simp only [delay, hms, if_false] at hc ⊢
    have h1 : Runs p 1 s { s with hold := .timer, trace := s.trace ++ [.delay ms], seq := s.seq + 1 } :=
      Runs.micro hc.head h.hold (by simp [execMicro, startDelay, hms, State.advance]) (by simpa using h.op)
        (by simp [awaiting]) (by simp)
    refine h1.append (Runs.one (by simp [atom, completeDelay, State.moved, delayEvents, hms, h.cs, h.xfers]) ?_)
    have hn : s.op.isNone = false := by simpa using h.op
    simp [rests, awaiting, closesRound, State.moved, hn]

/-! ## A row of register writes -/

/-- Register writes of fixed bytes, one after the other. -/
def writeAll (ws : List (Addr × Byte)) : Code := (ws.map fun w => writeReg w.1 (.imm w.2)).flatten

theorem writeAll_cons (w : Addr × Byte) (ws : List (Addr × Byte)) :
    writeAll (w :: ws) = writeReg w.1 (.imm w.2) ++ writeAll ws := rfl

theorem writeAll_append (ws us : List (Addr × Byte)) : writeAll (ws ++ us) = writeAll ws ++ writeAll us := by
  simp [writeAll]

@[simp] theorem writeAll_length (ws : List (Addr × Byte)) : (writeAll ws).length = 4 * ws.length := by
  induction ws with
  | nil => rfl
  | cons w ws ih =>
    rw [writeAll_cons, List.length_append, ih]
    simp; omega

theorem runs_writeAll {p : Code} (ws : List (Addr × Byte)) : ∀ {s : State} {ps : List (Byte × Byte)} {rest : List Byte},
    CodeAt p s.seq (writeAll ws) → Going s → ps.length = ws.length → s.answers = flatPairs ps ++ rest →
    Runs p (6 * ws.length) s (s.moved (writeAllEvents ws ps) rest (2 * ws.length) s.v (4 * ws.length)) := by
  induction ws with
  | nil =>
    intro s ps rest _ h hl ha
    obtain rfl : ps = [] := by simpa using hl
    have := h.moved_nil (r := rest) (by simpa [flatPairs] using ha)
    simp only [writeAllEvents, List.length_nil, Nat.mul_zero, this]
    exact Runs.nil s
  | cons w ws ih =>
    intro s ps rest hc h hl ha
    obtain _ | ⟨q, ps⟩ := ps
    · simp at hl
    rw [writeAll_cons] at hc
    have h1 := runs_write hc.left h rfl (rest := flatPairs ps ++ rest) (by simpa [flatPairs] using ha)
    have h2 := ih (s := s.moved (writeEvents w.1 w.2 q.1 q.2) (flatPairs ps ++ rest) 2 s.v 4) (ps := ps) (rest := rest)
      (by simpa using hc.right) (h.moved ..) (by simpa using hl) rfl
    have := h1.append h2
    rw [State.moved_moved] at this
    rw [show 6 * (w :: ws).length = 6 + 6 * ws.length by simp; omega,
      show 2 * (w :: ws).length = 2 + 2 * ws.length by simp; omega,
      show 4 * (w :: ws).length = 4 + 4 * ws.length by simp; omega]
    exact this

/-! ## The bounded poll -/

/-- The code of a poll is laid out from step `n` on. -/
structure PollAt (p : Code) (n : Nat) (c : Params) (reg : Addr) (mask : Byte) (max ivl : Nat) : Prop where
  read : CodeAt p (n + 1) (readReg c reg)
  inc : p[n + 5]? = some .pollIncrement
  hit : p[n + 6]? = some (.pollHit mask ((delay ivl).length + 2))
  last : p[n + 7]? = some (.pollLast max ((delay ivl).length + 1))
  wait : CodeAt p (n + 8) (delay ivl)
  back : p[n + 8 + (delay ivl).length]? = some (.back ((delay ivl).length + 7))

theorem PollAt.of_codeAt {p : Code} {n : Nat} {c : Params} {reg : Addr} {mask : Byte} {max ivl : Nat}
    (h : CodeAt p n (poll c reg mask max ivl)) : PollAt p n c reg mask max ivl := by
  unfold poll at h
  have hr := h.left.left.left.right
  have h3 := h.left.left.right
  have hd := h.left.right
  have hb := h.right
  simp only [List.length_append, List.length_cons, List.length_nil, readReg_length] at hr h3 hd hb
  exact ⟨by simpa using hr, by simpa using h3.head, by simpa using h3.tail.head, by simpa using h3.tail.tail.head,
    by simpa using hd, by simpa [Nat.add_assoc] using hb.head⟩

/-- `s` after the poll's counter went up by `k` and the bus traffic of `State.moved`. -/
def State.polled (s : State) (k : Nat) (e : List Event) (r : List Byte) (d : Nat) (v : Byte) (n : Nat) : State :=
  { s.moved e r d v n with pollCount := s.pollCount + BitVec.ofNat 16 k }

theorem Going.polled {s : State} (h : Going s) (k : Nat) (e : List Event) (r : List Byte) (d : Nat) (v : Byte) (n : Nat) :
    Going (s.polled k e r d v n) := ⟨h.op, rfl, rfl, rfl⟩

theorem State.polled_polled (s : State) (k₁ k₂ : Nat) (e₁ e₂ : List Event) (r₁ r₂ : List Byte) (d₁ d₂ : Nat)
    (v₁ v₂ : Byte) (n₁ n₂ : Nat) :
    (s.polled k₁ e₁ r₁ d₁ v₁ n₁).polled k₂ e₂ r₂ d₂ v₂ n₂ =
      s.polled (k₁ + k₂) (e₁ ++ e₂) r₂ (d₁ + d₂) v₂ (n₁ + n₂) := by
  simp [State.polled, State.moved, List.append_assoc, Nat.add_assoc, BitVec.ofNat_add, BitVec.add_assoc]

/-- One read of a poll, counted. -/
theorem runs_poll_read {p : Code} {s : State} {n : Nat} {reg : Addr} {mask : Byte} {max ivl : Nat} {x v : Byte}
    {rest : List Byte} (hp : PollAt p n s.cfg reg mask max ivl) (hs : s.seq = n + 1) (h : Going s)
    (ha : s.answers = x :: v :: rest) :
    Runs p 7 s (s.polled 1 (readEvents s.cfg reg x v) rest 2 v 5) := by
  have h1 := runs_read (by rw [hs]; exact hp.read) h ha
  refine h1.append (Runs.micro (m := .pollIncrement) ?_ rfl ?_ ?_ ?_ (by simp))
  · rw [State.moved_seq, hs]; exact hp.inc
  · simp [execMicro, pollIncrement, State.advance, State.polled, State.moved]
  · exact h.op
  · exact awaiting_of_free rfl

/-- A read that misses and is not the last: the loop goes round. -/
theorem runs_poll_miss {p : Code} {s : State} {n : Nat} {reg : Addr} {mask : Byte} {max ivl : Nat} {x v : Byte}
    {rest : List Byte} (hp : PollAt p n s.cfg reg mask max ivl) (hs : s.seq = n + 1) (h : Going s)
    (ha : s.answers = x :: v :: rest) (hv : anyBit v mask = false) (hm : (s.pollCount + 1#16).toNat ≠ max) :
    Runs p (10 + 2 * (delay ivl).length) s
      (s.polled 1 (readEvents s.cfg reg x v ++ delayEvents ivl) rest 2 v 0) := by
  have h1 := runs_poll_read hp hs h ha
  have h2 : Runs p 1 (s.polled 1 (readEvents s.cfg reg x v) rest 2 v 5)
      (s.polled 1 (readEvents s.cfg reg x v) rest 2 v 6) := by
    refine Runs.micro (m := .pollHit mask ((delay ivl).length + 2)) ?_ rfl ?_ h.op (awaiting_of_free rfl) (by simp)
    · rw [show (s.polled 1 (readEvents s.cfg reg x v) rest 2 v 5).seq = n + 6 by simp [State.polled, hs]]; exact hp.hit
    · simp [execMicro, State.polled, State.moved, hv, State.advance]
  have h3 : Runs p 1 (s.polled 1 (readEvents s.cfg reg x v) rest 2 v 6)
      (s.polled 1 (readEvents s.cfg reg x v) rest 2 v 7) := by
    refine Runs.micro (m := .pollLast max ((delay ivl).length + 1)) ?_ rfl ?_ h.op (awaiting_of_free rfl) (by simp)
    · rw [show (s.polled 1 (readEvents s.cfg reg x v) rest 2 v 6).seq = n + 7 by simp [State.polled, hs]]; exact hp.last
    · have : ¬ (s.polled 1 (readEvents s.cfg reg x v) rest 2 v 6).pollCount.toNat = max := hm
      simp only [execMicro, this, if_false]
      rfl
  have h4 := runs_delay (p := p) (ms := ivl) (s := s.polled 1 (readEvents s.cfg reg x v) rest 2 v 7)
    (by rw [show (s.polled 1 (readEvents s.cfg reg x v) rest 2 v 7).seq = n + 8 by simp [State.polled, hs]]; exact hp.wait)
    (h.polled ..)
  have h5 : Runs p 1 ((s.polled 1 (readEvents s.cfg reg x v) rest 2 v 7).moved (delayEvents ivl) rest 0 v (delay ivl).length)
      (s.polled 1 (readEvents s.cfg reg x v ++ delayEvents ivl) rest 2 v 0) := by
    refine Runs.micro (m := .back ((delay ivl).length + 7)) ?_ rfl ?_ h.op (awaiting_of_free rfl) (by simp)
    · rw [show ((s.polled 1 (readEvents s.cfg reg x v) rest 2 v 7).moved (delayEvents ivl) rest 0 v (delay ivl).length).seq
        = n + 8 + (delay ivl).length by simp [State.polled, hs]]
      exact hp.back
    · simp [execMicro, State.polled, State.moved, List.append_assoc]; omega
  exact ((((h1.append h2).append h3).append h4).append h5).cast (by omega) rfl

theorem pollCount_succ {b : BitVec 16} {n max : Nat} (h : b.toNat + n < max) (hm : max ≤ 65535) :
    (b + 1#16).toNat = b.toNat + 1 := by
  rw [BitVec.toNat_add]; simp; omega

theorem polled_congr (s : State) {k k' d d' n n' : Nat} {e e' : List Event} (r : List Byte) (v : Byte)
    (hk : k = k') (he : e = e') (hd : d = d') (hn : n = n') : s.polled k e r d v n = s.polled k' e' r d' v n' := by
  subst hk he hd hn; rfl

/-- Reads that miss and a read that hits: the poll ends with Hit (R140, R141). -/
theorem runs_poll_hit {p : Code} {n : Nat} {reg : Addr} {mask : Byte} {max ivl : Nat} {hit : Byte × Byte}
    (hh : anyBit hit.2 mask = true) (ms : List (Byte × Byte)) : ∀ {s : State} {rest : List Byte},
    PollAt p n s.cfg reg mask max ivl → s.seq = n + 1 → Going s → s.answers = flatPairs (ms ++ [hit]) ++ rest →
    (∀ m ∈ ms, anyBit m.2 mask = false) → s.pollCount.toNat + ms.length < max → max ≤ 65535 →
    Runs p ((10 + 2 * (delay ivl).length) * ms.length + 8) s
      (pollEnd .ok (s.polled (ms.length + 1) (pollMissEvents s.cfg reg ivl ms ++ readEvents s.cfg reg hit.1 hit.2) rest
        (2 * ms.length + 2) hit.2 (8 + (delay ivl).length))) := by
  induction ms with
  | nil =>
    intro s rest hp hs h ha _ hc hmax
    have h1 := runs_poll_read hp hs h (x := hit.1) (v := hit.2) (rest := rest) (by simpa [flatPairs] using ha)
    simp only [List.length_nil, Nat.mul_zero, Nat.zero_add, pollMissEvents, List.nil_append]
    refine h1.append (Runs.micro (m := .pollHit mask ((delay ivl).length + 2)) ?_ rfl ?_ (by exact h.op) ?_ (by simp))
    · rw [show (s.polled 1 (readEvents s.cfg reg hit.1 hit.2) rest 2 hit.2 5).seq = n + 6 by simp [State.polled, hs]]
      exact hp.hit
    · simp [execMicro, State.polled, State.moved, hh, State.skip, pollEnd]; omega
    · exact awaiting_of_free rfl
  | cons m ms ih =>
    intro s rest hp hs h ha hms hc hmax
    simp only [List.length_cons] at hc
    have hm2 := pollCount_succ (b := s.pollCount) (n := ms.length + 1) hc hmax
    have h1 := runs_poll_miss hp hs h (x := m.1) (v := m.2) (rest := flatPairs (ms ++ [hit]) ++ rest)
      (by simpa [flatPairs] using ha) (hms m (by simp)) (by omega)
    have h2 := ih (s := s.polled 1 (readEvents s.cfg reg m.1 m.2 ++ delayEvents ivl) (flatPairs (ms ++ [hit]) ++ rest) 2 m.2 0)
      (rest := rest) hp hs (h.polled ..) rfl (fun m' h' => hms m' (by simp [h']))
      (show (s.pollCount + 1#16).toNat + ms.length < max by omega) hmax
    have := h1.append h2
    rw [State.polled_polled] at this
    refine this.cast (by simp [Nat.mul_succ]; omega) (congrArg (pollEnd .ok) (polled_congr s _ _ ?_ ?_ ?_ ?_))
    · simp; omega
    · simp [pollMissEvents, State.polled]
    · simp; omega
    · omega

/-- All the reads miss: the poll ends with Timeout after `max` of them (R140, R141). -/
theorem runs_poll_timeout {p : Code} {n : Nat} {reg : Addr} {mask : Byte} {max ivl : Nat}
    (ms : List (Byte × Byte)) : ∀ {s : State} {rest : List Byte} (m : Byte × Byte),
    PollAt p n s.cfg reg mask max ivl → s.seq = n + 1 → Going s → s.answers = flatPairs (m :: ms) ++ rest →
    (∀ m' ∈ m :: ms, anyBit m'.2 mask = false) → s.pollCount.toNat + (m :: ms).length = max → max ≤ 65535 →
    Runs p ((10 + 2 * (delay ivl).length) * ms.length + 9) s
      (pollEnd .timeout (s.polled (m :: ms).length (pollTimeoutEvents s.cfg reg ivl (m :: ms)) rest
        (2 * (m :: ms).length) ((m :: ms).getLast (by simp)).2 (8 + (delay ivl).length))) := by
  induction ms with
  | nil =>
    intro s rest m hp hs h ha hms hc hmax
    have h1 := runs_poll_read hp hs h (x := m.1) (v := m.2) (rest := rest) (by simpa [flatPairs] using ha)
    have hv : anyBit m.2 mask = false := hms m (by simp)
    have h2 : Runs p 1 (s.polled 1 (readEvents s.cfg reg m.1 m.2) rest 2 m.2 5)
        (s.polled 1 (readEvents s.cfg reg m.1 m.2) rest 2 m.2 6) := by
      refine Runs.micro (m := .pollHit mask ((delay ivl).length + 2)) ?_ rfl ?_ h.op (awaiting_of_free rfl) (by simp)
      · rw [show (s.polled 1 (readEvents s.cfg reg m.1 m.2) rest 2 m.2 5).seq = n + 6 by simp [State.polled, hs]]
        exact hp.hit
      · simp [execMicro, State.polled, State.moved, hv, State.advance]
    refine ((h1.append h2).append (Runs.micro (m := .pollLast max ((delay ivl).length + 1)) ?_ rfl ?_ ?_ ?_ (by simp))).cast
      (by simp) rfl
    · rw [show (s.polled 1 (readEvents s.cfg reg m.1 m.2) rest 2 m.2 6).seq = n + 7 by simp [State.polled, hs]]
      exact hp.last
    · have : (s.polled 1 (readEvents s.cfg reg m.1 m.2) rest 2 m.2 6).pollCount.toNat = max := by
        rw [← hc]; exact pollCount_succ (n := 0) (max := max) (by simp at hc; omega) hmax
      simp only [execMicro, this, if_true]
      simp [State.polled, State.moved, State.skip, pollEnd, pollTimeoutEvents]; omega
    · exact h.op
    · exact awaiting_of_free rfl
  | cons m' ms ih =>
    intro s rest m hp hs h ha hms hc hmax
    simp only [List.length_cons] at hc
    have hm2 := pollCount_succ (b := s.pollCount) (n := ms.length + 1) (max := max) (by omega) hmax
    have h1 := runs_poll_miss hp hs h (x := m.1) (v := m.2) (rest := flatPairs (m' :: ms) ++ rest)
      (by simpa [flatPairs] using ha) (hms m (by simp)) (by omega)
    have h2 := ih (s := s.polled 1 (readEvents s.cfg reg m.1 m.2 ++ delayEvents ivl) (flatPairs (m' :: ms) ++ rest) 2 m.2 0)
      (rest := rest) m' hp hs (h.polled ..) rfl (fun m'' h' => hms m'' (by simp at h'; simp [h']))
      (show (s.pollCount + 1#16).toNat + (m' :: ms).length = max by simp; omega) hmax
    have := h1.append h2
    rw [State.polled_polled] at this
    refine this.cast (by simp [Nat.mul_succ]; omega) (congrArg (pollEnd .timeout) ?_)
    have hl : (m :: m' :: ms).getLast (by simp) = (m' :: ms).getLast (by simp) := List.getLast_cons (List.cons_ne_nil _ _)
    rw [hl]
    refine polled_congr s _ _ ?_ ?_ ?_ ?_
    · simp; omega
    · simp [pollTimeoutEvents, State.polled]
    · simp; omega
    · omega

end Sys2Proof.Machine
end

