-- ==== Sys2Proof/Laws/Trace.lean ====
section
/-! SUPPORT. What the readings of a trace (`txns`, `delays`, `diags`, `outs`) make of the events of a block of code, and
what the encodings make of their own bytes. -/

namespace Sys2Proof.Machine

theorem decodeFrame_frame_read (a : Addr) : decodeFrame (frame a true) = .ok (.frameRead a) := by
  revert a; decide

theorem decodeFrame_frame_write (a : Addr) : decodeFrame (frame a false) = .ok (.frameWrite a) := by
  revert a; decide

@[simp] theorem txns_readEvents (c : Params) (a : Addr) (x v : Byte) (r : List Event) :
    txns (readEvents c a x v ++ r) = .read a v :: txns r := by
  simp [readEvents, txns, txnOf, decodeFrame_frame_read]

@[simp] theorem txns_writeEvents (a : Addr) (b x y : Byte) (r : List Event) :
    txns (writeEvents a b x y ++ r) = .write a b :: txns r := by
  simp [writeEvents, txns, txnOf, decodeFrame_frame_write]

end Sys2Proof.Machine
end

