-- ==== Sys2Proof/Laws/Exchange.lean ====
section
/-! SUPPORT. What `Transceive` (R153) does when the reader's answers are prepared, in its three endings, and what the bodies
of REQUEST (R155) and ANTICOLL (R162) make of them. -/

namespace Sys2Proof.Machine

/-! ## Lengths and plain steps -/

theorem delay_length_le (ms : Nat) : (delay ms).length ≤ 1 := by
  unfold delay; split <;> simp

/-- A plain step of the sequencer in a code at hand: it ends nothing and waits for nothing. -/
theorem Going.micro {p : Code} {s t : State} {m : Micro} (h : Going s) (hp : p[s.seq]? = some m)
    (he : execMicro m s = .next t) (ht : Going t) (hm : ∀ n, m ≠ .restart n) : Gets p 1 s t :=
  (Runs.micro hp h.hold he ht.op (awaiting_of_free ht.hold) hm).gets

/-! ## The prologue -/

theorem prologue_eq (c : Params) (framing : Byte) (payload : List Byte) :
    prologue c framing payload = writeAll (prologueWrites c framing payload) := by
  have hs : ∀ l : List Byte, (l.map fun b => stage c (.imm b)).flatten = writeAll (l.map fun b => (c.regFifoData, b)) := by
    intro l
    simp [writeAll, stage, Function.comp_def]
  unfold prologue prologueWrites
  rw [hs]
  simp only [writeAll_append]
  cases c.clearIrqBeforeIssue <;> cases c.startSendAfterIssue <;> simp [writeAll, chipCommand]

theorem prologueTxns_eq (c : Params) (framing : Byte) (payload : List Byte) :
    prologueTxns c framing payload = (prologueWrites c framing payload).map fun w => .write w.1 w.2 := by
  unfold prologueTxns prologueWrites
  cases c.clearIrqBeforeIssue <;> cases c.startSendAfterIssue <;> simp [Function.comp_def]

@[simp] theorem prologueWrites_length (c : Params) (framing : Byte) (payload : List Byte) :
    (prologueWrites c framing payload).length = (prologueTxns c framing payload).length := by
  rw [prologueTxns_eq, List.length_map]

theorem prologueTxns_length_le (c : Params) (framing : Byte) (payload : List Byte) :
    (prologueTxns c framing payload).length ≤ payload.length + 6 := by
  unfold prologueTxns
  cases c.clearIrqBeforeIssue <;> cases c.startSendAfterIssue <;> simp

/-! ## A loop of FIFO reads -/

theorem flatPairs_append (a b : List (Byte × Byte)) : flatPairs (a ++ b) = flatPairs a ++ flatPairs b := by
  induction a with
  | nil => rfl
  | cons x xs ih => simp [flatPairs, ih]

theorem flatPairs_cons (x : Byte × Byte) (xs : List (Byte × Byte)) : flatPairs (x :: xs) = x.1 :: x.2 :: flatPairs xs := rfl

/-- `s` with the bytes `o` bound to `out`, after the bus traffic of `State.moved`. -/
def State.read (s : State) (o : List Byte) (e : List Event) (r : List Byte) (d : Nat) (v : Byte) (n : Nat) : State :=
  { s.moved e r d v n with out := o }

theorem Going.read {s : State} (h : Going s) (o : List Byte) (e : List Event) (r : List Byte) (d : Nat) (v : Byte) (n : Nat) :
    Going (s.read o e r d v n) := ⟨h.op, rfl, rfl, rfl⟩

theorem State.read_read (s : State) (o₁ o₂ : List Byte) (e₁ e₂ : List Event) (r₁ r₂ : List Byte) (d₁ d₂ : Nat) (v₁ v₂ : Byte)
    (n₁ n₂ : Nat) :
    (s.read o₁ e₁ r₁ d₁ v₁ n₁).read o₂ e₂ r₂ d₂ v₂ n₂ = s.read o₂ (e₁ ++ e₂) r₂ (d₁ + d₂) v₂ (n₁ + n₂) := by
  simp [State.read, State.moved, List.append_assoc, Nat.add_assoc]

/-- One read whose value is kept in `out` (R153, R168). -/
theorem gets_readPush {p : Code} {s : State} {a : Addr} {x y : Byte} {rest : List Byte}
    (hc : CodeAt p s.seq (readReg s.cfg a ++ [.push])) (h : Going s) (ha : s.answers = x :: y :: rest) :
    Gets p 7 s (s.read (s.out ++ [y]) (readEvents s.cfg a x y) rest 2 y 5) := by
  have h1 := (runs_read hc.left h ha).gets
  have h2 : Gets p 1 (s.moved (readEvents s.cfg a x y) rest 2 y 4) (s.read (s.out ++ [y]) (readEvents s.cfg a x y) rest 2 y 5) := by
    refine (h.moved ..).micro (m := .push) ?_ rfl (h.read ..) (by simp)
    simpa using hc.right.head
  exact h1.append h2

theorem gets_reads {p : Code} {a : Addr} (qs : List (Byte × Byte)) : ∀ {s : State} {rest : List Byte},
    CodeAt p s.seq (List.replicate qs.length (readReg s.cfg a ++ [.push])).flatten → Going s →
    s.answers = flatPairs qs ++ rest →
    Gets p (7 * qs.length) s
      (s.read (s.out ++ qs.map (·.2)) (readsEvents s.cfg a qs) rest (2 * qs.length) (lastValue s.v qs) (5 * qs.length)) := by
  induction qs with
  | nil =>
    intro s rest _ h ha
    have := h.moved_nil (r := rest) (by simpa [flatPairs] using ha)
    refine (Gets.nil s).cast (by simp) ?_
    simp only [List.map_nil, List.append_nil, readsEvents, List.length_nil, Nat.mul_zero, lastValue, State.read, this]
  | cons q qs ih =>
    intro s rest hc h ha
    rw [List.length_cons, List.replicate_succ, List.flatten_cons] at hc
    have h1 := gets_readPush hc.left h (rest := flatPairs qs ++ rest) (by simpa [flatPairs] using ha)
    have h2 := ih (s := s.read (s.out ++ [q.2]) (readEvents s.cfg a q.1 q.2) (flatPairs qs ++ rest) 2 q.2 5) (rest := rest)
      (by have := hc.right; simp at this; exact this) (h.read ..) rfl
    have := h1.append h2
    rw [State.read_read] at this
    refine this.cast (by simp; omega) ?_
    rw [show 2 * (q :: qs).length = 2 + 2 * qs.length by simp; omega,
      show 5 * (q :: qs).length = 5 + 5 * qs.length by simp; omega]
    simp [State.read, readsEvents, lastValue]

theorem readFifo_length (c : Params) (n : Nat) : (readFifo c n).length = 5 * n + 1 := by
  simp [readFifo]; omega

/-- The FIFO reads of a transceive (R153, R64). -/
theorem gets_readFifo {p : Code} {s : State} {n : Nat} (qs : List (Byte × Byte)) {rest : List Byte}
    (hc : CodeAt p s.seq (readFifo s.cfg n)) (hn : qs.length = n) (h : Going s) (ha : s.answers = flatPairs qs ++ rest) :
    Gets p (7 * n + 1) s
      (s.read (qs.map (·.2)) (readsEvents s.cfg s.cfg.regFifoData qs) rest (2 * n) (lastValue s.v qs) (5 * n + 1)) := by
  subst hn
  have h0 : Gets p 1 s (s.read [] [] (flatPairs qs ++ rest) 0 s.v 1) := by
    refine h.micro (m := .clearOut) (by simpa using hc.left.head) ?_ (h.read ..) (by simp)
    obtain ⟨-, h1, h2, h3⟩ := h
    cases s
    simp_all [execMicro, State.advance, State.read, State.moved]
  have h1 := gets_reads (p := p) (a := s.cfg.regFifoData) qs (s := s.read [] [] (flatPairs qs ++ rest) 0 s.v 1) (rest := rest)
    (by have := hc.right; simp at this; exact this) (h.read ..) rfl
  have := h0.append h1
  rw [State.read_read] at this
  refine this.cast (by omega) ?_
  simp [State.read, Nat.add_comm]

/-! ## A whole poll, and a whole transceive -/

/-- `s` after a poll of `k` reads that ended with `r`, bytes `o` read after it, and the bus traffic of `State.moved`. -/
def State.exchanged (s : State) (k : BitVec 16) (r : Ret) (o : List Byte) (e : List Event) (rest : List Byte) (d : Nat)
    (v : Byte) (n : Nat) : State :=
  { s.moved e rest d v n with pollCount := k, polls := k, ret := r, out := o }

theorem Going.exchanged {s : State} (h : Going s) (k : BitVec 16) (r : Ret) (o : List Byte) (e : List Event)
    (rest : List Byte) (d : Nat) (v : Byte) (n : Nat) : Going (s.exchanged k r o e rest d v n) := ⟨h.op, rfl, rfl, rfl⟩

theorem State.exchanged_advance (s : State) (k : BitVec 16) (r : Ret) (o : List Byte) (e : List Event) (rest : List Byte)
    (d : Nat) (v : Byte) (n : Nat) : (s.exchanged k r o e rest d v n).advance = s.exchanged k r o e rest d v (n + 1) := rfl

theorem State.exchanged_skip (s : State) (k : BitVec 16) (r : Ret) (o : List Byte) (e : List Event) (rest : List Byte)
    (d : Nat) (v : Byte) (n j : Nat) : (s.exchanged k r o e rest d v n).skip j = s.exchanged k r o e rest d v (n + 1 + j) := by
  simp [State.exchanged, State.skip, Nat.add_assoc]

theorem State.exchanged_congr (s : State) (k : BitVec 16) (r : Ret) (o : List Byte) {e e' : List Event} (rest : List Byte)
    {d d' : Nat} (v : Byte) {n n' : Nat} (he : e = e') (hd : d = d') (hn : n = n') :
    s.exchanged k r o e rest d v n = s.exchanged k r o e' rest d' v n' := by
  subst he hd hn; rfl

theorem State.exchanged_congr' (s : State) {k k' : BitVec 16} {r r' : Ret} (hk : k = k') (hr : r = r') (o : List Byte)
    {e e' : List Event} (rest : List Byte) {d d' : Nat} (v : Byte) {n n' : Nat} (he : e = e') (hd : d = d') (hn : n = n') :
    s.exchanged k r o e rest d v n = s.exchanged k' r' o e' rest d' v n' := by
  subst hk hr he hd hn; rfl

theorem poll_length (c : Params) (reg : Addr) (mask : Byte) (max ivl : Nat) :
    (poll c reg mask max ivl).length = 9 + (delay ivl).length := by
  simp [poll]; omega

theorem Going.moved_answers {s : State} (h : Going s) : s.moved [] s.answers 0 s.v 0 = s := h.moved_nil rfl

theorem gets_pollBegin {p : Code} {s : State} (hp : p[s.seq]? = some .pollBegin) (h : Going s) :
    Gets p 1 s { s with pollCount := 0#16, seq := s.seq + 1 } :=
  h.micro hp rfl ⟨h.op, h.hold, h.cs, h.xfers⟩ (by simp)

/-- A poll that hits after `ms.length` misses (R140, R141). -/
theorem gets_poll_hit {p : Code} {s : State} {reg : Addr} {mask : Byte} {max ivl : Nat} {ms : List (Byte × Byte)}
    {hit : Byte × Byte} {rest : List Byte} (hc : CodeAt p s.seq (poll s.cfg reg mask max ivl)) (h : Going s)
    (hp : PollHits mask max ms hit) (hmax : max ≤ 65535) (ha : s.answers = flatPairs (ms ++ [hit]) ++ rest) :
    Gets p (12 * ms.length + 9) s
      (s.exchanged (BitVec.ofNat 16 (ms.length + 1)) .ok s.out
        (pollMissEvents s.cfg reg ivl ms ++ readEvents s.cfg reg hit.1 hit.2) rest (2 * (ms.length + 1)) hit.2
        (9 + (delay ivl).length)) := by
  have h1 := gets_pollBegin (p := p) (s := s) hc.left.left.left.left.head h
  have h2 := (runs_poll_hit (p := p) (s := { s with pollCount := 0#16, seq := s.seq + 1 }) (rest := rest) hp.hits ms
    (PollAt.of_codeAt hc) rfl ⟨h.op, h.hold, h.cs, h.xfers⟩ ha hp.missed (by simpa using hp.inTime) hmax).gets
  refine (h1.append h2).cast ?_ ?_
  · have := delay_length_le ivl
    have : (10 + 2 * (delay ivl).length) * ms.length ≤ 12 * ms.length := Nat.mul_le_mul_right _ (by omega)
    omega
  · simp [State.exchanged, State.polled, State.moved, pollEnd]
    omega

/-- A poll that times out (R140, R141). -/
theorem gets_poll_timeout {p : Code} {s : State} {reg : Addr} {mask : Byte} {max ivl : Nat} {ms : List (Byte × Byte)}
    {rest : List Byte} (hc : CodeAt p s.seq (poll s.cfg reg mask max ivl)) (h : Going s) (hne : ms ≠ [])
    (hp : PollTimesOut mask max ms) (hmax : max ≤ 65535) (ha : s.answers = flatPairs ms ++ rest) :
    Gets p (12 * ms.length) s
      (s.exchanged (BitVec.ofNat 16 ms.length) .timeout s.out (pollTimeoutEvents s.cfg reg ivl ms) rest (2 * ms.length)
        (lastValue s.v ms) (9 + (delay ivl).length)) := by
  obtain _ | ⟨m, ms⟩ := ms
  · exact absurd rfl hne
  have h1 := gets_pollBegin (p := p) (s := s) hc.left.left.left.left.head h
  have h2 := (runs_poll_timeout (p := p) (s := { s with pollCount := 0#16, seq := s.seq + 1 }) (rest := rest) ms m
    (PollAt.of_codeAt hc) rfl ⟨h.op, h.hold, h.cs, h.xfers⟩ ha hp.missed (by simpa using hp.all) hmax).gets
  have hl : ∀ (v : Byte) (m : Byte × Byte) (ms : List (Byte × Byte)),
      ((m :: ms).getLast (by simp)).2 = lastValue v (m :: ms) := by
    intro v m ms
    induction ms generalizing v m with
    | nil => rfl
    | cons m' ms ih => simpa [lastValue, List.getLast_cons] using ih m.2 m'
  refine (h1.append h2).cast ?_ ?_
  · have := delay_length_le ivl
    have : (10 + 2 * (delay ivl).length) * ms.length ≤ 12 * ms.length := Nat.mul_le_mul_right _ (by omega)
    simp only [List.length_cons]
    omega
  · rw [hl s.v]
    simp [State.exchanged, State.polled, State.moved, pollEnd]
    omega

theorem collect_length (c : Params) (n : Nat) : (collect c n).length = 5 * n + 6 := by
  simp [collect, readFifo_length]; omega

theorem transceive_length (c : Params) (framing : Byte) (payload : List Byte) (n : Nat) :
    (transceive c framing payload n).length =
      4 * (prologueTxns c framing payload).length + 9 + (delay c.pollIntervalMs).length + 1 + (5 * n + 6) := by
  simp [transceive, prologue_eq, poll_length, collect_length]; omega

theorem State.exchanged_moved (s : State) (k : BitVec 16) (r : Ret) (o : List Byte) (e₁ e₂ : List Event) (r₁ r₂ : List Byte)
    (d₁ d₂ : Nat) (v₁ v₂ : Byte) (n₁ n₂ : Nat) :
    (s.moved e₁ r₁ d₁ v₁ n₁).exchanged k r o e₂ r₂ d₂ v₂ n₂ = s.exchanged k r o (e₁ ++ e₂) r₂ (d₁ + d₂) v₂ (n₁ + n₂) := by
  simp [State.exchanged, State.moved, List.append_assoc, Nat.add_assoc]

theorem State.moved_exchanged (s : State) (k : BitVec 16) (r : Ret) (o : List Byte) (e₁ e₂ : List Event) (r₁ r₂ : List Byte)
    (d₁ d₂ : Nat) (v₁ v₂ : Byte) (n₁ n₂ : Nat) :
    (s.exchanged k r o e₁ r₁ d₁ v₁ n₁).moved e₂ r₂ d₂ v₂ n₂ = s.exchanged k r o (e₁ ++ e₂) r₂ (d₁ + d₂) v₂ (n₁ + n₂) := by
  simp [State.exchanged, State.moved, List.append_assoc, Nat.add_assoc]

theorem State.read_exchanged (s : State) (k : BitVec 16) (r : Ret) (o₁ o₂ : List Byte) (e₁ e₂ : List Event)
    (r₁ r₂ : List Byte) (d₁ d₂ : Nat) (v₁ v₂ : Byte) (n₁ n₂ : Nat) :
    (s.exchanged k r o₁ e₁ r₁ d₁ v₁ n₁).read o₂ e₂ r₂ d₂ v₂ n₂ =
      s.exchanged k r o₂ (e₁ ++ e₂) r₂ (d₁ + d₂) v₂ (n₁ + n₂) := by
  simp [State.exchanged, State.moved, State.read, List.append_assoc, Nat.add_assoc]

section
variable {p : Code} {s : State} {framing : Byte} {payload : List Byte} {n : Nat} {pre ms : List (Byte × Byte)}
  {hit err : Byte × Byte} {rest : List Byte}

theorem gets_prologue (hc : CodeAt p s.seq (transceive s.cfg framing payload n)) (h : Going s)
    (hpre : pre.length = (prologueTxns s.cfg framing payload).length) (ha : s.answers = flatPairs pre ++ rest) :
    Gets p (6 * pre.length) s
      (s.moved (writeAllEvents (prologueWrites s.cfg framing payload) pre) rest (2 * pre.length) s.v (4 * pre.length)) := by
  have hc1 := hc.left.left.left
  rw [prologue_eq] at hc1
  have := (runs_writeAll (p := p) (prologueWrites s.cfg framing payload) hc1 h (by simpa using hpre) ha).gets
  simpa [hpre] using this

/-- The poll of a transceive times out: neither the error register nor the FIFO is read (R153, R154). -/
theorem gets_transceive_timeout (hc : CodeAt p s.seq (transceive s.cfg framing payload n)) (h : Going s)
    (hpre : pre.length = (prologueTxns s.cfg framing payload).length) (hne : ms ≠ [])
    (hp : PollTimesOut s.cfg.comIrqWaitMask s.cfg.pollMaxCom ms) (hmax : s.cfg.pollMaxCom ≤ 65535)
    (ha : s.answers = flatPairs (pre ++ ms) ++ rest) :
    Gets p (6 * pre.length + 12 * ms.length + 1) s
      (s.exchanged (BitVec.ofNat 16 ms.length) .timeout s.out (missEvents s.cfg framing payload pre ms) rest
        (2 * (pre.length + ms.length)) (lastValue s.v ms) (transceive s.cfg framing payload n).length) := by
  have hl : (prologue s.cfg framing payload).length = 4 * pre.length := by simp [prologue_eq, hpre]
  have h1 := gets_prologue (rest := flatPairs ms ++ rest) hc h hpre (by simpa [flatPairs_append] using ha)
  have hc2 := hc.left.left.right
  rw [hl] at hc2
  have h2 := gets_poll_timeout (rest := rest)
    (s := s.moved (writeAllEvents (prologueWrites s.cfg framing payload) pre) (flatPairs ms ++ rest) (2 * pre.length) s.v
      (4 * pre.length)) hc2 (h.moved ..) hne hp hmax rfl
  have h3 := h1.append h2
  rw [State.exchanged_moved] at h3
  have hc3 := hc.left.right.head
  rw [List.length_append, hl, poll_length] at hc3
  refine (h3.append ((h.exchanged ..).micro (m := .ifFail (collect s.cfg n).length) hc3
    (congrArg _ (State.exchanged_skip ..)) (h.exchanged ..) (by simp))).cast (by omega) ?_
  rw [transceive_length, collect_length]
  exact State.exchanged_congr _ _ _ _ _ _ rfl (by omega) (by omega)

/-- The poll hits and the error register is read: where the error test stands (R153). -/
theorem gets_transceive_hit (hc : CodeAt p s.seq (transceive s.cfg framing payload n)) (h : Going s)
    (hpre : pre.length = (prologueTxns s.cfg framing payload).length)
    (hp : PollHits s.cfg.comIrqWaitMask s.cfg.pollMaxCom ms hit) (hmax : s.cfg.pollMaxCom ≤ 65535)
    (ha : s.answers = flatPairs (pre ++ ms ++ [hit, err]) ++ rest) :
    Gets p (6 * pre.length + 12 * ms.length + 16) s
      (s.exchanged (BitVec.ofNat 16 (ms.length + 1)) .ok s.out (hitEvents s.cfg framing payload pre ms hit err) rest
        (2 * (pre.length + ms.length + 2)) err.2 (4 * pre.length + (9 + (delay s.cfg.pollIntervalMs).length) + 5)) := by
  have hl : (prologue s.cfg framing payload).length = 4 * pre.length := by simp [prologue_eq, hpre]
  have h1 := gets_prologue (rest := flatPairs (ms ++ [hit]) ++ (err.1 :: err.2 :: rest)) hc h hpre
    (by simpa [flatPairs_append, flatPairs] using ha)
  have hc2 := hc.left.left.right
  rw [hl] at hc2
  have h2 := gets_poll_hit (rest := err.1 :: err.2 :: rest)
    (s := s.moved (writeAllEvents (prologueWrites s.cfg framing payload) pre)
      (flatPairs (ms ++ [hit]) ++ (err.1 :: err.2 :: rest)) (2 * pre.length) s.v (4 * pre.length))
    hc2 (h.moved ..) hp hmax rfl
  have h3 := h1.append h2
  rw [State.exchanged_moved] at h3
  have hc3 := hc.left.right.head
  rw [List.length_append, hl, poll_length] at hc3
  have hc4 := hc.right.left.left
  simp only [List.length_append, hl, poll_length, List.length_cons, List.length_nil] at hc4
  have h4 := h3.append ((h.exchanged ..).micro (m := .ifFail (collect s.cfg n).length) hc3
    (congrArg _ (State.exchanged_advance ..)) (h.exchanged ..) (by simp))
  have h5 := h4.append (runs_read (a := s.cfg.regError) (y := err.1) (z := err.2) (rest := rest) (by exact hc4)
    (h.exchanged ..) rfl).gets
  rw [State.moved_exchanged] at h5
  refine h5.cast (by omega) ?_
  exact State.exchanged_congr _ _ _ _ _ _ (by simp [hitEvents, State.exchanged]) (by omega) (by omega)

/-- The poll hits and the error register shows a fault: the FIFO is not read (R153, R154). -/
theorem gets_transceive_fault (hc : CodeAt p s.seq (transceive s.cfg framing payload n)) (h : Going s)
    (hpre : pre.length = (prologueTxns s.cfg framing payload).length)
    (hp : PollHits s.cfg.comIrqWaitMask s.cfg.pollMaxCom ms hit) (hmax : s.cfg.pollMaxCom ≤ 65535)
    (he : anyBit err.2 s.cfg.errMask = true) (ha : s.answers = flatPairs (pre ++ ms ++ [hit, err]) ++ rest) :
    Gets p (6 * pre.length + 12 * ms.length + 17) s
      (s.exchanged (BitVec.ofNat 16 (ms.length + 1)) .chipFault s.out (hitEvents s.cfg framing payload pre ms hit err) rest
        (2 * (pre.length + ms.length + 2)) err.2 (transceive s.cfg framing payload n).length) := by
  have hl : (prologue s.cfg framing payload).length = 4 * pre.length := by simp [prologue_eq, hpre]
  have h1 := gets_transceive_hit hc h hpre hp hmax ha
  have hc4 := hc.right.left.right.head
  simp only [List.length_append, hl, poll_length, List.length_cons, List.length_nil, readReg_length] at hc4
  refine (h1.append ((h.exchanged ..).micro (m := .errTest s.cfg.errMask (readFifo s.cfg n).length)
    (t := s.exchanged (BitVec.ofNat 16 (ms.length + 1)) .chipFault s.out (hitEvents s.cfg framing payload pre ms hit err) rest
        (2 * (pre.length + ms.length + 2)) err.2
        (4 * pre.length + (9 + (delay s.cfg.pollIntervalMs).length) + 6 + (readFifo s.cfg n).length))
    (by rw [← hc4]; congr 1) ?_ (h.exchanged ..) (by simp))).cast (by omega) ?_
  · simp only [execMicro, State.exchanged, State.moved, State.skip, he, if_true]
    congr 2; omega
  · rw [transceive_length, readFifo_length]
    exact State.exchanged_congr _ _ _ _ _ _ rfl rfl (by omega)

/-- The poll hits, the error test passes, and the FIFO is read (R153). -/
theorem gets_transceive_ok (hc : CodeAt p s.seq (transceive s.cfg framing payload n)) (h : Going s)
    (hpre : pre.length = (prologueTxns s.cfg framing payload).length)
    (hp : PollHits s.cfg.comIrqWaitMask s.cfg.pollMaxCom ms hit) (hmax : s.cfg.pollMaxCom ≤ 65535)
    (he : anyBit err.2 s.cfg.errMask = false) (qs : List (Byte × Byte)) (hn : qs.length = n)
    (ha : s.answers = flatPairs (pre ++ ms ++ [hit, err] ++ qs) ++ rest) :
    Gets p (6 * pre.length + 12 * ms.length + 7 * n + 18) s
      (s.exchanged (BitVec.ofNat 16 (ms.length + 1)) .ok (qs.map (·.2))
        (hitEvents s.cfg framing payload pre ms hit err ++ readsEvents s.cfg s.cfg.regFifoData qs) rest
        (2 * (pre.length + ms.length + 2 + n)) (lastValue err.2 qs) (transceive s.cfg framing payload n).length) := by
  have hl : (prologue s.cfg framing payload).length = 4 * pre.length := by simp [prologue_eq, hpre]
  have h1 := gets_transceive_hit (err := err) (rest := flatPairs qs ++ rest) hc h hpre hp hmax (by
    rw [ha, flatPairs_append]; simp)
  have hc4 := hc.right.left.right.head
  have hc5 := hc.right.right
  simp only [List.length_append, hl, poll_length, List.length_cons, List.length_nil, readReg_length] at hc4 hc5
  have h2 := h1.append ((h.exchanged ..).micro (m := .errTest s.cfg.errMask (readFifo s.cfg n).length)
    (t := s.exchanged (BitVec.ofNat 16 (ms.length + 1)) .ok s.out (hitEvents s.cfg framing payload pre ms hit err)
        (flatPairs qs ++ rest) (2 * (pre.length + ms.length + 2)) err.2
        (4 * pre.length + (9 + (delay s.cfg.pollIntervalMs).length) + 6))
    (by rw [← hc4]; congr 1)
    (by simp only [execMicro, State.exchanged, State.moved, he]; rfl) (h.exchanged ..) (by simp))
  have h3 := h2.append (gets_readFifo (p := p) (n := n) (rest := rest)
    (s := s.exchanged (BitVec.ofNat 16 (ms.length + 1)) .ok s.out (hitEvents s.cfg framing payload pre ms hit err)
        (flatPairs qs ++ rest) (2 * (pre.length + ms.length + 2)) err.2
        (4 * pre.length + (9 + (delay s.cfg.pollIntervalMs).length) + 6)) qs
    (by
      have : s.seq + (4 * pre.length + (9 + (delay s.cfg.pollIntervalMs).length) + (0 + 1)) + (4 + (0 + 1)) =
        s.seq + (4 * pre.length + (9 + (delay s.cfg.pollIntervalMs).length) + 6) := by omega
      rw [this] at hc5; exact hc5) hn (h.exchanged ..) rfl)
  rw [State.read_exchanged] at h3
  refine h3.cast (by omega) ?_
  rw [transceive_length]
  exact State.exchanged_congr _ _ _ _ _ _ rfl (by omega) (by omega)

end

end Sys2Proof.Machine
end

