-- ==== Sys2Proof/Laws/Cycle.lean ====
section
/-! SUPPORT. `Transceive` in one lemma over its three endings, the bodies of REQUEST (R155) and ANTICOLL (R162), and a whole
cycle (R185), each as one run of its code with the state it ends in. -/

namespace Sys2Proof.Machine

theorem CodeAt.cast {p : Code} {n m : Nat} {q : Code} (h : CodeAt p n q) (hn : n = m) : CodeAt p m q := hn ▸ h

theorem CodeAt.eq {p : Code} {n : Nat} {q r : Code} (h : CodeAt p n q) (hq : q = r) : CodeAt p n r := hq ▸ h

/-- More atomic steps than an exchange takes. -/
def Exchange.steps : Exchange → Nat
  | .timeout pre misses => 6 * pre.length + 12 * misses.length + 1
  | .chipFault pre misses _ _ => 6 * pre.length + 12 * misses.length + 17
  | .ok pre misses _ _ fifo => 6 * pre.length + 12 * misses.length + 7 * fifo.length + 18

theorem Exchange.steps_le {c : Params} {framing : Byte} {payload : List Byte} {n : Nat} {e : Exchange}
    (h : e.Fits c framing payload n) (hmax : c.pollMaxCom ≤ 65535) : e.steps ≤ 786474 + 6 * payload.length + 7 * n := by
  have hl := prologueTxns_length_le c framing payload
  cases e with
  | timeout pre ms => have := h.1; have := h.2.all; simp only [steps]; omega
  | chipFault pre ms hit err => have := h.1; have := h.2.1.inTime; simp only [steps]; omega
  | ok pre ms hit err fifo => have := h.1; have := h.2.1.inTime; have := h.2.2.2; simp only [steps]; omega

/-- `Transceive` (R153), however it ends. -/
theorem gets_transceive {p : Code} {s : State} {framing : Byte} {payload : List Byte} {n : Nat} {e : Exchange}
    {rest : List Byte} (hc : CodeAt p s.seq (transceive s.cfg framing payload n)) (h : Going s)
    (he : e.Fits s.cfg framing payload n) (hmin : 1 ≤ s.cfg.pollMaxCom) (hmax : s.cfg.pollMaxCom ≤ 65535)
    (ha : s.answers = flatPairs e.pairs ++ rest) :
    Gets p e.steps s (s.exchanged (BitVec.ofNat 16 e.polls) e.ret (e.out s.out) (e.events s.cfg framing payload) rest
      (2 * e.pairs.length) (e.value s.v) (transceive s.cfg framing payload n).length) := by
  cases e with
  | timeout pre ms =>
    have hne : ms ≠ [] := by
      rintro rfl
      have := he.2.all
      simp at this; omega
    exact (gets_transceive_timeout hc h he.1 hne he.2 hmax ha).cast (Nat.le_refl _)
      (State.exchanged_congr _ _ _ _ _ _ rfl (by simp [Exchange.pairs]) rfl)
  | chipFault pre ms hit err =>
    exact (gets_transceive_fault hc h he.1 he.2.1 hmax he.2.2 ha).cast (Nat.le_refl _)
      (State.exchanged_congr _ _ _ _ _ _ rfl (by simp [Exchange.pairs, Nat.add_assoc]) rfl)
  | ok pre ms hit err fifo =>
    exact (gets_transceive_ok hc h he.1 he.2.1 hmax he.2.2.1 fifo he.2.2.2 ha).cast
      (by have := he.2.2.2; simp only [Exchange.steps]; omega)
      (State.exchanged_congr _ _ _ _ _ _ rfl (by have := he.2.2.2; simp [Exchange.pairs]; omega) rfl)

/-! ## REQUEST and ANTICOLL -/

theorem Going.advance {s : State} (h : Going s) : Going s.advance := ⟨h.op, h.hold, h.cs, h.xfers⟩

theorem Going.skip {s : State} (h : Going s) (n : Nat) : Going (s.skip n) := ⟨h.op, h.hold, h.cs, h.xfers⟩

section
variable {p : Code} {s : State} {n : Nat}

theorem gets_ifFail_ok (hp : p[s.seq]? = some (.ifFail n)) (h : Going s) (hr : s.ret = .ok) : Gets p 1 s s.advance :=
  h.micro hp (by simp only [execMicro, hr]; rfl) h.advance (by simp)

theorem gets_ifFail_fail (hp : p[s.seq]? = some (.ifFail n)) (h : Going s) (hr : s.ret ≠ .ok) : Gets p 1 s (s.skip n) :=
  h.micro hp (by simp only [execMicro, hr]; rfl) (h.skip n) (by simp)

/-- The end of the body of REQUEST: the tag type is kept when the transceive was Ok (R155). -/
def State.tagStored (s : State) : State :=
  { s with tagType := if s.ret = .ok then overlay2 s.out s.tagType else s.tagType, seq := s.seq + 2 }

/-- The end of the body of ANTICOLL: the bytes read are kept when the transceive was Ok (R162). -/
def State.uidStored (s : State) : State :=
  { s with uidBuf := if s.ret = .ok then overlay5 s.out s.uidBuf else s.uidBuf, seq := s.seq + 2 }

theorem gets_storeTag (hc : CodeAt p s.seq [.ifFail 1, .storeTag]) (h : Going s) : Gets p 2 s s.tagStored := by
  by_cases hr : s.ret = .ok
  · refine ((gets_ifFail_ok hc.head h hr).append (h.advance.micro (m := .storeTag)
      (t := ({ s.advance with tagType := overlay2 s.out s.tagType } : State).advance) hc.tail.head rfl
      ⟨h.op, h.hold, h.cs, h.xfers⟩ (by simp))).cast (Nat.le_refl _) ?_
    simp [State.tagStored, State.advance, hr]
  · refine (gets_ifFail_fail hc.head h hr).cast (by omega) ?_
    simp [State.tagStored, State.skip, hr]

theorem gets_storeUid (hc : CodeAt p s.seq [.ifFail 1, .storeUid]) (h : Going s) : Gets p 2 s s.uidStored := by
  by_cases hr : s.ret = .ok
  · refine ((gets_ifFail_ok hc.head h hr).append (h.advance.micro (m := .storeUid)
      (t := ({ s.advance with uidBuf := overlay5 s.out s.uidBuf } : State).advance) hc.tail.head rfl
      ⟨h.op, h.hold, h.cs, h.xfers⟩ (by simp))).cast (Nat.le_refl _) ?_
    simp [State.uidStored, State.advance, hr]
  · refine (gets_ifFail_fail hc.head h hr).cast (by omega) ?_
    simp [State.uidStored, State.skip, hr]

end

section
variable {p : Code} {s : State} {m : Byte} {e : Exchange} {rest : List Byte}

/-- The state after the body of REQUEST. -/
def State.requested (s : State) (m : Byte) (e : Exchange) (rest : List Byte) : State :=
  { s.exchanged (BitVec.ofNat 16 e.polls) e.ret (e.out s.out) (e.events s.cfg s.cfg.bitFramingShort [m]) rest
      (2 * e.pairs.length) (e.value s.v) (requestBody s.cfg m).length with tagType := e.tag }

/-- The state after the body of ANTICOLL. -/
def State.anticolled (s : State) (e : Exchange) (rest : List Byte) : State :=
  { s.exchanged (BitVec.ofNat 16 e.polls) e.ret (e.out s.out)
      (e.events s.cfg s.cfg.bitFramingFull [s.cfg.piccAnticoll, s.cfg.nvbAnticoll]) rest
      (2 * e.pairs.length) (e.value s.v) (anticollBody s.cfg).length with uidBuf := e.uid }

theorem Going.requested (h : Going s) : Going (s.requested m e rest) := ⟨h.op, rfl, rfl, rfl⟩

theorem Going.anticolled (h : Going s) : Going (s.anticolled e rest) := ⟨h.op, rfl, rfl, rfl⟩

theorem gets_requestBody (hc : CodeAt p s.seq (requestBody s.cfg m)) (h : Going s)
    (he : e.Fits s.cfg s.cfg.bitFramingShort [m] 2) (hmin : 1 ≤ s.cfg.pollMaxCom) (hmax : s.cfg.pollMaxCom ≤ 65535)
    (ha : s.answers = flatPairs e.pairs ++ rest) : Gets p (e.steps + 3) s (s.requested m e rest) := by
  have h0 := h.micro (t := { s with tagType := noBytes2, seq := s.seq + 1 }) (m := .clearTag) (by simpa using hc.left.left.head)
    rfl ⟨h.op, h.hold, h.cs, h.xfers⟩ (by simp)
  have h1 := h0.append (gets_transceive (s := { s with tagType := noBytes2, seq := s.seq + 1 }) (e := e) (rest := rest)
    hc.left.right ⟨h.op, h.hold, h.cs, h.xfers⟩ he hmin hmax ha)
  have hc2 := hc.right.cast (m := s.seq + 1 + (transceive s.cfg s.cfg.bitFramingShort [m] 2).length) (by simp; omega)
  refine (h1.append (gets_storeTag (by exact hc2) ⟨h.op, rfl, rfl, rfl⟩)).cast (by omega) ?_
  have hl : (requestBody s.cfg m).length = 1 + (transceive s.cfg s.cfg.bitFramingShort [m] 2).length + 2 := by
    simp [requestBody]; omega
  cases e <;>
    simp [State.requested, State.exchanged, State.moved, State.tagStored, Exchange.tag, Exchange.out, Exchange.ret, hl] <;>
    omega

theorem gets_anticollBody (hc : CodeAt p s.seq (anticollBody s.cfg)) (h : Going s)
    (he : e.Fits s.cfg s.cfg.bitFramingFull [s.cfg.piccAnticoll, s.cfg.nvbAnticoll] s.cfg.anticollReadLen)
    (hmin : 1 ≤ s.cfg.pollMaxCom) (hmax : s.cfg.pollMaxCom ≤ 65535)
    (ha : s.answers = flatPairs e.pairs ++ rest) : Gets p (e.steps + 3) s (s.anticolled e rest) := by
  have h0 := h.micro (t := { s with uidBuf := noBytes5, seq := s.seq + 1 }) (m := .clearUid) (by simpa using hc.left.left.head)
    rfl ⟨h.op, h.hold, h.cs, h.xfers⟩ (by simp)
  have h1 := h0.append (gets_transceive (s := { s with uidBuf := noBytes5, seq := s.seq + 1 }) (e := e) (rest := rest)
    hc.left.right ⟨h.op, h.hold, h.cs, h.xfers⟩ he hmin hmax ha)
  have hc2 := hc.right.cast (m := s.seq + 1 + (transceive s.cfg s.cfg.bitFramingFull [s.cfg.piccAnticoll, s.cfg.nvbAnticoll]
    s.cfg.anticollReadLen).length) (by simp; omega)
  refine (h1.append (gets_storeUid (by exact hc2) ⟨h.op, rfl, rfl, rfl⟩)).cast (by omega) ?_
  have hl : (anticollBody s.cfg).length = 1 + (transceive s.cfg s.cfg.bitFramingFull [s.cfg.piccAnticoll, s.cfg.nvbAnticoll]
      s.cfg.anticollReadLen).length + 2 := by
    simp [anticollBody]; omega
  cases e <;>
    simp [State.anticolled, State.exchanged, State.moved, State.uidStored, Exchange.uid, Exchange.out, Exchange.ret, hl] <;>
    omega

end

/-! ## The access decision -/

/-- The UID is the first `UID_LEN` bytes that ANTICOLL read (R163). -/
theorem takeValues_overlay5 (bs : List Byte) (n : Nat) (hn : n ≤ bs.length) (h5 : bs.length ≤ 5) :
    takeValues n (overlay5 bs noBytes5).toList = some (bs.take n) := by
  rcases bs with _ | ⟨b0, _ | ⟨b1, _ | ⟨b2, _ | ⟨b3, _ | ⟨b4, _ | ⟨b5, bs⟩⟩⟩⟩⟩⟩ <;>
    simp only [List.length_cons, List.length_nil] at hn h5 <;>
    first
    | omega
    | (rcases n with _ | _ | _ | _ | _ | _ | n <;> first | omega | rfl)

/-! Steps of a cycle as named updates. -/

def State.ctrlTo (s : State) (c : CtrlState) : State := { s with ctrlState := c, seq := s.seq + 1 }

def State.emitted (s : State) (d : Diag) : State := { s with trace := s.trace ++ [.diag d], seq := s.seq + 1 }

def State.unlockDone (s : State) : State :=
  { s with
    lockState := .unlocked, lockOut := false, unlockOut := true, trace := s.trace ++ [.outputs false true]
    seq := s.seq + 1 }

def State.lockDone (s : State) : State :=
  { s with
    lockState := .locked, lockOut := true, unlockOut := false, trace := s.trace ++ [.outputs true false]
    seq := s.seq + 1 }

def State.outcomeSet (s : State) (b : Byte) (n : Nat) : State := { s with result := b, seq := s.seq + 1 + n }

def State.resultLeft (s : State) : State :=
  { s with
    resp := if s.ret = .ok then overlay5 s.out s.resp else s.resp
    respLen := if s.ret = .ok then BitVec.ofNat 3 s.out.length else 0#3
    seq := s.seq + 1 }

def State.buffersCleared (s : State) : State := { s with tagType := noBytes2, uidBuf := noBytes5, seq := s.seq + 1 }

section
variable {p : Code} {s : State} {rest : List Byte}

theorem Going.ctrlTo (h : Going s) (c : CtrlState) : Going (s.ctrlTo c) := ⟨h.op, h.hold, h.cs, h.xfers⟩

theorem Going.emitted (h : Going s) (d : Diag) : Going (s.emitted d) := ⟨h.op, h.hold, h.cs, h.xfers⟩

theorem Going.unlockDone (h : Going s) : Going s.unlockDone := ⟨h.op, h.hold, h.cs, h.xfers⟩

theorem Going.lockDone (h : Going s) : Going s.lockDone := ⟨h.op, h.hold, h.cs, h.xfers⟩

theorem Going.outcomeSet (h : Going s) (b : Byte) (n : Nat) : Going (s.outcomeSet b n) := ⟨h.op, h.hold, h.cs, h.xfers⟩

theorem Going.resultLeft (h : Going s) : Going s.resultLeft := ⟨h.op, h.hold, h.cs, h.xfers⟩

theorem Going.buffersCleared (h : Going s) : Going s.buffersCleared := ⟨h.op, h.hold, h.cs, h.xfers⟩

theorem gets_ctrl {c : CtrlState} (hp : p[s.seq]? = some (.ctrl c)) (h : Going s) :
    Gets p 1 s (s.ctrlTo c) :=
  h.micro hp rfl ⟨h.op, h.hold, h.cs, h.xfers⟩ (by simp)

theorem gets_emit {d : Diag} (hp : p[s.seq]? = some (.emit d)) (h : Going s) :
    Gets p 1 s (s.emitted d) :=
  h.micro hp rfl ⟨h.op, h.hold, h.cs, h.xfers⟩ (by simp)

theorem gets_emitUid {u : List Byte} (hp : p[s.seq]? = some .emitUid) (h : Going s) (hu : uidBytes s = some u) :
    Gets p 1 s (s.emitted (.uid u)) :=
  h.micro hp (by simp only [execMicro, hu]; rfl) ⟨h.op, h.hold, h.cs, h.xfers⟩ (by simp)

theorem gets_unlock (hp : p[s.seq]? = some .unlock) (h : Going s) :
    Gets p 1 s s.unlockDone :=
  h.micro hp rfl ⟨h.op, h.hold, h.cs, h.xfers⟩ (by simp)

theorem gets_lock (hp : p[s.seq]? = some .lock) (h : Going s) :
    Gets p 1 s s.lockDone :=
  h.micro hp rfl ⟨h.op, h.hold, h.cs, h.xfers⟩ (by simp)

theorem gets_outcome {b : Byte} {n : Nat} (hp : p[s.seq]? = some (.outcome b n)) (h : Going s) :
    Gets p 1 s (s.outcomeSet b n) :=
  h.micro hp rfl ⟨h.op, h.hold, h.cs, h.xfers⟩ (by simp)

theorem grantedBranch_length (c : Params) (n : Nat) : (grantedBranch c n).length = 5 + (delay c.dwellMs).length := by
  simp [grantedBranch]; omega

/-- The granted branch (R185, R189, R192). -/
theorem gets_grantedBranch {n : Nat} (hc : CodeAt p s.seq (grantedBranch s.cfg n)) (h : Going s) :
    Gets p 7 s { s with
      ctrlState := .granted, lockState := .locked, lockOut := true, unlockOut := false, result := outcomeGranted
      trace := s.trace ++ grantedEvents s.cfg, seq := s.seq + (grantedBranch s.cfg n).length + n } := by
  have c1 := hc.left.left
  have c2 := hc.left.right
  have c3 := hc.right.cast (m := s.seq + 1 + 1 + 1 + (delay s.cfg.dwellMs).length) (by simp; omega)
  have h1 := gets_ctrl c1.head h
  have g3 := ((h.ctrlTo .granted).emitted .granted).unlockDone
  have h2 := h1.append (gets_emit (by exact c1.tail.head) (h.ctrlTo _))
  have h3 := h2.append (gets_unlock (by exact c1.tail.tail.head) ((h.ctrlTo _).emitted _))
  have h4 := h3.append (runs_delay (ms := s.cfg.dwellMs)
    (s := ((s.ctrlTo .granted).emitted .granted).unlockDone)
    (by exact c2) g3).gets
  have h5 := h4.append (gets_lock (by exact c3.head) (g3.moved ..))
  have h6 := h5.append (gets_outcome (by exact c3.tail.head) (g3.moved ..).lockDone)
  refine h6.cast (by have := delay_length_le s.cfg.dwellMs; omega) ?_
  have hh := h.hold
  have hcs := h.cs
  have hx := h.xfers
  simp [grantedBranch_length, State.moved, grantedEvents, hh, hcs, hx, State.ctrlTo, State.emitted, State.unlockDone,
    State.lockDone, State.outcomeSet]
  omega

/-- The denied branch (R185). -/
theorem gets_deniedBranch (hc : CodeAt p s.seq deniedBranch) (h : Going s) :
    Gets p 3 s { s with
      ctrlState := .denied, result := outcomeDenied, trace := s.trace ++ [.diag .denied], seq := s.seq + 3 } := by
  have h1 := gets_ctrl hc.head h
  have h2 := h1.append (gets_emit (by exact hc.tail.head) (h.ctrlTo _))
  exact h2.append (gets_outcome (by exact hc.tail.tail.head) ((h.ctrlTo _).emitted _))

theorem decision_length (c : Params) : (decision c).length = 10 + (delay c.dwellMs).length := by
  simp [decision, grantedBranch_length, deniedBranch]; omega

/-- The decision on a UID of the whitelist (R185). -/
theorem gets_decision_granted {u : List Byte} (hc : CodeAt p s.seq (decision s.cfg)) (h : Going s)
    (hu : uidBytes s = some u) (hm : uidMatches s.cfg.uidLen u s.cfg.whitelist = true) :
    Gets p 9 s { s with
      ctrlState := .granted, lockState := .locked, lockOut := true, unlockOut := false, result := outcomeGranted
      trace := s.trace ++ .diag (.uid u) :: grantedEvents s.cfg, seq := s.seq + (decision s.cfg).length } := by
  have c1 := hc.left.left
  have c2 := hc.left.right
  have h1 := gets_emitUid c1.head h hu
  have h2 := h1.append (Going.micro (m := .ifMatch (grantedBranch s.cfg deniedBranch.length).length)
    (t := (s.emitted (.uid u)).advance)
    (h.emitted _) (by exact c1.tail.head)
    (by
      have hu' : uidBytes (s.emitted (.uid u)) = some u := hu
      have hm' : uidMatches (s.emitted (.uid u)).cfg.uidLen u (s.emitted (.uid u)).cfg.whitelist = _ := hm
      simp only [execMicro, hu', hm']; rfl)
    (h.emitted _).advance (by simp))
  have h3 := h2.append (gets_grantedBranch (by exact c2) (h.emitted _).advance)
  refine h3.cast (by omega) ?_
  simp [decision_length, grantedBranch_length, deniedBranch, State.emitted, State.advance]
  omega

/-- The decision on a UID that is in no entry (R185). -/
theorem gets_decision_denied {u : List Byte} (hc : CodeAt p s.seq (decision s.cfg)) (h : Going s)
    (hu : uidBytes s = some u) (hm : uidMatches s.cfg.uidLen u s.cfg.whitelist = false) :
    Gets p 5 s { s with
      ctrlState := .denied, result := outcomeDenied
      trace := s.trace ++ [.diag (.uid u), .diag .denied], seq := s.seq + (decision s.cfg).length } := by
  have c1 := hc.left.left
  have c2 := hc.right.cast (m := s.seq + 1 + 1 + (grantedBranch s.cfg deniedBranch.length).length) (by simp; omega)
  have h1 := gets_emitUid c1.head h hu
  have h2 := h1.append (Going.micro (m := .ifMatch (grantedBranch s.cfg deniedBranch.length).length)
    (t := (s.emitted (.uid u)).skip (grantedBranch s.cfg deniedBranch.length).length)
    (h.emitted _) (by exact c1.tail.head)
    (by
      have hu' : uidBytes (s.emitted (.uid u)) = some u := hu
      have hm' : uidMatches (s.emitted (.uid u)).cfg.uidLen u (s.emitted (.uid u)).cfg.whitelist = _ := hm
      simp only [execMicro, hu', hm']; rfl)
    ((h.emitted _).skip _) (by simp))
  have h3 := h2.append (gets_deniedBranch (by exact c2) ((h.emitted _).skip _))
  refine h3.cast (by omega) ?_
  simp [decision_length, grantedBranch_length, State.emitted, State.skip]
  omega

/-! ## A whole cycle -/

theorem gets_leaveResult (hp : p[s.seq]? = some .leaveResult) (h : Going s) :
    Gets p 1 s s.resultLeft := by
  refine h.micro hp ?_ ⟨h.op, h.hold, h.cs, h.xfers⟩ (by simp)
  by_cases hr : s.ret = .ok <;> simp [execMicro, leaveResult, hr, resWrites, resWrite, State.advance, State.resultLeft]

theorem gets_onFail_ok {b : Byte} {n : Nat} (hp : p[s.seq]? = some (.onFail b n)) (h : Going s) (hr : s.ret = .ok) :
    Gets p 1 s s.advance :=
  h.micro hp (by simp only [execMicro, hr]; rfl) h.advance (by simp)

theorem gets_onFail_fail {b : Byte} {n : Nat} (hp : p[s.seq]? = some (.onFail b n)) (h : Going s) (hr : s.ret ≠ .ok) :
    Gets p 1 s (s.outcomeSet b n) :=
  h.micro hp (by simp only [execMicro, hr]; rfl) ⟨h.op, h.hold, h.cs, h.xfers⟩ (by simp)

/-- `s` with a cycle just begun (R185). -/
def State.cycleBegun (s : State) : State :=
  { s with tagType := noBytes2, uidBuf := noBytes5, ctrlState := .idle, seq := s.seq + 2 }

/-- The END of a cycle (R185): the inter-poll delay, then Idle. -/
theorem gets_cycleEnd (hc : CodeAt p s.seq (delay s.cfg.interPollMs ++ [.ctrl .idle])) (h : Going s) :
    Gets p 3 s { s with
      ctrlState := .idle, trace := s.trace ++ delayEvents s.cfg.interPollMs
      seq := s.seq + ((delay s.cfg.interPollMs).length + 1) } := by
  have h1 := (runs_delay hc.left h).gets
  have h2 := h1.append (gets_ctrl (by exact hc.right.head) (h.moved ..))
  refine h2.cast (by have := delay_length_le s.cfg.interPollMs; omega) ?_
  have hh := h.hold
  have hcs := h.cs
  have hx := h.xfers
  simp [State.moved, hh, hcs, hx, State.ctrlTo]
  omega

end

/-- The places of a cycle's pieces in a code. -/
structure CycleAt (p : Code) (n : Nat) (c : Params) : Prop where
  clear : p[n]? = some .clearBuffers
  idle : p[n + 1]? = some (.ctrl .idle)
  request : CodeAt p (n + 2) (requestBody c c.reqMode)
  left1 : p[n + (2 + (requestBody c c.reqMode).length)]? = some .leaveResult
  fail1 : p[n + (2 + (requestBody c c.reqMode).length + 1)]? = some (.onFail outcomeNoTag (afterRequest c).length)
  card : p[n + (2 + (requestBody c c.reqMode).length + 2)]? = some (.emit .cardDetected)
  readUid : p[n + (2 + (requestBody c c.reqMode).length + 3)]? = some (.ctrl .readUid)
  anticoll : CodeAt p (n + (2 + (requestBody c c.reqMode).length + 4)) (anticollBody c)
  left2 : p[n + (2 + (requestBody c c.reqMode).length + 4 + (anticollBody c).length)]? = some .leaveResult
  fail2 : p[n + (2 + (requestBody c c.reqMode).length + 4 + (anticollBody c).length + 1)]? =
    some (.onFail outcomeNoUid (decision c).length)
  decide : CodeAt p (n + (2 + (requestBody c c.reqMode).length + 4 + (anticollBody c).length + 2)) (decision c)
  finish : CodeAt p (n + (2 + (requestBody c c.reqMode).length + 4 + (anticollBody c).length + 2 + (decision c).length))
    (delay c.interPollMs ++ [.ctrl .idle])

theorem at_of {p : Code} {a b : Nat} {m : Micro} (h : p[a]? = some m) (hab : a = b) : p[b]? = some m := hab ▸ h

theorem afterRequest_length (c : Params) :
    (afterRequest c).length = 4 + (anticollBody c).length + (decision c).length := by
  simp [afterRequest]; omega

theorem afterRequest_eq (c : Params) : afterRequest c = [.emit .cardDetected, .ctrl .readUid] ++ anticollBody c ++
    [.leaveResult, .onFail outcomeNoUid (decision c).length] ++ decision c := rfl

theorem cycle_eq (c : Params) : cycle c = [.clearBuffers, .ctrl .idle] ++ requestBody c c.reqMode ++
    [.leaveResult, .onFail outcomeNoTag (afterRequest c).length] ++ afterRequest c ++
      (delay c.interPollMs ++ [.ctrl .idle]) := by
  rw [← List.append_assoc]; rfl

theorem CycleAt.of_codeAt {p : Code} {n : Nat} {c : Params} (h : CodeAt p n (cycle c)) : CycleAt p n c := by
  have hc := h.eq (cycle_eq c)
  have hf := hc.right
  have ha := hc.left.right.eq (afterRequest_eq c)
  have h0 := hc.left.left.left.left
  have h1 := hc.left.left.left.right
  have h2 := hc.left.left.right
  have a3 := ha.left.left.left
  have a4 := ha.left.left.right
  have a5 := ha.left.right
  have a6 := ha.right
  simp only [List.length_append, List.length_cons, List.length_nil] at h1 h2 a3 a4 a5 a6 hf
  have hl := afterRequest_length c
  exact ⟨h0.head, h0.tail.head, h1, at_of h2.head (by omega), at_of h2.tail.head (by omega), at_of a3.head (by omega),
    at_of a3.tail.head (by omega), a4.cast (by omega), at_of a5.head (by omega), at_of a5.tail.head (by omega),
    a6.cast (by omega), hf.cast (by omega)⟩

theorem cycle_length (c : Params) : (cycle c).length =
    2 + (requestBody c c.reqMode).length + 4 + (anticollBody c).length + 2 + (decision c).length +
      ((delay c.interPollMs).length + 1) := by
  simp [cycle, afterRequest_length]; omega

section
variable {p : Code} {s : State} {e e₂ : Exchange} {rest rest₂ : List Byte}

/-- The state after the REQUEST of a cycle and what it leaves in the result registers. -/
def State.cycleRequested (s : State) (e : Exchange) (rest : List Byte) : State :=
  { s.exchanged (BitVec.ofNat 16 e.polls) e.ret (e.out s.out) (e.events s.cfg s.cfg.bitFramingShort [s.cfg.reqMode]) rest
      (2 * e.pairs.length) (e.value s.v) (2 + (requestBody s.cfg s.cfg.reqMode).length + 1) with
    ctrlState := .idle, tagType := e.tag, uidBuf := noBytes5
    resp := if e.ret = .ok then overlay5 (e.out s.out) s.resp else s.resp
    respLen := if e.ret = .ok then BitVec.ofNat 3 (e.out s.out).length else 0#3 }

theorem Going.cycleRequested (h : Going s) (e : Exchange) (rest : List Byte) : Going (s.cycleRequested e rest) := ⟨h.op, rfl, rfl, rfl⟩

theorem Going.cycleBegun (h : Going s) : Going s.cycleBegun := ⟨h.op, h.hold, h.cs, h.xfers⟩

theorem gets_cycleBegun (hclear : p[s.seq]? = some .clearBuffers) (hidle : p[s.seq + 1]? = some (.ctrl .idle)) (h : Going s) :
    Gets p 2 s s.cycleBegun :=
  (h.micro (m := .clearBuffers) (t := s.buffersCleared) hclear rfl h.buffersCleared (by simp)).append
    (gets_ctrl (by exact hidle) h.buffersCleared)

theorem gets_cycleRequested (hreq : CodeAt p (s.seq + 2) (requestBody s.cfg s.cfg.reqMode))
    (hleft : p[s.seq + (2 + (requestBody s.cfg s.cfg.reqMode).length)]? = some .leaveResult) (h : Going s)
    (he : e.Fits s.cfg s.cfg.bitFramingShort [s.cfg.reqMode] 2) (hmin : 1 ≤ s.cfg.pollMaxCom) (hmax : s.cfg.pollMaxCom ≤ 65535)
    (ha : s.answers = flatPairs e.pairs ++ rest) : Gets p (e.steps + 4) s.cycleBegun (s.cycleRequested e rest) := by
  have h1 := gets_requestBody (m := s.cfg.reqMode) (e := e) (rest := rest) (s := s.cycleBegun) hreq h.cycleBegun he hmin hmax ha
  rw [show s.seq + (2 + (requestBody s.cfg s.cfg.reqMode).length) = s.seq + 2 + (requestBody s.cfg s.cfg.reqMode).length by
    omega] at hleft
  refine (h1.append (gets_leaveResult (by exact hleft) h.cycleBegun.requested)).cast (Nat.le_refl _) ?_
  simp [State.requested, State.cycleRequested, State.exchanged, State.moved, State.cycleBegun, State.resultLeft]
  exact ⟨rfl, rfl, by omega⟩

theorem gets_cycle_request (hc : CycleAt p s.seq s.cfg) (h : Going s)
    (he : e.Fits s.cfg s.cfg.bitFramingShort [s.cfg.reqMode] 2) (hmin : 1 ≤ s.cfg.pollMaxCom) (hmax : s.cfg.pollMaxCom ≤ 65535)
    (ha : s.answers = flatPairs e.pairs ++ rest) : Gets p (e.steps + 6) s (s.cycleRequested e rest) :=
  ((gets_cycleBegun hc.clear hc.idle h).append (gets_cycleRequested hc.request hc.left1 h he hmin hmax ha)).cast (by omega) rfl

/-- The state after a cycle whose REQUEST failed (R185, R187). -/
def State.noTag (s : State) (e : Exchange) (rest : List Byte) : State :=
  { s.exchanged (BitVec.ofNat 16 e.polls) e.ret (e.out s.out)
      (e.events s.cfg s.cfg.bitFramingShort [s.cfg.reqMode] ++ delayEvents s.cfg.interPollMs) rest
      (2 * e.pairs.length) (e.value s.v) (cycle s.cfg).length with
    ctrlState := .idle, tagType := noBytes2, uidBuf := noBytes5, respLen := 0#3, result := outcomeNoTag }

theorem gets_cycle_noTag (hc : CodeAt p s.seq (cycle s.cfg)) (h : Going s)
    (he : e.Fits s.cfg s.cfg.bitFramingShort [s.cfg.reqMode] 2) (hmin : 1 ≤ s.cfg.pollMaxCom) (hmax : s.cfg.pollMaxCom ≤ 65535)
    (ha : s.answers = flatPairs e.pairs ++ rest) (hr : e.ret ≠ .ok) : Gets p (e.steps + 10) s (s.noTag e rest) := by
  have hc' := CycleAt.of_codeAt hc
  have h1 := gets_cycle_request hc' h he hmin hmax ha
  have h2 := h1.append (gets_onFail_fail (by exact hc'.fail1) (h.cycleRequested ..) hr)
  have hf := hc'.finish.cast (m := s.seq + (2 + (requestBody s.cfg s.cfg.reqMode).length + 1) + 1 +
    (afterRequest s.cfg).length) (by rw [afterRequest_length]; omega)
  have h3 := h2.append (gets_cycleEnd (by exact hf) ((h.cycleRequested ..).outcomeSet ..))
  refine h3.cast (by omega) ?_
  have ht : e.tag = noBytes2 := by cases e <;> simp [Exchange.ret] at hr <;> rfl
  simp [State.cycleRequested, State.noTag, State.exchanged, State.moved, State.outcomeSet, hr, cycle_length, afterRequest_length, ht]
  omega

/-- The state of a cycle whose REQUEST found a card, before its ANTICOLL. -/
def State.cardFound (s : State) (e : Exchange) (rest : List Byte) : State :=
  { s.exchanged (BitVec.ofNat 16 e.polls) .ok (e.out s.out)
      (e.events s.cfg s.cfg.bitFramingShort [s.cfg.reqMode] ++ [.diag .cardDetected]) rest
      (2 * e.pairs.length) (e.value s.v) (2 + (requestBody s.cfg s.cfg.reqMode).length + 4) with
    ctrlState := .readUid, tagType := e.tag, uidBuf := noBytes5
    resp := overlay5 (e.out s.out) s.resp, respLen := BitVec.ofNat 3 (e.out s.out).length }

theorem Going.cardFound (h : Going s) (e : Exchange) (rest : List Byte) : Going (s.cardFound e rest) := ⟨h.op, rfl, rfl, rfl⟩

theorem gets_cycle_card (hc : CycleAt p s.seq s.cfg) (h : Going s)
    (he : e.Fits s.cfg s.cfg.bitFramingShort [s.cfg.reqMode] 2) (hmin : 1 ≤ s.cfg.pollMaxCom) (hmax : s.cfg.pollMaxCom ≤ 65535)
    (ha : s.answers = flatPairs e.pairs ++ rest) (hr : e.ret = .ok) : Gets p (e.steps + 9) s (s.cardFound e rest) := by
  have h1 := gets_cycle_request hc h he hmin hmax ha
  have g := (h.cycleRequested e rest).advance
  have h2 := h1.append (gets_onFail_ok (by exact hc.fail1) (h.cycleRequested ..) hr)
  have h3 := h2.append (gets_emit (by exact hc.card) g)
  have h4 := h3.append (gets_ctrl (by exact hc.readUid) (g.emitted _))
  refine h4.cast (by omega) ?_
  simp [State.cycleRequested, State.cardFound, State.exchanged, State.moved, hr, State.advance, State.emitted, State.ctrlTo]
  omega

/-- The state of a cycle after its ANTICOLL and what it leaves in the result registers. -/
def State.uidRead (s : State) (e e₂ : Exchange) (rest : List Byte) : State :=
  { s.exchanged (BitVec.ofNat 16 e₂.polls) e₂.ret (e₂.out (e.out s.out))
      (e.events s.cfg s.cfg.bitFramingShort [s.cfg.reqMode] ++ [.diag .cardDetected] ++
        e₂.events s.cfg s.cfg.bitFramingFull [s.cfg.piccAnticoll, s.cfg.nvbAnticoll]) rest
      (2 * (e.pairs.length + e₂.pairs.length)) (e₂.value (e.value s.v))
      (2 + (requestBody s.cfg s.cfg.reqMode).length + 4 + (anticollBody s.cfg).length + 1) with
    ctrlState := .readUid, tagType := e.tag, uidBuf := e₂.uid
    resp := if e₂.ret = .ok then overlay5 (e₂.out (e.out s.out)) (overlay5 (e.out s.out) s.resp)
      else overlay5 (e.out s.out) s.resp
    respLen := if e₂.ret = .ok then BitVec.ofNat 3 (e₂.out (e.out s.out)).length else 0#3 }

theorem Going.uidRead (h : Going s) (e e₂ : Exchange) (rest : List Byte) : Going (s.uidRead e e₂ rest) := ⟨h.op, rfl, rfl, rfl⟩

theorem gets_cycle_uid (hc : CycleAt p s.seq s.cfg) (h : Going s)
    (he : e.Fits s.cfg s.cfg.bitFramingShort [s.cfg.reqMode] 2)
    (he₂ : e₂.Fits s.cfg s.cfg.bitFramingFull [s.cfg.piccAnticoll, s.cfg.nvbAnticoll] s.cfg.anticollReadLen)
    (hmin : 1 ≤ s.cfg.pollMaxCom) (hmax : s.cfg.pollMaxCom ≤ 65535)
    (ha : s.answers = flatPairs e.pairs ++ (flatPairs e₂.pairs ++ rest)) (hr : e.ret = .ok) :
    Gets p (e.steps + e₂.steps + 13) s (s.uidRead e e₂ rest) := by
  have h1 := gets_cycle_card hc h he hmin hmax ha hr
  have h2 := h1.append (gets_anticollBody (e := e₂) (rest := rest) (s := s.cardFound e (flatPairs e₂.pairs ++ rest))
    (by exact hc.anticoll) (h.cardFound ..) he₂ hmin hmax rfl)
  have hl := hc.left2
  rw [← Nat.add_assoc s.seq] at hl
  have h3 := h2.append (gets_leaveResult (by exact hl) (h.cardFound ..).anticolled)
  refine h3.cast (by omega) ?_
  simp [State.cardFound, State.anticolled, State.uidRead, State.exchanged, State.moved, State.resultLeft]
  constructor <;> omega

/-- The state after a cycle whose ANTICOLL failed (R185, R187). -/
def State.noUid (s : State) (e e₂ : Exchange) (rest : List Byte) : State :=
  { s.exchanged (BitVec.ofNat 16 e₂.polls) e₂.ret (e₂.out (e.out s.out))
      (e.events s.cfg s.cfg.bitFramingShort [s.cfg.reqMode] ++ [.diag .cardDetected] ++
        e₂.events s.cfg s.cfg.bitFramingFull [s.cfg.piccAnticoll, s.cfg.nvbAnticoll] ++ delayEvents s.cfg.interPollMs) rest
      (2 * (e.pairs.length + e₂.pairs.length)) (e₂.value (e.value s.v)) (cycle s.cfg).length with
    ctrlState := .idle, tagType := e.tag, uidBuf := noBytes5
    resp := overlay5 (e.out s.out) s.resp, respLen := 0#3, result := outcomeNoUid }

theorem gets_cycle_noUid (hc : CodeAt p s.seq (cycle s.cfg)) (h : Going s)
    (he : e.Fits s.cfg s.cfg.bitFramingShort [s.cfg.reqMode] 2)
    (he₂ : e₂.Fits s.cfg s.cfg.bitFramingFull [s.cfg.piccAnticoll, s.cfg.nvbAnticoll] s.cfg.anticollReadLen)
    (hmin : 1 ≤ s.cfg.pollMaxCom) (hmax : s.cfg.pollMaxCom ≤ 65535)
    (ha : s.answers = flatPairs e.pairs ++ (flatPairs e₂.pairs ++ rest)) (hr : e.ret = .ok) (hr₂ : e₂.ret ≠ .ok) :
    Gets p (e.steps + e₂.steps + 17) s (s.noUid e e₂ rest) := by
  have hc' := CycleAt.of_codeAt hc
  have h1 := gets_cycle_uid hc' h he he₂ hmin hmax ha hr
  have hl := hc'.fail2
  have h2 := h1.append (gets_onFail_fail (by exact hl) (h.uidRead ..) hr₂)
  have hf := hc'.finish.cast (m := s.seq + (2 + (requestBody s.cfg s.cfg.reqMode).length + 4 + (anticollBody s.cfg).length + 1) +
    1 + (decision s.cfg).length) (by omega)
  have h3 := h2.append (gets_cycleEnd (by exact hf) ((h.uidRead ..).outcomeSet ..))
  refine h3.cast (by omega) ?_
  have ht : e₂.uid = noBytes5 := by cases e₂ <;> simp [Exchange.ret] at hr₂ <;> rfl
  simp [State.uidRead, State.noUid, State.exchanged, State.moved, State.outcomeSet, hr₂, cycle_length, ht]
  omega

/-- The state after a cycle that read a UID and decided with `g` (R185). -/
def State.decided (s : State) (e e₂ : Exchange) (rest : List Byte) (ev : List Event) (g : Byte) : State :=
  { s.exchanged (BitVec.ofNat 16 e₂.polls) e₂.ret (e₂.out (e.out s.out))
      (e.events s.cfg s.cfg.bitFramingShort [s.cfg.reqMode] ++ [.diag .cardDetected] ++
        e₂.events s.cfg s.cfg.bitFramingFull [s.cfg.piccAnticoll, s.cfg.nvbAnticoll] ++ ev ++ delayEvents s.cfg.interPollMs) rest
      (2 * (e.pairs.length + e₂.pairs.length)) (e₂.value (e.value s.v)) (cycle s.cfg).length with
    ctrlState := .idle, tagType := e.tag, uidBuf := e₂.uid
    resp := overlay5 (e₂.out (e.out s.out)) (overlay5 (e.out s.out) s.resp)
    respLen := BitVec.ofNat 3 (e₂.out (e.out s.out)).length, result := g }

theorem uidBytes_of_uid {t : State} (he₂ : e₂.Fits s.cfg s.cfg.bitFramingFull [s.cfg.piccAnticoll, s.cfg.nvbAnticoll]
      s.cfg.anticollReadLen) (hr₂ : e₂.ret = .ok) (hlen : s.cfg.uidLen ≤ s.cfg.anticollReadLen)
    (h5 : s.cfg.anticollReadLen ≤ 5) (ht : t.uidBuf = e₂.uid) (hcfg : t.cfg = s.cfg) :
    uidBytes t = some (e₂.uidOf s.cfg) := by
  cases e₂ with
  | timeout => simp [Exchange.ret] at hr₂
  | chipFault => simp [Exchange.ret] at hr₂
  | ok pre ms hit err fifo =>
    have := he₂.2.2.2
    rw [uidBytes, ht, hcfg]
    exact takeValues_overlay5 _ _ (by simp; omega) (by simp; omega)

theorem gets_cycle_granted (hc : CodeAt p s.seq (cycle s.cfg)) (h : Going s)
    (he : e.Fits s.cfg s.cfg.bitFramingShort [s.cfg.reqMode] 2)
    (he₂ : e₂.Fits s.cfg s.cfg.bitFramingFull [s.cfg.piccAnticoll, s.cfg.nvbAnticoll] s.cfg.anticollReadLen)
    (hmin : 1 ≤ s.cfg.pollMaxCom) (hmax : s.cfg.pollMaxCom ≤ 65535)
    (ha : s.answers = flatPairs e.pairs ++ (flatPairs e₂.pairs ++ rest)) (hr : e.ret = .ok) (hr₂ : e₂.ret = .ok)
    (hlen : s.cfg.uidLen ≤ s.cfg.anticollReadLen) (h5 : s.cfg.anticollReadLen ≤ 5)
    (hm : uidMatches s.cfg.uidLen (e₂.uidOf s.cfg) s.cfg.whitelist = true) :
    Gets p (e.steps + e₂.steps + 26) s
      { s.decided e e₂ rest (.diag (.uid (e₂.uidOf s.cfg)) :: grantedEvents s.cfg) outcomeGranted with
        lockState := .locked, lockOut := true, unlockOut := false } := by
  have hc' := CycleAt.of_codeAt hc
  have h1 := gets_cycle_uid hc' h he he₂ hmin hmax ha hr
  have hl := hc'.fail2
  have h2 := h1.append (gets_onFail_ok (by exact hl) (h.uidRead ..) hr₂)
  have hd := hc'.decide.cast (m := s.seq + (2 + (requestBody s.cfg s.cfg.reqMode).length + 4 + (anticollBody s.cfg).length + 1) + 1)
    (by omega)
  have h3 := h2.append (gets_decision_granted (by exact hd) (h.uidRead ..).advance
    (uidBytes_of_uid he₂ hr₂ hlen h5 rfl rfl) hm)
  have hf := hc'.finish.cast (m := s.seq + (2 + (requestBody s.cfg s.cfg.reqMode).length + 4 + (anticollBody s.cfg).length + 1) +
    1 + (decision s.cfg).length) (by omega)
  have h4 := h3.append (gets_cycleEnd (by exact hf) ⟨h.op, rfl, rfl, rfl⟩)
  refine h4.cast (by omega) ?_
  simp [State.uidRead, State.decided, State.exchanged, State.moved, hr₂, cycle_length, State.advance]
  omega

theorem gets_cycle_denied (hc : CodeAt p s.seq (cycle s.cfg)) (h : Going s)
    (he : e.Fits s.cfg s.cfg.bitFramingShort [s.cfg.reqMode] 2)
    (he₂ : e₂.Fits s.cfg s.cfg.bitFramingFull [s.cfg.piccAnticoll, s.cfg.nvbAnticoll] s.cfg.anticollReadLen)
    (hmin : 1 ≤ s.cfg.pollMaxCom) (hmax : s.cfg.pollMaxCom ≤ 65535)
    (ha : s.answers = flatPairs e.pairs ++ (flatPairs e₂.pairs ++ rest)) (hr : e.ret = .ok) (hr₂ : e₂.ret = .ok)
    (hlen : s.cfg.uidLen ≤ s.cfg.anticollReadLen) (h5 : s.cfg.anticollReadLen ≤ 5)
    (hm : uidMatches s.cfg.uidLen (e₂.uidOf s.cfg) s.cfg.whitelist = false) :
    Gets p (e.steps + e₂.steps + 22) s
      (s.decided e e₂ rest [.diag (.uid (e₂.uidOf s.cfg)), .diag .denied] outcomeDenied) := by
  have hc' := CycleAt.of_codeAt hc
  have h1 := gets_cycle_uid hc' h he he₂ hmin hmax ha hr
  have hl := hc'.fail2
  have h2 := h1.append (gets_onFail_ok (by exact hl) (h.uidRead ..) hr₂)
  have hd := hc'.decide.cast (m := s.seq + (2 + (requestBody s.cfg s.cfg.reqMode).length + 4 + (anticollBody s.cfg).length + 1) + 1)
    (by omega)
  have h3 := h2.append (gets_decision_denied (by exact hd) (h.uidRead ..).advance
    (uidBytes_of_uid he₂ hr₂ hlen h5 rfl rfl) hm)
  have hf := hc'.finish.cast (m := s.seq + (2 + (requestBody s.cfg s.cfg.reqMode).length + 4 + (anticollBody s.cfg).length + 1) +
    1 + (decision s.cfg).length) (by omega)
  have h4 := h3.append (gets_cycleEnd (by exact hf) ⟨h.op, rfl, rfl, rfl⟩)
  refine h4.cast (by omega) ?_
  simp [State.uidRead, State.decided, State.exchanged, State.moved, hr₂, cycle_length, State.advance]
  omega

end

end Sys2Proof.Machine
end

