-- ==== Sys2Proof/Laws/Readings.lean ====
section
/-! SUPPORT. The readings of a trace (transactions, delays, diagnostics, outputs) over the events of the blocks of code. -/

namespace Sys2Proof.Machine

/-! ## Delays, diagnostics, outputs distribute over appending -/

@[simp] theorem delays_append (a b : List Event) : delays (a ++ b) = delays a ++ delays b := by simp [delays]

@[simp] theorem diags_append (a b : List Event) : diags (a ++ b) = diags a ++ diags b := by simp [diags]

@[simp] theorem outs_append (a b : List Event) : outs (a ++ b) = outs a ++ outs b := by simp [outs]

/-- Events of the bus and of the timer only. -/
def quiet (ev : List Event) : Prop := diags ev = [] ∧ outs ev = []

theorem quiet.append {a b : List Event} (ha : quiet a) (hb : quiet b) : quiet (a ++ b) := by
  simp [quiet, ha.1, ha.2, hb.1, hb.2]

theorem quiet_readEvents (c : Params) (a : Addr) (x v : Byte) : quiet (readEvents c a x v) := ⟨rfl, rfl⟩

theorem quiet_writeEvents (a : Addr) (b x y : Byte) : quiet (writeEvents a b x y) := ⟨rfl, rfl⟩

theorem quiet_delayEvents (ms : Nat) : quiet (delayEvents ms) := by
  unfold delayEvents; split <;> exact ⟨rfl, rfl⟩

@[simp] theorem delays_readEvents (c : Params) (a : Addr) (x v : Byte) : delays (readEvents c a x v) = [] := rfl

@[simp] theorem delays_writeEvents (a : Addr) (b x y : Byte) : delays (writeEvents a b x y) = [] := rfl

@[simp] theorem delays_delayEvents (ms : Nat) : delays (delayEvents ms) = delayList 1 ms := by
  unfold delayEvents delayList; split <;> rfl

@[simp] theorem txns_delayEvents (ms : Nat) (r : List Event) : txns (delayEvents ms ++ r) = txns r := by
  unfold delayEvents; split <;> rfl

theorem delayList_add (a b ms : Nat) : delayList a ms ++ delayList b ms = delayList (a + b) ms := by
  unfold delayList; split <;> simp

@[simp] theorem delayList_zero (ms : Nat) : delayList 0 ms = [] := by unfold delayList; split <;> rfl

/-! ## Rows of writes and reads -/

theorem txns_writeAllEvents (ws : List (Addr × Byte)) : ∀ (ps : List (Byte × Byte)) (r : List Event), ps.length = ws.length →
    txns (writeAllEvents ws ps ++ r) = ws.map (fun w => .write w.1 w.2) ++ txns r := by
  induction ws with
  | nil => intro ps r _; cases ps <;> rfl
  | cons w ws ih =>
    intro ps r h
    obtain _ | ⟨q, ps⟩ := ps
    · simp at h
    · simp only [writeAllEvents, List.append_assoc, txns_writeEvents, List.map_cons, List.cons_append]
      rw [ih ps r (by simpa using h)]

theorem delays_writeAllEvents (ws : List (Addr × Byte)) : ∀ ps : List (Byte × Byte), delays (writeAllEvents ws ps) = [] := by
  induction ws with
  | nil => intro ps; cases ps <;> rfl
  | cons w ws ih => intro ps; cases ps <;> simp [writeAllEvents, ih]; rfl

theorem quiet_writeAllEvents (ws : List (Addr × Byte)) : ∀ ps : List (Byte × Byte), quiet (writeAllEvents ws ps) := by
  induction ws with
  | nil => intro ps; cases ps <;> exact ⟨rfl, rfl⟩
  | cons w ws ih =>
    intro ps
    cases ps with
    | nil => exact ⟨rfl, rfl⟩
    | cons q ps => exact (quiet_writeEvents ..).append (ih ps)

theorem txns_readsEvents (c : Params) (a : Addr) (qs : List (Byte × Byte)) (r : List Event) :
    txns (readsEvents c a qs ++ r) = qs.map (fun q => .read a q.2) ++ txns r := by
  induction qs with
  | nil => rfl
  | cons q qs ih => simp [readsEvents, List.append_assoc, ih]

theorem delays_readsEvents (c : Params) (a : Addr) (qs : List (Byte × Byte)) : delays (readsEvents c a qs) = [] := by
  induction qs with
  | nil => rfl
  | cons q qs ih => simp [readsEvents, ih]

theorem quiet_readsEvents (c : Params) (a : Addr) (qs : List (Byte × Byte)) : quiet (readsEvents c a qs) := by
  induction qs with
  | nil => exact ⟨rfl, rfl⟩
  | cons q qs ih => exact (quiet_readEvents ..).append ih

/-! ## Polls -/

theorem txns_pollMissEvents (c : Params) (a : Addr) (ivl : Nat) (ms : List (Byte × Byte)) (r : List Event) :
    txns (pollMissEvents c a ivl ms ++ r) = ms.map (fun q => .read a q.2) ++ txns r := by
  induction ms with
  | nil => rfl
  | cons q qs ih => simp [pollMissEvents, List.append_assoc, ih]

theorem delays_pollMissEvents (c : Params) (a : Addr) (ivl : Nat) (ms : List (Byte × Byte)) :
    delays (pollMissEvents c a ivl ms) = delayList ms.length ivl := by
  induction ms with
  | nil => simp [pollMissEvents, delays]
  | cons q qs ih => simp [pollMissEvents, ih, delayList_add, Nat.add_comm]

theorem quiet_pollMissEvents (c : Params) (a : Addr) (ivl : Nat) (ms : List (Byte × Byte)) :
    quiet (pollMissEvents c a ivl ms) := by
  induction ms with
  | nil => exact ⟨rfl, rfl⟩
  | cons q qs ih => exact ((quiet_readEvents ..).append (quiet_delayEvents ivl)).append ih

theorem txns_pollTimeoutEvents (c : Params) (a : Addr) (ivl : Nat) (ms : List (Byte × Byte)) (r : List Event) :
    txns (pollTimeoutEvents c a ivl ms ++ r) = ms.map (fun q => .read a q.2) ++ txns r := by
  induction ms with
  | nil => rfl
  | cons q qs ih =>
    cases qs with
    | nil => simp [pollTimeoutEvents]
    | cons q' qs => simp only [pollTimeoutEvents, List.append_assoc, txns_readEvents, txns_delayEvents, ih]; simp

theorem delays_pollTimeoutEvents (c : Params) (a : Addr) (ivl : Nat) (ms : List (Byte × Byte)) :
    delays (pollTimeoutEvents c a ivl ms) = delayList (ms.length - 1) ivl := by
  induction ms with
  | nil => simp [pollTimeoutEvents, delays]
  | cons q qs ih =>
    cases qs with
    | nil => simp [pollTimeoutEvents]
    | cons q' qs => simp [pollTimeoutEvents, ih, delayList_add, Nat.add_comm]

theorem quiet_pollTimeoutEvents (c : Params) (a : Addr) (ivl : Nat) (ms : List (Byte × Byte)) :
    quiet (pollTimeoutEvents c a ivl ms) := by
  induction ms with
  | nil => exact ⟨rfl, rfl⟩
  | cons q qs ih =>
    cases qs with
    | nil => exact quiet_readEvents ..
    | cons q' qs => exact ((quiet_readEvents ..).append (quiet_delayEvents ivl)).append ih

/-! ## Exchanges -/

theorem txns_events {c : Params} {framing : Byte} {payload : List Byte} {n : Nat} {e : Exchange}
    (he : e.Fits c framing payload n) (r : List Event) :
    txns (e.events c framing payload ++ r) = e.txns c framing payload ++ txns r := by
  cases e with
  | timeout pre ms =>
    simp only [Exchange.events, missEvents, Exchange.txns, List.append_assoc, prologueTxns_eq]
    rw [txns_writeAllEvents _ _ _ (by simpa using he.1), txns_pollTimeoutEvents]
  | chipFault pre ms hit err =>
    simp only [Exchange.events, hitEvents, Exchange.txns, List.append_assoc, prologueTxns_eq]
    rw [txns_writeAllEvents _ _ _ (by simpa using he.1), txns_pollMissEvents]
    simp
  | ok pre ms hit err fifo =>
    simp only [Exchange.events, hitEvents, Exchange.txns, List.append_assoc, prologueTxns_eq]
    rw [txns_writeAllEvents _ _ _ (by simpa using he.1), txns_pollMissEvents]
    simp [txns_readsEvents]

theorem delays_events (c : Params) (framing : Byte) (payload : List Byte) (e : Exchange) :
    delays (e.events c framing payload) = delayList (e.polls - 1) c.pollIntervalMs := by
  cases e <;>
    simp [Exchange.events, missEvents, hitEvents, Exchange.polls, delays_writeAllEvents, delays_pollTimeoutEvents,
      delays_pollMissEvents, delays_readsEvents]

theorem quiet_events (c : Params) (framing : Byte) (payload : List Byte) (e : Exchange) :
    quiet (e.events c framing payload) := by
  cases e with
  | timeout => exact (quiet_writeAllEvents ..).append (quiet_pollTimeoutEvents ..)
  | chipFault =>
    exact (((quiet_writeAllEvents ..).append (quiet_pollMissEvents ..)).append (quiet_readEvents ..)).append
      (quiet_readEvents ..)
  | ok =>
    exact ((((quiet_writeAllEvents ..).append (quiet_pollMissEvents ..)).append (quiet_readEvents ..)).append
      (quiet_readEvents ..)).append (quiet_readsEvents ..)

/-! ## Other events; whole transactions -/

theorem ownEvents_append (a b : List Event) : ownEvents (a ++ b) = ownEvents a ++ ownEvents b := by simp [ownEvents]

theorem busShape_foldl_own (tr : List Event) : ∀ b, (ownEvents tr).foldl busShapeStep b = tr.foldl busShapeStep b := by
  induction tr with
  | nil => intro b; rfl
  | cons e tr ih =>
    intro b
    by_cases h : e = .overrun
    · subst h; 
      have : ownEvents (.overrun :: tr) = ownEvents tr := by simp [ownEvents]
      rw [this, ih]; rfl
    · have : ownEvents (e :: tr) = e :: ownEvents tr := by simp [ownEvents, h]
      rw [this]; simp only [List.foldl_cons]; exact ih _

theorem broken_stays (tr : List Event) : tr.foldl busShapeStep .broken = .broken := by
  induction tr with
  | nil => rfl
  | cons e tr ih => cases e <;> exact ih

theorem txns_cons_ne {e : Event} {tr : List Event} (h : e ≠ .sel) : txns (e :: tr) = txns tr := by
  cases e <;> first | (exact absurd rfl h) | rfl

theorem txns_append_of_length : ∀ (n : Nat) (tr more : List Event), tr.length ≤ n → (∀ e ∈ tr, e ≠ .overrun) → tr.foldl busShapeStep .idle = .idle →
    txns (tr ++ more) = txns tr ++ txns more := by
  intro n
  induction n with
  | zero => intro tr more h _ _; obtain rfl : tr = [] := by simpa using h
            rfl
  | succ n ih =>
    intro tr more h ho hs
    obtain _ | ⟨e, tr⟩ := tr
    · rfl
    · by_cases he : e = .sel
      · subst he
        have hb := broken_stays
        rcases tr with _ | ⟨e1, tr⟩
        · simp [busShapeStep] at hs
        · have n1 := ho e1 (by simp)
          cases e1 <;> simp [busShapeStep, hb] at hs n1
          rcases tr with _ | ⟨e2, tr⟩
          · simp [busShapeStep] at hs
          · have n2 := ho e2 (by simp)
            cases e2 <;> simp [busShapeStep, hb] at hs n2
            rcases tr with _ | ⟨e3, tr⟩
            · simp [busShapeStep] at hs
            · have n3 := ho e3 (by simp)
              cases e3 <;> simp [busShapeStep, hb] at hs n3
              have := ih tr more (by simp at h; omega) (fun e he => ho e (by simp [he])) hs
              simp only [List.cons_append, txns]
              split <;> simp [this]
      · rw [List.cons_append, txns_cons_ne he, txns_cons_ne he]
        have n1 := ho e (by simp)
        refine ih tr more (by simpa using h) (fun e he => ho e (by simp [he])) ?_
        have hb := broken_stays
        cases e <;> simp [busShapeStep, hb] at hs he n1 <;> exact hs

theorem txns_own_append {tr : List Event} (h : busShape tr = .idle) (more : List Event) : txns (ownEvents (tr ++ more)) = txns (ownEvents tr) ++ txns (ownEvents more) := by
  rw [ownEvents_append]
  refine txns_append_of_length _ _ _ (Nat.le_refl _) (fun e he => by simp [ownEvents] at he; exact he.2) ?_
  rw [busShape_foldl_own]; exact h

@[simp] theorem delays_diag (d : Diag) (r : List Event) : delays (.diag d :: r) = delays r := rfl

@[simp] theorem delays_outputs (a b : Bool) (r : List Event) : delays (.outputs a b :: r) = delays r := rfl

@[simp] theorem delays_nil : delays [] = [] := rfl

@[simp] theorem diags_diag (d : Diag) (r : List Event) : diags (.diag d :: r) = d :: diags r := rfl

@[simp] theorem diags_outputs (a b : Bool) (r : List Event) : diags (.outputs a b :: r) = diags r := rfl

@[simp] theorem diags_nil : diags [] = [] := rfl

@[simp] theorem outs_diag (d : Diag) (r : List Event) : outs (.diag d :: r) = outs r := rfl

@[simp] theorem outs_outputs (a b : Bool) (r : List Event) : outs (.outputs a b :: r) = (a, b) :: outs r := rfl

@[simp] theorem outs_nil : outs [] = [] := rfl

@[simp] theorem txns_diag (d : Diag) (r : List Event) : txns (.diag d :: r) = txns r := rfl

@[simp] theorem txns_outputs (a b : Bool) (r : List Event) : txns (.outputs a b :: r) = txns r := rfl

@[simp] theorem txns_nil : txns [] = [] := rfl

theorem delayEvents_readings (ms : Nat) : txns (delayEvents ms) = [] ∧ delays (delayEvents ms) = delayList 1 ms ∧ diags (delayEvents ms) = [] ∧ outs (delayEvents ms) = [] := by
  refine ⟨?_, delays_delayEvents ms, (quiet_delayEvents ms).1, (quiet_delayEvents ms).2⟩
  unfold delayEvents; split <;> rfl

theorem txns_exchange {c : Params} {f : Byte} {p : List Byte} {n : Nat} {e : Exchange} (he : e.Fits c f p n) : txns (e.events c f p) = e.txns c f p := by
  have := txns_events he []
  simpa [txns] using this

theorem outs_xfer (tr : List Event) (a b : Byte) : outs (tr ++ [.xfer a b]) = outs tr := by simp [outs]

theorem diags_xfer (tr : List Event) (a b : Byte) : diags (tr ++ [.xfer a b]) = diags tr := by simp [diags]

end Sys2Proof.Machine
end

