-- ==== Sys2Proof/Laws/Crc.lean ====
section
/-! SUPPORT. What CALC_CRC (R168) does when the reader's answers are prepared. -/

namespace Sys2Proof.Machine

theorem readCells_succ {m : Memory} {i n : Nat} {bs : List Byte} (h : readCells m i (n + 1) = some bs) :
    ∃ b rest, bs = b :: rest ∧ readCell m i = some b ∧ readCells m (i + 1) n = some rest := by
  unfold readCells at h
  split at h
  · rename_i b rest hb hr
    exact ⟨b, rest, by simpa using h.symm, hb, hr⟩
  · cases h

theorem readCells_length {m : Memory} : ∀ {n i : Nat} {bs : List Byte}, readCells m i n = some bs → bs.length = n := by
  intro n
  induction n with
  | zero => intro i bs h; simp [readCells] at h; simp [← h]
  | succ n ih =>
    intro i bs h
    obtain ⟨b, rest, rfl, -, hr⟩ := readCells_succ h
    simp [ih hr]

/-- The data bytes of a CALC_CRC go into the FIFO in order (R168). -/
theorem runs_stageData {p : Code} (n : Nat) : ∀ {k : Nat} {s : State} {data : List Byte} {ps : List (Byte × Byte)}
    {rest : List Byte},
    CodeAt p s.seq ((List.range' k n).map fun i => stage s.cfg (.dataIn i)).flatten → Going s →
    readCells s.dataIn k n = some data → ps.length = n → s.answers = flatPairs ps ++ rest →
    Runs p (6 * n) s (s.moved (writeAllEvents (data.map fun b => (s.cfg.regFifoData, b)) ps) rest (2 * n) s.v (4 * n)) := by
  induction n with
  | zero =>
    intro k s data ps rest _ h hd hl ha
    obtain rfl : ps = [] := by simpa using hl
    have := h.moved_nil (r := rest) (by simpa [flatPairs] using ha)
    simp only [readCells] at hd
    obtain rfl := Option.some.inj hd
    simp only [List.map_nil, writeAllEvents, Nat.mul_zero, this]
    exact Runs.nil s
  | succ n ih =>
    intro k s data ps rest hc h hd hl ha
    obtain ⟨b, data, rfl, hb, hd⟩ := readCells_succ hd
    obtain _ | ⟨q, ps⟩ := ps
    · simp at hl
    rw [List.range'_succ, List.map_cons, List.flatten_cons] at hc
    have h1 := runs_write (x := .dataIn k) hc.left h hb (rest := flatPairs ps ++ rest) (by simpa [flatPairs] using ha)
    have hc2 := hc.right
    simp only [stage, writeReg_length] at hc2
    have h2 := ih (k := k + 1) (s := s.moved (writeEvents s.cfg.regFifoData b q.1 q.2) (flatPairs ps ++ rest) 2 s.v 4)
      (data := data) (ps := ps) (rest := rest) hc2 (h.moved ..) hd (by simpa using hl) rfl
    have := h1.append h2
    rw [State.moved_moved] at this
    exact this.cast (by omega) (by
      rw [show 2 * (n + 1) = 2 + 2 * n by omega, show 4 * (n + 1) = 4 + 4 * n by omega]; rfl)

theorem writeAllEvents_append (ws us : List (Addr × Byte)) : ∀ (ps qs : List (Byte × Byte)), ps.length = ws.length →
    writeAllEvents (ws ++ us) (ps ++ qs) = writeAllEvents ws ps ++ writeAllEvents us qs := by
  induction ws with
  | nil => intro ps qs h; obtain rfl : ps = [] := by simpa using h
           rfl
  | cons w ws ih =>
    intro ps qs h
    obtain _ | ⟨q, ps⟩ := ps
    · simp at h
    · simp [writeAllEvents, ih ps qs (by simpa using h)]

/-- The writes of CALC_CRC: idle, flush, data, issue (R168). -/
theorem runs_crcWrites {p : Code} {s : State} {n : Nat} {data : List Byte} {ps : List (Byte × Byte)} {rest : List Byte}
    (hc : CodeAt p s.seq (chipCommand s.cfg s.cfg.cmdIdle ++ writeReg s.cfg.regFifoLevel (.imm s.cfg.fifoFlush) ++
      ((List.range n).map fun i => stage s.cfg (.dataIn i)).flatten ++ chipCommand s.cfg s.cfg.cmdCalcCrc))
    (h : Going s) (hd : readCells s.dataIn 0 n = some data) (hl : ps.length = n + 3) (ha : s.answers = flatPairs ps ++ rest) :
    Gets p (6 * (n + 3)) s (s.moved (writeAllEvents (crcWrites s.cfg data) ps) rest (2 * (n + 3)) s.v (4 * (n + 3))) := by
  obtain ⟨p1, p2, p3, q, rfl⟩ : ∃ (p1 p2 : Byte × Byte) (p3 : List (Byte × Byte)) (q : Byte × Byte), ps = [p1, p2] ++ p3 ++ [q] := by
    rcases ps with _ | ⟨p1, _ | ⟨p2, ps⟩⟩
    · simp at hl
    · simp at hl
    · have hne : ps ≠ [] := by rintro rfl; simp at hl
      exact ⟨p1, p2, ps.dropLast, ps.getLast hne, by simp [List.dropLast_append_getLast hne]⟩
  have hdl := readCells_length hd
  have hl3 : p3.length = n := by simp at hl; omega
  have c1 := hc.left.left
  rw [show chipCommand s.cfg s.cfg.cmdIdle ++ writeReg s.cfg.regFifoLevel (.imm s.cfg.fifoFlush) =
    writeAll [(s.cfg.regCommand, chipByte s.cfg.cmdIdle), (s.cfg.regFifoLevel, s.cfg.fifoFlush)] by
      simp [writeAll, chipCommand]] at c1
  have h1 := (runs_writeAll (p := p) _ (ps := [p1, p2]) (rest := flatPairs (p3 ++ [q]) ++ rest) c1 h rfl
    (by rw [ha, List.append_assoc, flatPairs_append, List.append_assoc])).gets
  have c2 := hc.left.right
  simp only [List.length_append, chipCommand, writeReg_length, List.range_eq_range'] at c2
  have h2 := h1.append (runs_stageData (p := p) n (k := 0) (data := data) (ps := p3) (rest := flatPairs [q] ++ rest)
    (s := s.moved (writeAllEvents [(s.cfg.regCommand, chipByte s.cfg.cmdIdle), (s.cfg.regFifoLevel, s.cfg.fifoFlush)] [p1, p2])
      (flatPairs (p3 ++ [q]) ++ rest) 4 s.v 8) (by exact c2) (h.moved ..) hd hl3
    (by simp [flatPairs_append])).gets
  rw [State.moved_moved] at h2
  have c3 := hc.right.cast (m := s.seq + (8 + 4 * n)) (by
    simp [chipCommand, stage, List.length_flatten, Function.comp_def]
    omega)
  have h3 := h2.append (runs_write (p := p) (a := s.cfg.regCommand) (x := .imm (chipByte s.cfg.cmdCalcCrc)) (b := chipByte s.cfg.cmdCalcCrc)
    (y := q.1) (z := q.2) (rest := rest) (by exact c3) (h.moved ..) rfl rfl).gets
  rw [State.moved_moved] at h3
  refine h3.cast (by simp; omega) ?_
  have he : writeAllEvents (crcWrites s.cfg data) ([p1, p2] ++ p3 ++ [q]) =
      writeAllEvents [(s.cfg.regCommand, chipByte s.cfg.cmdIdle), (s.cfg.regFifoLevel, s.cfg.fifoFlush)] [p1, p2] ++
        writeAllEvents (data.map fun b => (s.cfg.regFifoData, b)) p3 ++
        writeEvents s.cfg.regCommand (chipByte s.cfg.cmdCalcCrc) q.1 q.2 := by
    rw [crcWrites, writeAllEvents_append _ _ _ _ (by simp; omega), writeAllEvents_append _ _ _ _ (by simp)]
    simp [writeAllEvents]
  rw [he, show 2 * (n + 3) = 4 + 2 * n + 2 by omega, show 4 * (n + 3) = 8 + 4 * n + 4 by omega]
  simp [State.moved]

/-- The poll of a CALC_CRC, however it ends. -/
theorem gets_crcPoll {p : Code} {s : State} {n : Nat} {x : CrcAnswers} {rest : List Byte}
    (hc : CodeAt p s.seq (poll s.cfg s.cfg.regDivIrq s.cfg.divIrqCrcMask s.cfg.pollMaxDiv s.cfg.crcPollIntervalMs))
    (h : Going s) (hx : x.Fits s.cfg n) (hmin : 1 ≤ s.cfg.pollMaxDiv) (hmax : s.cfg.pollMaxDiv ≤ 65535)
    (ha : s.answers = flatPairs (x.misses ++ x.hit.toList) ++ rest) :
    ∃ v, Gets p (12 * s.cfg.pollMaxDiv + 9) s (s.exchanged (BitVec.ofNat 16 x.polls) x.ret s.out (x.pollEvents s.cfg) rest
      (2 * x.polls) v (9 + (delay s.cfg.crcPollIntervalMs).length)) := by
  obtain ⟨pre, ms, hit, lo, hi⟩ := x
  cases hit with
  | none =>
    have hp : PollTimesOut s.cfg.divIrqCrcMask s.cfg.pollMaxDiv ms := hx.2
    have hne : ms ≠ [] := by
      rintro rfl
      have := hp.all
      simp at this; omega
    refine ⟨lastValue s.v ms, (gets_poll_timeout hc h hne hp hmax (by simpa using ha)).cast (by have := hp.all; omega) ?_⟩
    exact State.exchanged_congr' _ (by simp [CrcAnswers.polls]) rfl _ _ _ rfl (by simp [CrcAnswers.polls]) rfl
  | some hit =>
    have hp : PollHits s.cfg.divIrqCrcMask s.cfg.pollMaxDiv ms hit := hx.2
    refine ⟨hit.2, (gets_poll_hit hc h hp hmax (by simpa using ha)).cast (by have := hp.inTime; omega) ?_⟩
    exact State.exchanged_congr' _ (by simp [CrcAnswers.polls]) rfl _ _ _ rfl (by simp [CrcAnswers.polls]) rfl

/-- CALC_CRC up to its `Finish` (R168): from the first step on, with the length and the data checked. -/
theorem gets_calcCrc {s : State} {n : Nat} {data : List Byte} {x : CrcAnswers} {rest : List Byte} (h : Going s)
    (hseq : s.seq = 0) (hlen : n ≤ s.cfg.crcMaxLen) (h127 : s.cfg.crcMaxLen ≤ 127) (hd : readCells s.dataIn 0 n = some data)
    (hx : x.Fits s.cfg n) (hmin : 1 ≤ s.cfg.pollMaxDiv) (hmax : s.cfg.pollMaxDiv ≤ 65535)
    (ha : s.answers = flatPairs x.pairs ++ rest) :
    ∃ k, (codeCalcCrc s.cfg n)[s.seq + k]? = some (.finishRet [.respOut]) ∧
      Gets (codeCalcCrc s.cfg n) 800000 s (s.exchanged (BitVec.ofNat 16 x.polls) x.ret [x.lo.2, x.hi.2]
        (x.events s.cfg data) rest (2 * x.pairs.length) x.hi.2 k) := by
  have hc : CodeAt (codeCalcCrc s.cfg n) s.seq (codeCalcCrc s.cfg n) := hseq ▸ CodeAt.whole _
  have hc' := hc.eq (r := [.checks (.crc n)] ++
    ((chipCommand s.cfg s.cfg.cmdIdle ++ writeReg s.cfg.regFifoLevel (.imm s.cfg.fifoFlush) ++
      ((List.range n).map fun i => stage s.cfg (.dataIn i)).flatten ++ chipCommand s.cfg s.cfg.cmdCalcCrc) ++
    (poll s.cfg s.cfg.regDivIrq s.cfg.divIrqCrcMask s.cfg.pollMaxDiv s.cfg.crcPollIntervalMs ++
    ([.clearOut] ++ ((readReg s.cfg s.cfg.regCrcResultL ++ [.push]) ++ ((readReg s.cfg s.cfg.regCrcResultH ++ [.push]) ++
      [.finishRet [.respOut]]))))))
    (by simp [codeCalcCrc])
  have h0 := h.micro (m := .checks (.crc n)) (t := s.advance) hc'.left.head
    (by
      have : ¬ s.cfg.crcMaxLen < n := by omega
      simp [execMicro, checks, this, hd]) h.advance (by simp)
  have c1 := hc'.right.left
  have hp1 : x.pairs = x.pre ++ ((x.misses ++ x.hit.toList) ++ [x.lo, x.hi]) := by simp [CrcAnswers.pairs]
  have h1 := h0.append (runs_crcWrites (s := s.advance) (n := n) (data := data) (ps := x.pre)
    (rest := flatPairs (x.misses ++ x.hit.toList) ++ (flatPairs [x.lo, x.hi] ++ rest)) (by exact c1) h.advance hd hx.1
    (by rw [State.advance_answers, ha, hp1, flatPairs_append, flatPairs_append]; simp))
  have hw : (chipCommand s.cfg s.cfg.cmdIdle ++ writeReg s.cfg.regFifoLevel (.imm s.cfg.fifoFlush) ++
      ((List.range n).map fun i => stage s.cfg (.dataIn i)).flatten ++ chipCommand s.cfg s.cfg.cmdCalcCrc).length = 4 * (n + 3) := by
    simp [chipCommand, stage, List.length_flatten, Function.comp_def]; omega
  have c2 := hc'.right.right
  rw [hw] at c2
  obtain ⟨v, hpoll⟩ := gets_crcPoll (p := codeCalcCrc s.cfg n) (n := n) (x := x) (rest := flatPairs [x.lo, x.hi] ++ rest)
    (s := s.advance.moved (writeAllEvents (crcWrites s.cfg data) x.pre)
      (flatPairs (x.misses ++ x.hit.toList) ++ (flatPairs [x.lo, x.hi] ++ rest)) (2 * (n + 3)) s.v (4 * (n + 3)))
    (by exact c2.left) (h.advance.moved ..) hx hmin hmax rfl
  simp only [State.moved_cfg, State.advance_cfg, State.moved_out, State.advance_out] at hpoll
  have h2 := h1.append hpoll
  rw [State.exchanged_moved] at h2
  have c3 := c2.right
  rw [poll_length] at c3
  have g : Going (s.advance.exchanged (BitVec.ofNat 16 x.polls) x.ret s.out (writeAllEvents (crcWrites s.cfg data) x.pre ++
      x.pollEvents s.cfg) (flatPairs [x.lo, x.hi] ++ rest) (2 * (n + 3) + 2 * x.polls) v
      (4 * (n + 3) + (9 + (delay s.cfg.crcPollIntervalMs).length))) := h.advance.exchanged ..
  have h3 := h2.append (g.micro (m := .clearOut)
    (t := s.advance.exchanged (BitVec.ofNat 16 x.polls) x.ret [] (writeAllEvents (crcWrites s.cfg data) x.pre ++
      x.pollEvents s.cfg) (flatPairs [x.lo, x.hi] ++ rest) (2 * (n + 3) + 2 * x.polls) v
      (4 * (n + 3) + (9 + (delay s.cfg.crcPollIntervalMs).length) + 1))
    (at_of c3.left.head (by simp [State.exchanged]; omega)) rfl (h.advance.exchanged ..) (by simp))
  have h4 := h3.append (gets_readPush (p := codeCalcCrc s.cfg n) (a := s.cfg.regCrcResultL) (x := x.lo.1) (y := x.lo.2)
    (rest := flatPairs [x.hi] ++ rest) (c3.right.left.cast (by simp [State.exchanged]; omega)) (h.advance.exchanged ..)
    (by simp [State.exchanged, flatPairs]))
  rw [State.read_exchanged] at h4
  have h5 := h4.append (gets_readPush (p := codeCalcCrc s.cfg n) (a := s.cfg.regCrcResultH) (x := x.hi.1) (y := x.hi.2)
    (rest := rest) (c3.right.right.left.cast (by simp [State.exchanged]; omega)) (h.advance.exchanged ..)
    (by simp [State.exchanged, flatPairs]))
  rw [State.read_exchanged] at h5
  have c6 := c3.right.right.right.head
  refine ⟨1 + (4 * (n + 3) + (9 + (delay s.cfg.crcPollIntervalMs).length) + 1 + 5 + 5),
    at_of c6 (by simp; omega), h5.cast (by omega) ?_⟩
  have hpl : x.pairs.length = n + 3 + x.polls + 2 := by
    have := hx.1
    simp [CrcAnswers.pairs, CrcAnswers.polls]; omega
  simp [State.exchanged, State.moved, CrcAnswers.events, hpl, State.advance]
  omega

/-- The readings of a CALC_CRC's events. -/
theorem CrcAnswers.txns_events {c : Params} {n : Nat} {data : List Byte} {x : CrcAnswers} (hx : x.Fits c n)
    (hd : data.length = n) : Machine.txns (x.events c data) = x.txns c data := by
  have hw : (crcWrites c data).map (fun w => Txn.write w.1 w.2) =
      [.write c.regCommand (chipByte c.cmdIdle), .write c.regFifoLevel c.fifoFlush] ++ data.map (.write c.regFifoData) ++
        [.write c.regCommand (chipByte c.cmdCalcCrc)] := by
    simp [crcWrites, Function.comp_def]
  have hnil : Machine.txns (readEvents c c.regCrcResultH x.hi.1 x.hi.2) = [.read c.regCrcResultH x.hi.2] := by
    have := txns_readEvents c c.regCrcResultH x.hi.1 x.hi.2 []
    rwa [List.append_nil] at this
  have hr : ∀ y : List Event, Machine.txns (y ++ []) = Machine.txns y := fun y => by rw [List.append_nil]
  obtain ⟨pre, ms, hit, lo, hi⟩ := x
  rw [← hr]
  simp only [events, List.append_assoc]
  rw [txns_writeAllEvents _ _ _ (by have := hx.1; simp [crcWrites]; simp at this; omega), hw]
  cases hit <;>
    simp [pollEvents, txns_pollTimeoutEvents, txns_pollMissEvents, hnil, CrcAnswers.txns]

theorem CrcAnswers.delays_events (c : Params) (data : List Byte) (x : CrcAnswers) :
    delays (x.events c data) = delayList (x.polls - 1) c.crcPollIntervalMs := by
  obtain ⟨pre, ms, hit, lo, hi⟩ := x
  cases hit <;>
    simp [events, pollEvents, CrcAnswers.polls, delays_writeAllEvents, delays_pollTimeoutEvents, delays_pollMissEvents]

theorem CrcAnswers.quiet_events (c : Params) (data : List Byte) (x : CrcAnswers) : quiet (x.events c data) := by
  obtain ⟨pre, ms, hit, lo, hi⟩ := x
  refine (((quiet_writeAllEvents ..).append ?_).append (quiet_readEvents ..)).append (quiet_readEvents ..)
  cases hit with
  | none => exact quiet_pollTimeoutEvents ..
  | some h => exact (quiet_pollMissEvents ..).append (quiet_readEvents ..)

end Sys2Proof.Machine
end

