-- ==== Sys2Proof/Laws/Answers.lean ====
section
/-! SUPPORT. Any long enough list of answers can be read as the answers of a poll: so the result statements, which name the
answers by the way a poll goes, leave no case out. -/

namespace Sys2Proof.Machine

/-- Bytes taken two at a time. -/
theorem pairs_of_bytes (k : Nat) : ∀ l : List Byte, 2 * k ≤ l.length → ∃ ps rest, l = flatPairs ps ++ rest ∧ ps.length = k := by
  induction k with
  | zero => intro l _; exact ⟨[], l, rfl, rfl⟩
  | succ k ih =>
    intro l h
    obtain _ | ⟨x, _ | ⟨y, l⟩⟩ := l
    · simp at h
    · simp at h; omega
    · obtain ⟨ps, rest, hl, hk⟩ := ih l (by simp at h; omega)
      exact ⟨(x, y) :: ps, rest, by simp [flatPairs, hl], by simp [hk]⟩

/-- A poll over a list of answers hits at some read within the bound, or times out (R140). -/
theorem poll_splits (mask : Byte) : ∀ (max : Nat) (l : List (Byte × Byte)), max ≤ l.length →
    (∃ ms hit rest, l = ms ++ hit :: rest ∧ PollHits mask max ms hit) ∨ (∃ ms rest, l = ms ++ rest ∧ PollTimesOut mask max ms) := by
  intro max
  induction max with
  | zero => intro l _; exact .inr ⟨[], l, rfl, by simp, rfl⟩
  | succ max ih =>
    intro l h
    obtain _ | ⟨q, l⟩ := l
    · simp at h
    · cases hq : anyBit q.2 mask with
      | true => exact .inl ⟨[], q, l, rfl, by simp, by simp, hq⟩
      | false =>
        rcases ih l (by simpa using h) with ⟨ms, hit, rest, rfl, hp⟩ | ⟨ms, rest, rfl, hp⟩
        · refine .inl ⟨q :: ms, hit, rest, rfl, ?_, by simpa using hp.inTime, hp.hits⟩
          simpa [hq] using hp.missed
        · refine .inr ⟨q :: ms, rest, rfl, ?_, by simpa using hp.all⟩
          simpa [hq] using hp.missed

end Sys2Proof.Machine
end

