-- ==== Sys2Proof/Laws/Frames.lean ====
section
/-! SUPPORT. What one atomic step can change (`atom_frame`), and that a burst keeps whatever every atomic step keeps
(`perform_keeps`): the frame proofs of the instructions go through these two. -/

namespace Sys2Proof.Machine

/-! ## Bursts keep what atomic steps keep -/

theorem burst_keeps {p : Code} {P : State → Prop} (hP : ∀ s t, P s → atom p s = .next t → P t) :
    ∀ (n : Nat) (s t : State), P s → burst p n s = .next t → P t := by
  intro n
  induction n with
  | zero =>
    intro s t hs h
    simp only [burst] at h
    cases h; exact hs
  | succ n ih =>
    intro s t hs h
    simp only [burst] at h
    split at h
    · rename_i u hu
      have hPu := hP s u hs hu
      split at h
      · cases h; exact hPu
      · exact ih u t hPu h
    · cases h
    · cases h

theorem perform_keeps {p : Code} {P : State → Prop} (hP : ∀ s t, P s → atom p s = .next t → P t) {s t : State} (hs : P s)
    (h : perform p s = .next t) : P t :=
  burst_keeps hP _ s t hs h

/-! ## What a step of the sequencer touches -/

/-- The step writes the actuator (R210 to R212). -/
def Micro.touchesLock : Micro → Bool
  | .unlock | .lock => true
  | _ => false

/-- The step writes `ctrlState` or emits a diagnostic (R28, R196). -/
def Micro.touchesCtrl : Micro → Bool
  | .ctrl _ | .emit _ | .emitUid => true
  | _ => false

/-- The step writes `tagType` or `uidBuf` (R30). -/
def Micro.touchesBuffers : Micro → Bool
  | .clearBuffers | .clearTag | .clearUid | .storeTag | .storeUid => true
  | _ => false

/-- The step writes `pollCount` or `POLLS` (R31). -/
def Micro.touchesPolls : Micro → Bool
  | .pollBegin | .pollIncrement | .pollHit _ _ | .pollLast _ _ => true
  | _ => false

/-- The step sets `running` (R190). -/
def Micro.setsRunning : Micro → Bool
  | .setRunning => true
  | _ => false

/-- The step is one of a cycle that leaves a result without a `Finish` (R185). -/
def Micro.leavesResult : Micro → Bool
  | .leaveResult => true
  | _ => false

/-- What one step `m` can change from `s` to `t`. -/
structure MicroFrame (m : Micro) (s t : State) : Prop where
  cmd : t.cmd = s.cmd
  dataIn : t.dataIn = s.dataIn
  overrun : t.overrun = s.overrun
  cfg : t.cfg = s.cfg
  env : t.env = s.env
  hostData : t.hostData = s.hostData
  answers : t.answers = s.answers
  draws : t.draws = s.draws
  lock : m.touchesLock = false → t.lockState = s.lockState ∧ t.lockOut = s.lockOut ∧ t.unlockOut = s.unlockOut
  outs : m.touchesLock = false → outs t.trace = outs s.trace
  ctrl : m.touchesCtrl = false → t.ctrlState = s.ctrlState
  diags : m.touchesCtrl = false → diags t.trace = diags s.trace
  buffers : m.touchesBuffers = false → t.tagType = s.tagType ∧ t.uidBuf = s.uidBuf
  polls : m.touchesPolls = false → t.pollCount = s.pollCount ∧ t.polls = s.polls
  grows : s.trace <+: t.trace
  goes : (t.op = s.op ∧ t.busy = s.busy ∧ t.status = s.status ∧ t.rdata = s.rdata ∧
      (m.setsRunning = false → t.running = s.running) ∧ (m.leavesResult = false → t.resp = s.resp ∧ t.respLen = s.respLen)) ∨
    (t.op = none ∧ t.busy = false ∧ t.running = false)

theorem resWrites_frame (ws : List ResWrite) : ∀ s : State,
    ∃ rd rs rl, resWrites ws s = { s with rdata := rd, resp := rs, respLen := rl } := by
  induction ws with
  | nil => intro s; exact ⟨s.rdata, s.resp, s.respLen, rfl⟩
  | cons w ws ih =>
    intro s
    obtain ⟨rd, rs, rl, h⟩ := ih (resWrite s w)
    refine ⟨rd, rs, rl, ?_⟩
    rw [resWrites, List.foldl_cons, ← resWrites, h]
    cases w <;> rfl

/-- What `Finish` does (R222): the result registers, `STATUS`, `op`, `running`, `BUSY`, and the event. -/
theorem finish_frame (st : Status) (ws : List ResWrite) (s : State) :
    ∃ rd rs rl, finish st ws s = { s with
      rdata := rd, resp := rs, respLen := rl, status := st, op := none, running := false, busy := false
      trace := s.trace ++ [.opDone st] } := by
  obtain ⟨rd, rs, rl, h⟩ := resWrites_frame ws s
  exact ⟨rd, rs, rl, by rw [finish, h]; rfl⟩

/-- A `Finish` in the terms of `MicroFrame`. -/
theorem MicroFrame.finish (m : Micro) (st : Status) (ws : List ResWrite) (s : State) :
    MicroFrame m s (Machine.finish st ws s) := by
  obtain ⟨rd, rs, rl, h⟩ := finish_frame st ws s
  rw [h]
  exact ⟨rfl, rfl, rfl, rfl, rfl, rfl, rfl, rfl, fun _ => ⟨rfl, rfl, rfl⟩, fun _ => by simp; rfl, fun _ => rfl,
    fun _ => by simp; rfl, fun _ => ⟨rfl, rfl⟩, fun _ => ⟨rfl, rfl⟩, List.prefix_append .., .inr ⟨rfl, rfl, rfl⟩⟩

/-- A step that keeps the operation and the trace. -/
theorem MicroFrame.still {m : Micro} {s t : State} (cmd : t.cmd = s.cmd) (dataIn : t.dataIn = s.dataIn)
    (overrun : t.overrun = s.overrun) (cfg : t.cfg = s.cfg) (env : t.env = s.env) (hostData : t.hostData = s.hostData)
    (answers : t.answers = s.answers) (draws : t.draws = s.draws)
    (lock : t.lockState = s.lockState ∧ t.lockOut = s.lockOut ∧ t.unlockOut = s.unlockOut)
    (ctrl : m.touchesCtrl = false → t.ctrlState = s.ctrlState)
    (buffers : m.touchesBuffers = false → t.tagType = s.tagType ∧ t.uidBuf = s.uidBuf)
    (polls : m.touchesPolls = false → t.pollCount = s.pollCount ∧ t.polls = s.polls) (trace : t.trace = s.trace)
    (op : t.op = s.op) (busy : t.busy = s.busy) (status : t.status = s.status) (rdata : t.rdata = s.rdata)
    (running : m.setsRunning = false → t.running = s.running)
    (resp : m.leavesResult = false → t.resp = s.resp ∧ t.respLen = s.respLen) : MicroFrame m s t :=
  ⟨cmd, dataIn, overrun, cfg, env, hostData, answers, draws, fun _ => lock, fun _ => by rw [trace], ctrl, fun _ => by rw [trace],
    buffers, polls, by rw [trace], .inl ⟨op, busy, status, rdata, running, resp⟩⟩

/-- A step that appends one event which is neither output nor diagnostic. -/
theorem MicroFrame.logs {m : Micro} {s t : State} {e : Event} (h : MicroFrame m s { t with trace := s.trace })
    (he : t.trace = s.trace ++ [e]) (ho : Machine.outs [e] = []) (hd : Machine.diags [e] = []) : MicroFrame m s t :=
  ⟨h.cmd, h.dataIn, h.overrun, h.cfg, h.env, h.hostData, h.answers, h.draws, h.lock,
    fun _ => by rw [he, outs_append, ho, List.append_nil], h.ctrl, fun _ => by rw [he, diags_append, hd, List.append_nil],
    h.buffers, h.polls, by rw [he]; exact List.prefix_append .., h.goes⟩

theorem execMicro_frame {m : Micro} {s t : State} (h : execMicro m s = .next t) : MicroFrame m s t := by
  have hst : ∀ (m : Micro) (t : State), t.cmd = s.cmd ∧ t.dataIn = s.dataIn ∧ t.overrun = s.overrun ∧ t.cfg = s.cfg ∧
      t.env = s.env ∧ t.hostData = s.hostData ∧ t.answers = s.answers ∧ t.draws = s.draws ∧ t.lockState = s.lockState ∧
      t.lockOut = s.lockOut ∧ t.unlockOut = s.unlockOut ∧ t.ctrlState = s.ctrlState ∧ t.tagType = s.tagType ∧
      t.uidBuf = s.uidBuf ∧ t.pollCount = s.pollCount ∧ t.polls = s.polls ∧ t.trace = s.trace ∧ t.op = s.op ∧
      t.busy = s.busy ∧ t.status = s.status ∧ t.rdata = s.rdata ∧ t.running = s.running ∧ t.resp = s.resp ∧
      t.respLen = s.respLen → MicroFrame m s t := by
    rintro m t ⟨h1, h2, h3, h4, h5, h6, h7, h8, h9, h10, h11, h12, h13, h14, h15, h16, h17, h18, h19, h20, h21, h22, h23, h24⟩
    exact .still h1 h2 h3 h4 h5 h6 h7 h8 ⟨h9, h10, h11⟩ (fun _ => h12) (fun _ => ⟨h13, h14⟩) (fun _ => ⟨h15, h16⟩) h17 h18
      h19 h20 h21 (fun _ => h22) (fun _ => ⟨h23, h24⟩)
  cases m with
  | checks c =>
    cases c <;> simp only [execMicro, checks] at h <;> (repeat' split at h) <;> cases h <;>
      first
      | exact .finish ..
      | exact hst _ _ (by simp)
  | select =>
    simp only [execMicro, select] at h
    split at h
    · cases h
    · cases h
      exact .logs (hst _ _ (by simp)) (e := .sel) rfl rfl rfl
  | xferDrop x =>
    simp only [execMicro, startXfer] at h
    repeat' split at h
    all_goals first | cases h; done | (cases h; exact hst _ _ (by simp))
  | xferKeep x =>
    simp only [execMicro, startXfer] at h
    repeat' split at h
    all_goals first | cases h; done | (cases h; exact hst _ _ (by simp))
  | deselect =>
    simp only [execMicro, deselect] at h
    split at h
    · cases h
      exact .logs (hst _ _ (by simp)) (e := .desel) rfl rfl rfl
    · cases h
  | delay ms =>
    simp only [execMicro, startDelay] at h
    split at h
    · cases h; exact hst _ _ (by simp)
    · cases h
      exact .logs (hst _ _ (by simp)) (e := .delay ms) rfl rfl rfl
  | pollHit mask n =>
    simp only [execMicro] at h
    split at h <;> cases h
    · exact .still rfl rfl rfl rfl rfl rfl rfl rfl ⟨rfl, rfl, rfl⟩ (fun _ => rfl) (fun _ => ⟨rfl, rfl⟩) (by simp [Micro.touchesPolls])
        rfl rfl rfl rfl rfl (fun _ => rfl) (fun _ => ⟨rfl, rfl⟩)
    · exact hst _ _ (by simp)
  | pollLast max n =>
    simp only [execMicro] at h
    split at h <;> cases h
    · exact .still rfl rfl rfl rfl rfl rfl rfl rfl ⟨rfl, rfl, rfl⟩ (fun _ => rfl) (fun _ => ⟨rfl, rfl⟩) (by simp [Micro.touchesPolls])
        rfl rfl rfl rfl rfl (fun _ => rfl) (fun _ => ⟨rfl, rfl⟩)
    · exact hst _ _ (by simp)
  | pollBegin =>
    cases h
    exact .still rfl rfl rfl rfl rfl rfl rfl rfl ⟨rfl, rfl, rfl⟩ (fun _ => rfl) (fun _ => ⟨rfl, rfl⟩) (by simp [Micro.touchesPolls])
        rfl rfl rfl rfl rfl (fun _ => rfl) (fun _ => ⟨rfl, rfl⟩)
  | pollIncrement =>
    cases h
    exact .still rfl rfl rfl rfl rfl rfl rfl rfl ⟨rfl, rfl, rfl⟩ (fun _ => rfl) (fun _ => ⟨rfl, rfl⟩) (by simp [Micro.touchesPolls])
        rfl rfl rfl rfl rfl (fun _ => rfl) (fun _ => ⟨rfl, rfl⟩)
  | back n => cases h; exact hst _ _ (by simp)
  | unlessBits mask n => simp only [execMicro] at h; split at h <;> cases h <;> exact hst _ _ (by simp)
  | ifFail n => simp only [execMicro] at h; split at h <;> cases h <;> exact hst _ _ (by simp)
  | errTest mask n => simp only [execMicro] at h; split at h <;> cases h <;> exact hst _ _ (by simp)
  | clearOut => cases h; exact hst _ _ (by simp)
  | push => cases h; exact hst _ _ (by simp)
  | clearBuffers =>
    cases h
    exact .still rfl rfl rfl rfl rfl rfl rfl rfl ⟨rfl, rfl, rfl⟩ (fun _ => rfl) (by simp [Micro.touchesBuffers]) (fun _ => ⟨rfl, rfl⟩)
        rfl rfl rfl rfl rfl (fun _ => rfl) (fun _ => ⟨rfl, rfl⟩)
  | clearTag =>
    cases h
    exact .still rfl rfl rfl rfl rfl rfl rfl rfl ⟨rfl, rfl, rfl⟩ (fun _ => rfl) (by simp [Micro.touchesBuffers]) (fun _ => ⟨rfl, rfl⟩)
        rfl rfl rfl rfl rfl (fun _ => rfl) (fun _ => ⟨rfl, rfl⟩)
  | clearUid =>
    cases h
    exact .still rfl rfl rfl rfl rfl rfl rfl rfl ⟨rfl, rfl, rfl⟩ (fun _ => rfl) (by simp [Micro.touchesBuffers]) (fun _ => ⟨rfl, rfl⟩)
        rfl rfl rfl rfl rfl (fun _ => rfl) (fun _ => ⟨rfl, rfl⟩)
  | storeTag =>
    cases h
    exact .still rfl rfl rfl rfl rfl rfl rfl rfl ⟨rfl, rfl, rfl⟩ (fun _ => rfl) (by simp [Micro.touchesBuffers]) (fun _ => ⟨rfl, rfl⟩)
        rfl rfl rfl rfl rfl (fun _ => rfl) (fun _ => ⟨rfl, rfl⟩)
  | storeUid =>
    cases h
    exact .still rfl rfl rfl rfl rfl rfl rfl rfl ⟨rfl, rfl, rfl⟩ (fun _ => rfl) (by simp [Micro.touchesBuffers]) (fun _ => ⟨rfl, rfl⟩)
        rfl rfl rfl rfl rfl (fun _ => rfl) (fun _ => ⟨rfl, rfl⟩)
  | compareData =>
    simp only [execMicro] at h
    split at h
    · cases h; exact hst _ _ (by simp)
    · cases h
  | ctrl c =>
    cases h
    exact .still rfl rfl rfl rfl rfl rfl rfl rfl ⟨rfl, rfl, rfl⟩ (by simp [Micro.touchesCtrl]) (fun _ => ⟨rfl, rfl⟩) (fun _ => ⟨rfl, rfl⟩)
        rfl rfl rfl rfl rfl (fun _ => rfl) (fun _ => ⟨rfl, rfl⟩)
  | emit d =>
    cases h
    exact ⟨rfl, rfl, rfl, rfl, rfl, rfl, rfl, rfl, fun _ => ⟨rfl, rfl, rfl⟩, fun _ => by simp [emit], fun _ => rfl,
      by simp [Micro.touchesCtrl], fun _ => ⟨rfl, rfl⟩, fun _ => ⟨rfl, rfl⟩, List.prefix_append ..,
      .inl ⟨rfl, rfl, rfl, rfl, fun _ => rfl, fun _ => ⟨rfl, rfl⟩⟩⟩
  | emitUid =>
    simp only [execMicro] at h
    split at h
    · cases h
      exact ⟨rfl, rfl, rfl, rfl, rfl, rfl, rfl, rfl, fun _ => ⟨rfl, rfl, rfl⟩, fun _ => by simp [emit], fun _ => rfl,
        by simp [Micro.touchesCtrl], fun _ => ⟨rfl, rfl⟩, fun _ => ⟨rfl, rfl⟩, List.prefix_append ..,
        .inl ⟨rfl, rfl, rfl, rfl, fun _ => rfl, fun _ => ⟨rfl, rfl⟩⟩⟩
    · cases h
  | leaveResult =>
    simp only [execMicro, leaveResult] at h
    split at h <;> cases h <;>
    exact .still rfl rfl rfl rfl rfl rfl rfl rfl ⟨rfl, rfl, rfl⟩ (fun _ => rfl) (fun _ => ⟨rfl, rfl⟩) (fun _ => ⟨rfl, rfl⟩)
        rfl rfl rfl rfl rfl (fun _ => rfl) (by simp [Micro.leavesResult])
  | onFail code n => simp only [execMicro] at h; split at h <;> cases h <;> exact hst _ _ (by simp)
  | ifMatch n =>
    simp only [execMicro] at h
    split at h
    · split at h <;> cases h <;> exact hst _ _ (by simp)
    · cases h
  | unlock =>
    cases h
    exact ⟨rfl, rfl, rfl, rfl, rfl, rfl, rfl, rfl, by simp [Micro.touchesLock], by simp [Micro.touchesLock], fun _ => rfl,
      fun _ => by simp, fun _ => ⟨rfl, rfl⟩, fun _ => ⟨rfl, rfl⟩, List.prefix_append ..,
      .inl ⟨rfl, rfl, rfl, rfl, fun _ => rfl, fun _ => ⟨rfl, rfl⟩⟩⟩
  | lock =>
    cases h
    exact ⟨rfl, rfl, rfl, rfl, rfl, rfl, rfl, rfl, by simp [Micro.touchesLock], by simp [Micro.touchesLock], fun _ => rfl,
      fun _ => by simp, fun _ => ⟨rfl, rfl⟩, fun _ => ⟨rfl, rfl⟩, List.prefix_append ..,
      .inl ⟨rfl, rfl, rfl, rfl, fun _ => rfl, fun _ => ⟨rfl, rfl⟩⟩⟩
  | outcome code n => cases h; exact hst _ _ (by simp)
  | setRunning =>
    cases h
    exact .still rfl rfl rfl rfl rfl rfl rfl rfl ⟨rfl, rfl, rfl⟩ (fun _ => rfl) (fun _ => ⟨rfl, rfl⟩) (fun _ => ⟨rfl, rfl⟩)
        rfl rfl rfl rfl rfl (by simp [Micro.setsRunning]) (fun _ => ⟨rfl, rfl⟩)
  | restart n => cases h; exact hst _ _ (by simp)
  | finish st ws => cases h; exact .finish ..
  | finishRet ws => cases h; exact .finish ..
  | finishFail => cases h; exact .finish ..
  | retire =>
    cases h
    exact ⟨rfl, rfl, rfl, rfl, rfl, rfl, rfl, rfl, fun _ => ⟨rfl, rfl, rfl⟩, fun _ => rfl, fun _ => rfl, fun _ => rfl,
      fun _ => ⟨rfl, rfl⟩, fun _ => ⟨rfl, rfl⟩, List.prefix_refl _, .inr ⟨rfl, rfl, rfl⟩⟩

/-- The four kinds of an atomic step (R120, R236, R24). -/
theorem atom_cases {p : Code} {s t : State} (h : atom p s = .next t) :
    (∃ out keep, s.hold = .bus out keep ∧ t = completeXfer out keep s) ∨ (s.hold = .timer ∧ t = completeDelay s) ∨
    (s.hold = .free ∧ ∃ m, m ∈ p ∧ p[s.seq]? = some m ∧ execMicro m s = .next t) ∨
    (s.hold = .free ∧ p[s.seq]? = none ∧ t = s) := by
  unfold atom at h
  split at h
  · rename_i out keep hh
    cases h
    exact .inl ⟨out, keep, hh, rfl⟩
  · rename_i hh
    cases h
    exact .inr (.inl ⟨hh, rfl⟩)
  · rename_i hh
    split at h
    · rename_i m hm
      exact .inr (.inr (.inl ⟨hh, m, List.mem_of_getElem? hm, hm, h⟩))
    · rename_i hm
      cases h
      exact .inr (.inr (.inr ⟨hh, hm, rfl⟩))

/-- A property that every kind of atomic step of the code `p` keeps is kept by `atom`. -/
theorem atom_rel {p : Code} {P : State → Prop} {s t : State} (hs : P s) (h : atom p s = .next t)
    (hx : ∀ u out keep, P u → P (completeXfer out keep u)) (hd : ∀ u, P u → P (completeDelay u))
    (hm : ∀ m ∈ p, ∀ u w, P u → execMicro m u = .next w → P w) : P t := by
  rcases atom_cases h with ⟨out, keep, -, rfl⟩ | ⟨-, rfl⟩ | ⟨-, m, hmem, -, he⟩ | ⟨-, -, rfl⟩
  · exact hx s out keep hs
  · exact hd s hs
  · exact hm m hmem s t hs he
  · exact hs

/-- A property that every kind of atomic step of the code `p` keeps is kept by `perform`. -/
theorem perform_rel {p : Code} {P : State → Prop} {s t : State} (hs : P s) (h : perform p s = .next t)
    (hx : ∀ u out keep, P u → P (completeXfer out keep u)) (hd : ∀ u, P u → P (completeDelay u))
    (hm : ∀ m ∈ p, ∀ u w, P u → execMicro m u = .next w → P w) : P t :=
  perform_keeps (fun _ _ hu hw => atom_rel hu hw hx hd hm) hs h

/-- Every meaning performs its instruction's code. -/
theorem exec_eq_perform (i : Instr) (s : State) : exec i s = perform (program s.cfg i) s := by
  cases i <;> rfl

/-- A property that every kind of atomic step of an instruction's code keeps holds after any advance of the instruction. -/
theorem advances_rel {i : Instr} {P : State → Prop} {s t : State} (hs : P s) (h : Advances i s t)
    (hx : ∀ u out keep, P u → P (completeXfer out keep u)) (hd : ∀ u, P u → P (completeDelay u))
    (hm : ∀ m ∈ program s.cfg i, ∀ u w, P u → execMicro m u = .next w → P w) : P t := by
  rcases h with h | h
  · exact perform_rel hs (exec_eq_perform i s ▸ h) hx hd hm
  · exact atom_rel hs h hx hd hm

end Sys2Proof.Machine
end

