-- ==== Sys2Proof/Laws/Phase.lean ====
section
/-! SUPPORT. The layout of the operations' codes: pieces of code that begin and end with no transaction open and whose branches
stay inside them (`Closed`), and whole codes that never run off their end (`Sound`). The bus invariant (R26, R122) rests on
it. -/

namespace Sys2Proof.Machine

/-! ## Phases along a code -/

theorem phaseAt_le {q : Code} : ∀ {k : Nat} {ph r : Option Nat}, phaseAt q k ph = some r → k ≤ q.length := by
  induction q with
  | nil =>
    intro k ph r h
    cases k with
    | zero => exact Nat.le_refl 0
    | succ k => simp [phaseAt] at h
  | cons m q ih =>
    intro k ph r h
    cases k with
    | zero => exact Nat.zero_le _
    | succ k =>
      simp only [phaseAt] at h
      split at h
      · have := ih h
        simp; omega
      · cases h

theorem phaseAt_append_left {q r : Code} : ∀ {k : Nat} {ph : Option Nat}, k ≤ q.length →
    phaseAt (q ++ r) k ph = phaseAt q k ph := by
  induction q with
  | nil =>
    intro k ph h
    obtain rfl : k = 0 := by simpa using h
    cases r <;> rfl
  | cons m q ih =>
    intro k ph h
    cases k with
    | zero => rfl
    | succ k =>
      simp only [List.cons_append, phaseAt]
      split
      · exact ih (by simpa using h)
      · rfl

theorem phaseAt_append_right {q r : Code} : ∀ {ph ph' : Option Nat} (k : Nat), phaseAt q q.length ph = some ph' →
    phaseAt (q ++ r) (q.length + k) ph = phaseAt r k ph' := by
  induction q with
  | nil =>
    intro ph ph' k h
    simp only [List.length_nil, phaseAt, Option.some.injEq] at h
    subst h
    simp
  | cons m q ih =>
    intro ph ph' k h
    simp only [List.length_cons, phaseAt] at h
    split at h
    · rename_i ph1 hm
      rw [List.cons_append, show (m :: q).length + k = (q.length + k) + 1 by simp; omega]
      simp only [phaseAt, hm]
      exact ih k h
    · cases h

theorem phaseAt_succ {p : Code} : ∀ {k : Nat} {m : Micro} {ph r : Option Nat}, p[k]? = some m → phaseAt p k ph = some r →
    phaseAt p (k + 1) ph = microPhase m r := by
  induction p with
  | nil => intro k m ph r hm; simp at hm
  | cons x p ih =>
    intro k m ph r hm h
    cases k with
    | zero =>
      simp only [List.getElem?_cons_zero, Option.some.injEq] at hm
      simp only [phaseAt, Option.some.injEq] at h
      subst hm h
      simp only [phaseAt]
      split <;> simp_all
    | succ k =>
      simp only [phaseAt] at h
      split at h
      · rename_i ph' hx
        rw [show k + 1 + 1 = (k + 1) + 1 from rfl]
        conv => lhs; simp only [phaseAt, hx]
        have := ih (by simpa using hm) h
        simpa only [phaseAt] using this
      · cases h

/-! ## Branches -/

/-- Where a branch at step `k` may lead besides the next step. -/
def Micro.target (m : Micro) (k : Nat) : Option Nat :=
  match m with
  | .pollHit _ n | .pollLast _ n | .unlessBits _ n | .ifFail n | .errTest _ n | .onFail _ n | .ifMatch n | .outcome _ n =>
    some (k + 1 + n)
  | .back n => some (k - n)
  | _ => none

/-- A step that a piece of code may hold at place `k`. -/
def jumpOk (q : Code) (m : Micro) (k : Nat) : Bool :=
  (match m with
  | .back n => decide (n ≤ k)
  | .restart _ => false
  | _ => true) &&
  (match m.target k with
  | some d => phaseAt q d none == some none
  | none => true)

/-- The piece of code begins and ends with no transaction open, and its branches lead to such places of it. -/
structure Closed (q : Code) : Prop where
  ends : phaseAt q q.length none = some none
  jumps : ∀ (k : Nat) (m : Micro), q[k]? = some m → jumpOk q m k = true

/-- A decision procedure for short pieces. -/
def closedB (q : Code) : Bool :=
  phaseAt q q.length none == some none &&
    (List.range q.length).all fun k => match q[k]? with
      | some m => jumpOk q m k
      | none => true

theorem Closed.of_check {q : Code} (h : closedB q = true) : Closed q := by
  simp only [closedB, Bool.and_eq_true, beq_iff_eq, List.all_eq_true, List.mem_range] at h
  refine ⟨h.1, fun k m hm => ?_⟩
  have := h.2 k (List.getElem?_eq_some_iff.mp hm).1
  simpa [hm] using this

theorem jumpOk_append_left {q r : Code} {m : Micro} {k : Nat} (h : jumpOk q m k = true) : jumpOk (q ++ r) m k = true := by
  simp only [jumpOk, Bool.and_eq_true] at h ⊢
  refine ⟨h.1, ?_⟩
  have h2 := h.2
  cases hd : m.target k with
  | none => rfl
  | some d =>
    rw [hd] at h2
    simp only [beq_iff_eq] at h2 ⊢
    rw [phaseAt_append_left (phaseAt_le h2), h2]

theorem jumpOk_append_right {q r : Code} {m : Micro} {k : Nat} (hq : phaseAt q q.length none = some none)
    (h : jumpOk r m k = true) : jumpOk (q ++ r) m (q.length + k) = true := by
  cases m <;>
    simp only [jumpOk, Micro.target, Bool.and_eq_true, beq_iff_eq, decide_eq_true_eq, Bool.true_and, Bool.and_true,
      Bool.false_eq_true] at h ⊢ <;>
    first
    | done
    | (rw [show ∀ n, q.length + k + 1 + n = q.length + (k + 1 + n) by intro n; omega, phaseAt_append_right _ hq]; exact h)
    | (obtain ⟨h1, h2⟩ := h
       rename_i n
       refine ⟨by omega, ?_⟩
       rw [show q.length + k - n = q.length + (k - n) by omega, phaseAt_append_right _ hq]; exact h2)

theorem Closed.append {q r : Code} (hq : Closed q) (hr : Closed r) : Closed (q ++ r) := by
  refine ⟨?_, fun k m hm => ?_⟩
  · rw [List.length_append, phaseAt_append_right _ hq.ends, hr.ends]
  · by_cases hk : k < q.length
    · rw [List.getElem?_append_left hk] at hm
      exact jumpOk_append_left (hq.jumps k m hm)
    · rw [List.getElem?_append_right (by omega)] at hm
      have := jumpOk_append_right hq.ends (hr.jumps _ m hm)
      rwa [Nat.add_sub_cancel' (by omega)] at this

/-- A step that may pass over the piece `q` that follows it. -/
theorem Closed.guard {m : Micro} {q : Code} (hq : Closed q) (hm : microPhase m none = some none)
    (hb : ∀ n, m ≠ .back n) (hr : ∀ n, m ≠ .restart n) (ht : m.target 0 = some (q.length + 1)) : Closed ([m] ++ q) := by
  have h1 : phaseAt [m] [m].length none = some none := by
    simp [phaseAt, hm]
  have he : phaseAt ([m] ++ q) (q.length + 1) none = some none := by
    rw [show q.length + 1 = [m].length + q.length by simp; omega, phaseAt_append_right _ h1, hq.ends]
  refine ⟨by rw [show ([m] ++ q).length = q.length + 1 by simp]; exact he, fun k x hx => ?_⟩
  cases k with
  | zero =>
    simp only [List.cons_append, List.nil_append, List.getElem?_cons_zero, Option.some.injEq] at hx
    subst hx
    simp only [jumpOk, ht, Bool.and_eq_true]
    refine ⟨?_, by simpa using he⟩
    cases m <;> simp_all
  | succ k =>
    have := jumpOk_append_right h1 (hq.jumps k x (by simpa using hx))
    rwa [show [m].length + k = k + 1 by simp; omega] at this

/-! ## The pieces of the operations -/

theorem closed_readReg (c : Params) (a : Addr) : Closed (readReg c a) := .of_check rfl

theorem closed_writeReg (a : Addr) (x : Src) : Closed (writeReg a x) := .of_check rfl

theorem closed_delay (ms : Nat) : Closed (delay ms) := by
  unfold delay; split <;> exact .of_check rfl

theorem closed_flatten {l : List Code} (h : ∀ q ∈ l, Closed q) : Closed l.flatten := by
  induction l with
  | nil => exact .of_check rfl
  | cons q l ih => exact (h q (by simp)).append (ih fun r hr => h r (by simp [hr]))

theorem closed_poll (c : Params) (reg : Addr) (mask : Byte) (max ivl : Nat) : Closed (poll c reg mask max ivl) := by
  unfold poll delay
  split <;> exact .of_check rfl

theorem closed_readFifo (c : Params) (n : Nat) : Closed (readFifo c n) := by
  refine Closed.append (.of_check rfl) (closed_flatten fun q hq => ?_)
  rw [List.eq_of_mem_replicate hq]
  exact .of_check rfl

theorem closed_collect (c : Params) (n : Nat) : Closed (collect c n) := by
  have := (closed_readReg c c.regError).append
    (Closed.guard (m := .errTest c.errMask (readFifo c n).length) (closed_readFifo c n) rfl (by simp) (by simp)
      (by simp [Micro.target, Nat.add_comm]))
  rwa [← List.append_assoc] at this

theorem closed_prologue (c : Params) (framing : Byte) (payload : List Byte) : Closed (prologue c framing payload) := by
  rw [prologue_eq]
  refine closed_flatten fun q hq => ?_
  obtain ⟨w, -, rfl⟩ := List.mem_map.mp hq
  exact closed_writeReg ..

theorem closed_transceive (c : Params) (framing : Byte) (payload : List Byte) (n : Nat) :
    Closed (transceive c framing payload n) := by
  have := ((closed_prologue c framing payload).append
    (closed_poll c c.regComIrq c.comIrqWaitMask c.pollMaxCom c.pollIntervalMs)).append
    (Closed.guard (m := .ifFail (collect c n).length) (closed_collect c n) rfl (by simp) (by simp)
      (by simp [Micro.target, Nat.add_comm]))
  rwa [← List.append_assoc] at this

theorem closed_requestBody (c : Params) (m : Byte) : Closed (requestBody c m) :=
  (Closed.append (.of_check rfl) (closed_transceive ..)).append (.of_check rfl)

theorem closed_anticollBody (c : Params) : Closed (anticollBody c) :=
  (Closed.append (.of_check rfl) (closed_transceive ..)).append (.of_check rfl)

theorem closed_decision (c : Params) : Closed (decision c) := by
  unfold decision grantedBranch delay
  split <;> exact .of_check rfl

theorem closed_afterRequest (c : Params) : Closed (afterRequest c) := by
  have := (Closed.append (.of_check (q := [.emit .cardDetected, .ctrl .readUid]) rfl) (closed_anticollBody c)).append (Closed.append (.of_check (q := [.leaveResult]) rfl)
    (Closed.guard (m := .onFail outcomeNoUid (decision c).length) (closed_decision c) rfl (by simp) (by simp)
      (by simp [Micro.target, Nat.add_comm])))
  rw [afterRequest_eq]
  simpa using this

theorem closed_cycle (c : Params) : Closed (cycle c) := by
  have := ((Closed.append (.of_check (q := [.clearBuffers, .ctrl .idle]) rfl) (closed_requestBody c c.reqMode)).append
    (Closed.append (.of_check (q := [.leaveResult]) rfl)
      (Closed.guard (m := .onFail outcomeNoTag (afterRequest c).length) (closed_afterRequest c) rfl (by simp) (by simp)
        (by simp [Micro.target, Nat.add_comm])))).append
    (Closed.append (closed_delay c.interPollMs) (.of_check (q := [.ctrl .idle]) rfl))
  rw [cycle_eq]
  simpa using this

/-! ## Whole codes -/

/-- The step never goes on to the next one. -/
def Micro.leaves : Micro → Bool
  | .checks .reserved | .back _ | .outcome _ _ | .restart _ | .finish _ _ | .finishRet _ | .finishFail | .retire => true
  | _ => false

/-- The code's phases are defined throughout, its branches lead to places inside it where no transaction is open, and no step
runs off its end. -/
structure Sound (p : Code) : Prop where
  ends : phaseAt p p.length none = some none
  jumps : ∀ (k : Nat) (m : Micro) (d : Nat), p[k]? = some m → m.target k = some d → phaseAt p d none = some none ∧ d < p.length
  again : ∀ (k n : Nat), p[k]? = some (.restart n) → phaseAt p n none = some none ∧ n < p.length
  falls : ∀ (k : Nat) (m : Micro), p[k]? = some m → m.leaves = false → k + 1 < p.length

/-- A closed body and one last step that ends the operation. -/
theorem Sound.of_body {q : Code} {m : Micro} (hq : Closed q) (hm : microPhase m none = some none) (hl : m.leaves = true)
    (ht : ∀ k, m.target k = none)
    (hr : ∀ n, m = .restart n → phaseAt q n none = some none) : Sound (q ++ [m]) := by
  have hlen : (q ++ [m]).length = q.length + 1 := by simp
  refine ⟨?_, fun k x d hx hd => ?_, fun k n hx => ?_, fun k x hx hf => ?_⟩
  · rw [List.length_append, phaseAt_append_right _ hq.ends]
    simp [phaseAt, hm]
  · by_cases hk : k < q.length
    · rw [List.getElem?_append_left hk] at hx
      have := hq.jumps k x hx
      simp only [jumpOk, hd, Bool.and_eq_true, beq_iff_eq] at this
      have hle := phaseAt_le this.2
      exact ⟨by rw [phaseAt_append_left hle, this.2], by omega⟩
    · rw [List.getElem?_append_right (by omega)] at hx
      obtain rfl : m = x := by
        cases hkk : k - q.length with
        | zero => simpa [hkk] using hx
        | succ j => simp [hkk] at hx
      rw [ht] at hd; cases hd
  · by_cases hk : k < q.length
    · rw [List.getElem?_append_left hk] at hx
      have := hq.jumps k _ hx
      simp [jumpOk] at this
    · rw [List.getElem?_append_right (by omega)] at hx
      obtain rfl : m = .restart n := by
        cases hkk : k - q.length with
        | zero => simpa [hkk] using hx
        | succ j => simp [hkk] at hx
      have := hr n rfl
      have hle := phaseAt_le this
      exact ⟨by rw [phaseAt_append_left hle, this], by omega⟩
  · by_cases hk : k < q.length
    · omega
    · rw [List.getElem?_append_right (by omega)] at hx
      obtain rfl : m = x := by
        cases hkk : k - q.length with
        | zero => simpa [hkk] using hx
        | succ j => simp [hkk] at hx
      rw [hl] at hf; cases hf

/-- REQUEST and ANTICOLL end in one of two `Finish`es. -/
theorem Sound.of_two {q : Code} (hq : Closed q) (w : List ResWrite) : Sound (q ++ [.ifFail 1, .finish .ok w, .finishFail]) := by
  have := Sound.of_body (q := q ++ [.ifFail 1, .finish .ok w]) (m := .finishFail) (hq.append (.of_check rfl)) rfl rfl
    (fun _ => rfl) (by simp)
  simpa using this

theorem sound_program (c : Params) (i : Instr) : Sound (program c i) := by
  have fin : ∀ {q : Code} (st : Status) (w : List ResWrite), Closed q → Sound (q ++ [.finish st w]) := fun st w hq =>
    Sound.of_body hq rfl rfl (fun _ => rfl) (by simp)
  have ret : ∀ {q : Code}, Closed q → Sound (q ++ [.retire]) := fun hq =>
    Sound.of_body hq rfl rfl (fun _ => rfl) (by simp)
  have adm : ∀ ck, Closed [.checks ck] := fun ck => .of_check rfl
  have res : Sound codeReserved := Sound.of_body (q := []) (m := .checks .reserved) (.of_check rfl) rfl rfl (fun _ => rfl) (by simp)
  cases i with
  | readReg a => exact fin _ _ ((adm _).append (closed_readReg ..))
  | writeReg a v => exact fin _ _ ((adm _).append (closed_writeReg ..))
  | resetReader => exact fin _ _ (((adm _).append (closed_writeReg ..)).append (closed_delay _))
  | antennaOn =>
    have := fin .ok [.respNone] (((adm .free).append (closed_readReg c c.regTxControl)).append
      (Closed.guard (m := .unlessBits c.antennaMask 4) (closed_writeReg c.regTxControl (.varOr c.antennaMask)) rfl (by simp)
        (by simp) rfl))
    rw [← List.append_assoc] at this
    exact this
  | request m => exact Sound.of_two (Closed.append (.of_check rfl) (closed_requestBody ..)) _
  | anticoll => exact Sound.of_two (Closed.append (.of_check rfl) (closed_anticollBody ..)) _
  | calcCrc n =>
    refine Sound.of_body (m := .finishRet [.respOut]) ?_ rfl rfl (fun _ => rfl) (by simp)
    refine (((((((((adm _).append (closed_writeReg ..)).append (closed_writeReg ..)).append (closed_flatten ?_)).append
      (closed_writeReg ..)).append (closed_poll ..)).append (.of_check rfl)).append (closed_readReg ..)).append
      (.of_check rfl)).append (closed_readReg ..) |>.append (.of_check rfl)
    intro q hq
    obtain ⟨w, -, rfl⟩ := List.mem_map.mp hq
    exact closed_writeReg ..
  | compareUid => exact fin (q := [.checks .candidate, .compareData]) _ _ (.of_check rfl)
  | unlock => exact fin (q := [.checks .actuator, .unlock]) _ _ (.of_check rfl)
  | lock => exact fin (q := [.checks .actuator, .lock]) _ _ (.of_check rfl)
  | pollCycle => exact fin _ _ ((adm _).append (closed_cycle c))
  | run =>
    refine Sound.of_body (q := [.checks .free, .setRunning] ++ cycle c) (m := .restart roundStart) (Closed.append (.of_check rfl) (closed_cycle c)) rfl rfl
      (fun _ => rfl) ?_
    rintro n hn
    cases hn
    rfl
  | reservedOp0 => exact res
  | reservedOpD => exact res
  | reservedOpE => exact res
  | reservedOpF => exact res
  | reservedRsv25 => exact res
  | reservedRsv26 => exact res
  | reservedRsv27 => exact res
  | reservedRsv28 => exact res
  | reservedRsv29 => exact res
  | reservedRsv30 => exact res
  | reservedRsv31 => exact res
  | frameRead a => exact ret (closed_readReg ..)
  | frameWrite a => exact ret (closed_writeReg ..)
  | chipIdle => exact ret (closed_writeReg ..)
  | chipCalcCrc => exact ret (closed_writeReg ..)
  | chipTransceive => exact ret (closed_writeReg ..)
  | chipSoftReset => exact ret (closed_writeReg ..)
  | cardReqa => exact ret (closed_writeReg ..)
  | cardAnticollCl1 => exact ret (closed_writeReg ..)
  | cardNvb => exact ret (closed_writeReg ..)

end Sys2Proof.Machine
end

