-- ==== Sys2Proof/Laws/BusInv.lean ====
section
/-! SUPPORT. One atomic step keeps bus and sequencer in agreement (R26, R41(c), R122, R123): what the proof of the bus
invariant needs of a step, over any sound code. -/

namespace Sys2Proof.Machine

theorem busShape_append (tr : List Event) (e : Event) : busShape (tr ++ [e]) = busShapeStep (busShape tr) e := by
  simp [busShape]

theorem phaseAt_defined {p : Code} : ∀ {n k : Nat} {ph r : Option Nat}, phaseAt p n ph = some r → k ≤ n →
    ∃ r', phaseAt p k ph = some r' := by
  induction p with
  | nil =>
    intro n k ph r h hk
    cases n with
    | zero => obtain rfl : k = 0 := by omega
              exact ⟨ph, rfl⟩
    | succ n => simp [phaseAt] at h
  | cons m p ih =>
    intro n k ph r h hk
    cases k with
    | zero => exact ⟨ph, rfl⟩
    | succ k =>
      obtain ⟨n, rfl⟩ : ∃ j, n = j + 1 := ⟨n - 1, by omega⟩
      simp only [phaseAt] at h ⊢
      split at h
      · rename_i ph' hm
        exact ih h (by omega)
      · cases h

/-- Bus, trace and step pointer fit the code `p`. -/
structure At (p : Code) (s : State) : Prop where
  shape : busShape s.trace = stateShape s
  closed : s.cs = false → s.xfers = 0
  fits : phaseAt p s.seq none = some (statePhase s)
  held : holdFits p s = true
  used : s.seq < p.length

/-- The bus is at rest. -/
structure AtRest (s : State) : Prop where
  shape : busShape s.trace = .idle
  cs : s.cs = false
  xfers : s.xfers = 0
  hold : s.hold = .free

theorem statePhase_none {s : State} : statePhase s = none ↔ s.cs = false := by
  unfold statePhase; cases s.cs <;> simp

theorem statePhase_some {s : State} {n : Nat} : statePhase s = some n ↔ s.cs = true ∧ s.xfers = n := by
  unfold statePhase; cases s.cs <;> simp

/-- The event belongs outside transactions. -/
def Event.apart : Event → Bool
  | .opStart _ | .opDone _ | .delay _ | .diag _ | .outputs _ _ => true
  | _ => false

theorem busShapeStep_apart {e : Event} (h : e.apart = true) : busShapeStep .idle e = .idle := by
  cases e <;> first | rfl | cases h

/-- No transaction is open, and none is after the step. -/
theorem At.plain {p : Code} {s t : State} (h : At p s) (hcs : s.cs = false) (htcs : t.cs = s.cs) (htx : t.xfers = s.xfers)
    (hhold : ∀ o k, t.hold ≠ .bus o k) (htr : t.trace = s.trace ∨ ∃ e : Event, e.apart = true ∧ t.trace = s.trace ++ [e])
    (hseq : phaseAt p t.seq none = some none) (hused : t.seq < p.length) : At p t := by
  have ht : t.cs = false := by rw [htcs, hcs]
  have hs : busShape s.trace = .idle := by rw [h.shape, stateShape, hcs]; rfl
  refine ⟨?_, fun _ => by rw [htx]; exact h.closed hcs, by rw [hseq, statePhase_none.mpr ht], ?_, hused⟩
  · rw [stateShape, ht]
    rcases htr with htr | ⟨e, he, htr⟩
    · rw [htr, hs]; rfl
    · rw [htr, busShape_append, hs, busShapeStep_apart he]; rfl
  · unfold holdFits
    split <;> simp_all

theorem At.rest {s t : State} (hs : busShape s.trace = .idle) (hcs : s.cs = false) (hx : s.xfers = 0) (hh : s.hold = .free)
    (htcs : t.cs = s.cs) (htx : t.xfers = s.xfers) (hth : t.hold = s.hold)
    (htr : t.trace = s.trace ∨ ∃ e : Event, e.apart = true ∧ t.trace = s.trace ++ [e]) : AtRest t := by
  refine ⟨?_, by rw [htcs, hcs], by rw [htx, hx], by rw [hth, hh]⟩
  rcases htr with htr | ⟨e, he, htr⟩
  · rw [htr, hs]
  · rw [htr, busShape_append, hs, busShapeStep_apart he]

/-- A step of the sequencer keeps bus and code in agreement, or ends the operation with the bus at rest. -/
theorem micro_bus {p : Code} {s t : State} {m : Micro} (hp : Sound p) (h : At p s) (hh : s.hold = .free)
    (hm : p[s.seq]? = some m) (he : execMicro m s = .next t) :
    (t.op = s.op ∧ At p t) ∨ (t.op = none ∧ AtRest t) := by
  have hsucc := phaseAt_succ hm h.fits
  obtain ⟨r, hr⟩ := phaseAt_defined (k := s.seq + 1) hp.ends h.used
  rw [hr] at hsucc
  have hshape := h.shape
  -- a step outside transactions
  have out : (∀ n, microPhase m (some n) = none) → s.cs = false ∧ microPhase m none = some r := by
    intro hno
    cases hph : statePhase s with
    | none => exact ⟨statePhase_none.mp hph, by rw [hph] at hsucc; exact hsucc.symm⟩
    | some n => rw [hph, hno] at hsucc; cases hsucc
  have nextOk : r = none → m.leaves = false → phaseAt p (s.seq + 1) none = some none ∧ s.seq + 1 < p.length :=
    fun hr' hl => ⟨by rw [hr, hr'], hp.falls _ _ hm hl⟩
  have idle : s.cs = false → busShape s.trace = .idle := fun hcs => by rw [hshape, stateShape, hcs]; rfl
  have fin : ∀ st w, (∀ n, microPhase m (some n) = none) → t = finish st w s → (t.op = none ∧ AtRest t) := by
    intro st w hno ht
    obtain ⟨rd, rs, rl, hf⟩ := finish_frame st w s
    have hcs := (out hno).1
    subst ht
    rw [hf]
    exact ⟨rfl, At.rest (idle hcs) hcs (h.closed hcs) hh rfl rfl rfl (.inr ⟨.opDone st, rfl, rfl⟩)⟩
  have plain : (∀ n, microPhase m (some n) = none) → microPhase m none = some none → m.leaves = false →
      t.op = s.op → t.cs = s.cs → t.xfers = s.xfers → (∀ o k, t.hold ≠ .bus o k) →
      (t.trace = s.trace ∨ ∃ e : Event, e.apart = true ∧ t.trace = s.trace ++ [e]) → t.seq = s.seq + 1 →
      (t.op = s.op ∧ At p t) ∨ (t.op = none ∧ AtRest t) := by
    intro hno hn hl hop' hcs' hx' hhold htr hseq
    obtain ⟨hcs, hr'⟩ := out hno
    rw [hn] at hr'
    have := nextOk (Option.some.inj hr').symm hl
    exact .inl ⟨hop', h.plain hcs hcs' hx' hhold htr (by rw [hseq]; exact this.1) (by rw [hseq]; exact this.2)⟩
  have jump : ∀ d, m.target s.seq = some d → (∀ n, microPhase m (some n) = none) →
      t.op = s.op → t.cs = s.cs → t.xfers = s.xfers → (∀ o k, t.hold ≠ .bus o k) → t.trace = s.trace → t.seq = d →
      (t.op = s.op ∧ At p t) ∨ (t.op = none ∧ AtRest t) := by
    intro d hd hno hop' hcs' hx' hhold htr hseq
    have hj := hp.jumps _ _ _ hm hd
    exact .inl ⟨hop', h.plain (out hno).1 hcs' hx' hhold (.inl htr) (by rw [hseq]; exact hj.1) (by rw [hseq]; exact hj.2)⟩
  have nb : ∀ o k, s.hold ≠ .bus o k := by simp [hh]
  cases m with
  | checks c =>
    cases c <;> simp only [execMicro, checks] at he <;> (repeat' split at he) <;> cases he <;>
      first
      | exact .inr (fin _ _ (fun _ => rfl) rfl)
      | exact plain (fun _ => rfl) rfl rfl rfl rfl rfl nb (.inl rfl) rfl
  | select =>
    simp only [execMicro, select] at he
    split at he
    · cases he
    · rename_i hcs
      cases he
      have hcs' : s.cs = false := by simpa using hcs
      rw [statePhase_none.mpr hcs'] at hsucc
      have hph : ∀ u : State, u.cs = true → u.xfers = 0 → some (some 0) = some (statePhase u) :=
        fun u h1 h2 => congrArg some (statePhase_some.mpr ⟨h1, h2⟩).symm
      refine .inl ⟨rfl, ⟨?_, by simp, ?_, ?_, hp.falls _ _ hm rfl⟩⟩
      · simp [stateShape, busShape_append, idle hcs', busShapeStep]
      · exact hr.trans (hsucc.trans (hph _ rfl rfl))
      · simp [holdFits, hh]
  | xferDrop x =>
    simp only [execMicro, startXfer] at he
    repeat' split at he
    all_goals first | cases he; done | skip
    cases he
    refine .inl ⟨rfl, ⟨hshape, h.closed, h.fits, ?_, h.used⟩⟩
    simp [holdFits, hm]
  | xferKeep x =>
    simp only [execMicro, startXfer] at he
    repeat' split at he
    all_goals first | cases he; done | skip
    cases he
    refine .inl ⟨rfl, ⟨hshape, h.closed, h.fits, ?_, h.used⟩⟩
    simp [holdFits, hm]
  | deselect =>
    simp only [execMicro, deselect] at he
    split at he
    · rename_i hcs
      cases he
      simp only [Bool.and_eq_true, beq_iff_eq] at hcs
      rw [statePhase_some.mpr ⟨hcs.1, hcs.2⟩] at hsucc
      have hph : ∀ u : State, u.cs = false → some none = some (statePhase u) :=
        fun u h1 => congrArg some (statePhase_none.mpr h1).symm
      refine .inl ⟨rfl, ⟨?_, fun _ => rfl, hr.trans (hsucc.trans (hph _ rfl)), ?_, hp.falls _ _ hm rfl⟩⟩
      · simp [stateShape, busShape_append, hshape, hcs.1, hcs.2, busShapeStep]
      · simp [holdFits, hh]
    · cases he
  | delay ms =>
    simp only [execMicro, startDelay] at he
    split at he <;> cases he
    · exact plain (fun _ => rfl) rfl rfl rfl rfl rfl nb (.inl rfl) rfl
    · exact plain (fun _ => rfl) rfl rfl rfl rfl rfl (by simp) (.inr ⟨.delay ms, rfl, rfl⟩) rfl
  | pollHit mask n =>
    simp only [execMicro] at he
    split at he <;> cases he
    · exact jump _ rfl (fun _ => rfl) rfl rfl rfl nb rfl rfl
    · exact plain (fun _ => rfl) rfl rfl rfl rfl rfl nb (.inl rfl) rfl
  | pollLast max n =>
    simp only [execMicro] at he
    split at he <;> cases he
    · exact jump _ rfl (fun _ => rfl) rfl rfl rfl nb rfl rfl
    · exact plain (fun _ => rfl) rfl rfl rfl rfl rfl nb (.inl rfl) rfl
  | pollBegin => cases he; exact plain (fun _ => rfl) rfl rfl rfl rfl rfl nb (.inl rfl) rfl
  | pollIncrement => cases he; exact plain (fun _ => rfl) rfl rfl rfl rfl rfl nb (.inl rfl) rfl
  | back n => cases he; exact jump _ rfl (fun _ => rfl) rfl rfl rfl nb rfl rfl
  | unlessBits mask n =>
    simp only [execMicro] at he
    split at he <;> cases he
    · exact jump _ rfl (fun _ => rfl) rfl rfl rfl nb rfl rfl
    · exact plain (fun _ => rfl) rfl rfl rfl rfl rfl nb (.inl rfl) rfl
  | ifFail n =>
    simp only [execMicro] at he
    split at he <;> cases he
    · exact plain (fun _ => rfl) rfl rfl rfl rfl rfl nb (.inl rfl) rfl
    · exact jump _ rfl (fun _ => rfl) rfl rfl rfl nb rfl rfl
  | errTest mask n =>
    simp only [execMicro] at he
    split at he <;> cases he
    · exact jump _ rfl (fun _ => rfl) rfl rfl rfl nb rfl rfl
    · exact plain (fun _ => rfl) rfl rfl rfl rfl rfl nb (.inl rfl) rfl
  | clearOut => cases he; exact plain (fun _ => rfl) rfl rfl rfl rfl rfl nb (.inl rfl) rfl
  | push => cases he; exact plain (fun _ => rfl) rfl rfl rfl rfl rfl nb (.inl rfl) rfl
  | clearBuffers => cases he; exact plain (fun _ => rfl) rfl rfl rfl rfl rfl nb (.inl rfl) rfl
  | clearTag => cases he; exact plain (fun _ => rfl) rfl rfl rfl rfl rfl nb (.inl rfl) rfl
  | clearUid => cases he; exact plain (fun _ => rfl) rfl rfl rfl rfl rfl nb (.inl rfl) rfl
  | storeTag => cases he; exact plain (fun _ => rfl) rfl rfl rfl rfl rfl nb (.inl rfl) rfl
  | storeUid => cases he; exact plain (fun _ => rfl) rfl rfl rfl rfl rfl nb (.inl rfl) rfl
  | compareData =>
    simp only [execMicro] at he
    split at he <;> cases he
    exact plain (fun _ => rfl) rfl rfl rfl rfl rfl nb (.inl rfl) rfl
  | ctrl c => cases he; exact plain (fun _ => rfl) rfl rfl rfl rfl rfl nb (.inl rfl) rfl
  | emit d => cases he; exact plain (fun _ => rfl) rfl rfl rfl rfl rfl nb (.inr ⟨.diag d, rfl, rfl⟩) rfl
  | emitUid =>
    simp only [execMicro] at he
    split at he <;> cases he
    exact plain (fun _ => rfl) rfl rfl rfl rfl rfl nb (.inr ⟨.diag (.uid _), rfl, rfl⟩) rfl
  | leaveResult =>
    simp only [execMicro, leaveResult] at he
    split at he <;> cases he <;> exact plain (fun _ => rfl) rfl rfl rfl rfl rfl nb (.inl rfl) rfl
  | onFail code n =>
    simp only [execMicro] at he
    split at he <;> cases he
    · exact plain (fun _ => rfl) rfl rfl rfl rfl rfl nb (.inl rfl) rfl
    · exact jump _ rfl (fun _ => rfl) rfl rfl rfl nb rfl rfl
  | ifMatch n =>
    simp only [execMicro] at he
    split at he
    · split at he <;> cases he
      · exact plain (fun _ => rfl) rfl rfl rfl rfl rfl nb (.inl rfl) rfl
      · exact jump _ rfl (fun _ => rfl) rfl rfl rfl nb rfl rfl
    · cases he
  | unlock => cases he; exact plain (fun _ => rfl) rfl rfl rfl rfl rfl nb (.inr ⟨.outputs false true, rfl, rfl⟩) rfl
  | lock => cases he; exact plain (fun _ => rfl) rfl rfl rfl rfl rfl nb (.inr ⟨.outputs true false, rfl, rfl⟩) rfl
  | outcome code n => cases he; exact jump _ rfl (fun _ => rfl) rfl rfl rfl nb rfl rfl
  | setRunning => cases he; exact plain (fun _ => rfl) rfl rfl rfl rfl rfl nb (.inl rfl) rfl
  | restart n =>
    cases he
    have ha := hp.again _ _ hm
    exact .inl ⟨rfl, h.plain (out (fun _ => rfl)).1 rfl rfl nb (.inl rfl) ha.1 ha.2⟩
  | finish st ws => cases he; exact .inr (fin _ _ (fun _ => rfl) rfl)
  | finishRet ws => cases he; exact .inr (fin _ _ (fun _ => rfl) rfl)
  | finishFail => cases he; exact .inr (fin _ _ (fun _ => rfl) rfl)
  | retire =>
    cases he
    have hcs := (out (fun _ => rfl)).1
    exact .inr ⟨rfl, At.rest (idle hcs) hcs (h.closed hcs) hh rfl rfl rfl (.inl rfl)⟩

/-- An atomic step keeps bus and code in agreement, or ends the operation with the bus at rest. -/
theorem atom_bus {p : Code} {s t : State} (hp : Sound p) (h : At p s) (ha : atom p s = .next t) :
    (t.op = s.op ∧ At p t) ∨ (t.op = none ∧ AtRest t) := by
  rcases atom_cases ha with ⟨out, keep, hh, rfl⟩ | ⟨hh, rfl⟩ | ⟨hh, m, -, hm, he⟩ | ⟨-, hm, rfl⟩
  · have hf := h.held
    unfold holdFits at hf
    rw [hh] at hf
    obtain ⟨r, hr⟩ := phaseAt_defined (k := s.seq + 1) hp.ends h.used
    have key : ∀ m, p[s.seq]? = some m → m.leaves = false → (∀ ph x, microPhase m ph = some x → ∃ n, ph = some n ∧ n < 2 ∧ x = some (n + 1)) →
        (completeXfer out keep s).op = s.op ∧ At p (completeXfer out keep s) := by
      intro m hm hl hph
      have hsucc := phaseAt_succ hm h.fits
      rw [hr] at hsucc
      obtain ⟨n, hn, hn2, hrn⟩ := hph _ _ hsucc.symm
      obtain ⟨hcs, hx⟩ := statePhase_some.mp hn
      refine ⟨rfl, ⟨?_, by simp [hcs], ?_, ?_, hp.falls _ _ hm hl⟩⟩
      · simp [completeXfer, busShape_append, h.shape, stateShape, hcs, busShapeStep, hx, hn2]
      · rw [completeXfer_seq, hr, hrn]
        have : statePhase (completeXfer out keep s) = some (n + 1) :=
          statePhase_some.mpr ⟨hcs, by simp [completeXfer, hx]⟩
        rw [this]
      · simp [holdFits, completeXfer]
    left
    cases hm : p[s.seq]? with
    | none => rw [hm] at hf; simp at hf
    | some m =>
      rw [hm] at hf
      have hk : ∀ x, (m = .xferDrop x ∨ m = .xferKeep x) → m.leaves = false ∧
          ∀ ph r, microPhase m ph = some r → ∃ n, ph = some n ∧ n < 2 ∧ r = some (n + 1) := by
        rintro x (rfl | rfl) <;> refine ⟨rfl, ?_⟩ <;> rintro (_ | _ | _ | n) r h <;> simp [microPhase] at h <;> subst h
        · exact ⟨0, rfl, by omega, rfl⟩
        · exact ⟨1, rfl, by omega, rfl⟩
        · exact ⟨0, rfl, by omega, rfl⟩
        · exact ⟨1, rfl, by omega, rfl⟩
      have hx : ∃ x, m = .xferDrop x ∨ m = .xferKeep x := by
        cases m <;> simp at hf <;> first | exact ⟨_, .inl rfl⟩ | exact ⟨_, .inr rfl⟩
      obtain ⟨x, hx⟩ := hx
      exact key m hm (hk x hx).1 (hk x hx).2
  · refine .inl ⟨rfl, ⟨h.shape, h.closed, h.fits, ?_, h.used⟩⟩
    simp [holdFits, completeDelay]
  · exact micro_bus hp h hh hm he
  · exact absurd hm (by simpa using h.used)

end Sys2Proof.Machine
end

