-- ==== Sys2Proof/Laws/Codec.lean ====
section
/-! SUPPORT. The fields of a command word, and that the decoders undo the encoders field by field (R90, R91, R96, R100). -/

namespace Sys2Proof

/-- The bits of a canonical word (R90). -/
theorem commandWord_bit (n : BitVec 7) (d : Byte) (a : Addr) (op : BitVec 4) (i : Nat) :
    (commandWord n d a op).getLsbD i =
      if i < 4 then op.getLsbD i
      else if i - 4 < 6 then a.getLsbD (i - 4)
      else if i - 4 - 6 < 8 then d.getLsbD (i - 4 - 6)
      else if i - 4 - 6 - 8 < 7 then n.getLsbD (i - 4 - 6 - 8) else false := by
  have h1 := BitVec.getLsbD_append (x := 0#7 ++ n ++ d ++ a) (y := op) (i := i)
  have h2 := BitVec.getLsbD_append (x := 0#7 ++ n ++ d) (y := a) (i := i - 4)
  have h3 := BitVec.getLsbD_append (x := 0#7 ++ n) (y := d) (i := i - 4 - 6)
  have h4 := BitVec.getLsbD_append (x := 0#7) (y := n) (i := i - 4 - 6 - 8)
  have h5 : (0#7).getLsbD (i - 4 - 6 - 8 - 7) = false := BitVec.getLsbD_zero
  rw [h5] at h4
  rw [h4] at h3
  rw [h3] at h2
  rw [h2] at h1
  exact h1

theorem opField_commandWord (n : BitVec 7) (d : Byte) (a : Addr) (op : BitVec 4) : opField (commandWord n d a op) = op := by
  apply BitVec.eq_of_getLsbD_eq; intro i hi
  rw [opField, BitVec.getLsbD_extractLsb', commandWord_bit]
  simp [hi]

theorem addrField_commandWord (n : BitVec 7) (d : Byte) (a : Addr) (op : BitVec 4) : addrField (commandWord n d a op) = a := by
  apply BitVec.eq_of_getLsbD_eq; intro i hi
  rw [addrField, BitVec.getLsbD_extractLsb', commandWord_bit]
  have h1 : ¬ 4 + i < 4 := by omega
  have h2 : 4 + i - 4 = i := by omega
  simp [hi, h1, h2]

theorem wdataField_commandWord (n : BitVec 7) (d : Byte) (a : Addr) (op : BitVec 4) :
    wdataField (commandWord n d a op) = d := by
  apply BitVec.eq_of_getLsbD_eq; intro i hi
  rw [wdataField, BitVec.getLsbD_extractLsb', commandWord_bit]
  have h1 : ¬ 10 + i < 4 := by omega
  have h2 : ¬ 10 + i - 4 < 6 := by omega
  have h3 : 10 + i - 4 - 6 = i := by omega
  simp [hi, h1, h2, h3]

theorem lenField_commandWord (n : BitVec 7) (d : Byte) (a : Addr) (op : BitVec 4) :
    lenField (commandWord n d a op) = n.toNat := by
  have : (commandWord n d a op).extractLsb' 18 7 = n := by
    apply BitVec.eq_of_getLsbD_eq; intro i hi
    rw [BitVec.getLsbD_extractLsb', commandWord_bit]
    have h1 : ¬ 18 + i < 4 := by omega
    have h2 : ¬ 18 + i - 4 < 6 := by omega
    have h3 : ¬ 18 + i - 4 - 6 < 8 := by omega
    have h4 : 18 + i - 4 - 6 - 8 = i := by omega
    simp [hi, h1, h2, h3, h4]
  rw [lenField, this]

theorem rsvField_commandWord (n : BitVec 7) (d : Byte) (a : Addr) (op : BitVec 4) : rsvField (commandWord n d a op) = 0#7 := by
  apply BitVec.eq_of_getLsbD_eq; intro i hi
  rw [rsvField, BitVec.getLsbD_extractLsb', commandWord_bit]
  have h1 : ¬ 25 + i < 4 := by omega
  have h2 : ¬ 25 + i - 4 < 6 := by omega
  have h3 : ¬ 25 + i - 4 - 6 < 8 := by omega
  have h4 : ¬ 25 + i - 4 - 6 - 8 < 7 := by omega
  simp [h1, h2, h3, h4]

/-- A word with RSV = 0 is put together from its fields (R90). -/
theorem commandWord_fields {w : Word} (h : rsvField w = 0#7) :
    commandWord (w.extractLsb' 18 7) (wdataField w) (addrField w) (opField w) = w := by
  apply BitVec.eq_of_getLsbD_eq; intro i hi
  rw [commandWord_bit]
  simp only [opField, addrField, wdataField, BitVec.getLsbD_extractLsb']
  have hr : ∀ j, j < 7 → w.getLsbD (25 + j) = false := by
    intro j hj
    have := congrArg (fun v => v.getLsbD j) h
    simpa [rsvField, BitVec.getLsbD_extractLsb', hj] using this
  by_cases h1 : i < 4
  · simp [h1]
  · by_cases h2 : i - 4 < 6
    · simp [h1, h2]; congr 1; omega
    · by_cases h3 : i - 4 - 6 < 8
      · simp [h1, h2, h3]; congr 1; omega
      · by_cases h4 : i - 4 - 6 - 8 < 7
        · simp [h1, h2, h3, h4]; congr 1; omega
        · simp only [h1, h2, h3, h4, if_false]
          have := hr (i - 25) (by omega)
          rw [← this]; congr 1; omega

theorem decodeRsv_zero : decodeRsv 0#7 = none := rfl

theorem decodeRsv_none_iff (r : BitVec 7) : decodeRsv r = none ↔ r = 0#7 := by revert r; decide

theorem decodeRsv_reserved (r : BitVec 7) : ∀ i, decodeRsv r = some i → i.isReserved = true := by revert r; decide

/-- A command word with RSV = 0 decodes by its operation code (R92, R94). -/
theorem decodeCommand_commandWord (n : BitVec 7) (d : Byte) (a : Addr) (op : BitVec 4) :
    decodeCommand (commandWord n d a op) = decodeOp (commandWord n d a op) := by
  simp [decodeCommand, rsvField_commandWord, decodeRsv_zero]

theorem decodeCommand_of_rsv {w : Word} (h : rsvField w = 0#7) : decodeCommand w = decodeOp w := by
  simp [decodeCommand, h, decodeRsv_zero]

theorem decodeCommand_of_rsv_ne {w : Word} (h : rsvField w ≠ 0#7) : (decodeCommand w).isReserved = true := by
  unfold decodeCommand
  cases hd : decodeRsv (rsvField w) with
  | none => exact absurd ((decodeRsv_none_iff _).mp hd) h
  | some i => exact decodeRsv_reserved _ _ hd

end Sys2Proof
end

