-- ==== Sys2Proof/Laws/Operations.lean ====
section
/-! SUPPORT. Operations from their first step: what a freshly accepted operation runs to, in the terms of Safety.lean. -/

set_option linter.unusedVariables false

namespace Sys2Proof.Machine

theorem Ready.going {i : Instr} {s : State} (h : Ready i s) : Going s := ⟨by rw [h.op]; rfl, h.hold, h.cs, h.xfers⟩

theorem Ready.checksFree {p : Code} {i : Instr} {s : State} (h : Ready i s) (hp : p[0]? = some (.checks .free)) : Gets p 1 s s.advance :=
  (Ready.going h).micro (m := .checks .free) (by rw [h.seq]; exact hp) rfl (Ready.going h).advance (by simp)

theorem ok_bounds {c : Params} (h : c.ok = true) : 1 ≤ c.pollMaxCom ∧ c.pollMaxCom ≤ 65535 ∧ 1 ≤ c.pollMaxDiv ∧ c.pollMaxDiv ≤ 65535 ∧ c.uidLen ≤ c.anticollReadLen ∧ c.anticollReadLen ≤ 5 ∧ c.crcMaxLen ≤ 127 ∧ (∀ w ∈ c.whitelist, w.length = c.uidLen) := by
  simp [Params.ok, Params.pollBoundsOk, Params.readLenOk, Params.crcLenOk, Params.whitelistOk] at h
  grind

theorem perform_first {p : Code} {s t : State} {m : Micro} (hs : s.hold = .free) (hp : p[s.seq]? = some m) (he : execMicro m s = .next t) (ht : t.op = none) : perform p s = .next t := 
  perform_ends (Gets.nil s) (by decide) hp hs he ht

theorem perform_fault {p : Code} {s : State} {m : Micro} {f : Fault} (hs : s.hold = .free) (hp : p[s.seq]? = some m) (he : execMicro m s = .fault f) : perform p s = .fault f := by
  unfold perform burstBound
  rw [show 2097152 = 2097151 + 1 from rfl]
  simp [burst, atom, hs, hp, he]

theorem perform_two_ends {q : Code} {s t : State} {K : Nat} (h : Gets (q ++ [.ifFail 1, .finish .ok [.respOut], .finishFail]) K s t) (g : Going t)
    (hK : K + 1 < burstBound) (hs : t.seq = q.length) :
    perform (q ++ [.ifFail 1, .finish .ok [.respOut], .finishFail]) s = .next (if t.ret = .ok then finish .ok [.respOut] t.advance else finishFail (t.skip 1)) := by
  have hc : CodeAt (q ++ [.ifFail 1, .finish .ok [.respOut], .finishFail]) t.seq [.ifFail 1, .finish .ok [.respOut], .finishFail] := by
    rw [hs]; exact ((CodeAt.whole _).right).cast (by omega)
  split
  · rename_i hr
    have h2 := h.append (gets_ifFail_ok (by exact hc.head) g hr)
    exact perform_ends (m := .finish .ok [.respOut]) h2 hK (by exact hc.tail.head) g.hold rfl rfl
  · rename_i hr
    have h2 := h.append (gets_ifFail_fail (by exact hc.head) g hr)
    exact perform_ends (m := .finishFail) h2 hK (at_of hc.tail.tail.head (by simp)) g.hold rfl (by simp [finishFail, finish, endOp])

theorem request_runs {s : State} {m : Byte} {e : Exchange} {rest : List Byte} (h : Ready (.request m) s) (hok : s.cfg.ok = true)
    (he : e.FitsRequest s.cfg m) (ha : s.answers = flatPairs e.pairs ++ rest) :
    exec (.request m) s = .next (if e.ret = .ok then finish .ok [.respOut] (s.advance.buffersCleared.requested m e rest).advance
      else finishFail ((s.advance.buffersCleared.requested m e rest).skip 1)) := by
  obtain ⟨b1, b2, _⟩ := ok_bounds hok
  have hc : CodeAt (codeRequest s.cfg m) s.seq (codeRequest s.cfg m) := h.seq ▸ CodeAt.whole _
  have h1 := (Ready.checksFree h (p := codeRequest s.cfg m) rfl).append ((Ready.going h).advance.micro (p := codeRequest s.cfg m) (m := .clearBuffers) (by exact hc.left.left.tail.head) rfl (Ready.going h).advance.buffersCleared (by simp))
  have g := (Ready.going h).advance.buffersCleared
  have h2 := h1.append (gets_requestBody (m := m) (e := e) (rest := rest) (s := s.advance.buffersCleared) (by exact hc.left.right) g he b1 b2 ha)
  have hl := Exchange.steps_le he b2
  exact perform_two_ends h2 g.requested (by unfold burstBound; simp at hl; omega) (by simp [State.requested, State.exchanged, State.moved, State.buffersCleared, State.advance, h.seq]; omega)

theorem anticoll_runs {s : State} {e : Exchange} {rest : List Byte} (h : Ready .anticoll s) (hok : s.cfg.ok = true)
    (he : e.FitsAnticoll s.cfg) (ha : s.answers = flatPairs e.pairs ++ rest) :
    exec .anticoll s = .next (if e.ret = .ok then finish .ok [.respOut] (s.advance.buffersCleared.anticolled e rest).advance
      else finishFail ((s.advance.buffersCleared.anticolled e rest).skip 1)) := by
  obtain ⟨b1, b2, _, _, _, b5, _⟩ := ok_bounds hok
  have hc : CodeAt (codeAnticoll s.cfg) s.seq (codeAnticoll s.cfg) := h.seq ▸ CodeAt.whole _
  have h1 := (Ready.checksFree h (p := codeAnticoll s.cfg) rfl).append ((Ready.going h).advance.micro (p := codeAnticoll s.cfg) (m := .clearBuffers) (by exact hc.left.left.tail.head) rfl (Ready.going h).advance.buffersCleared (by simp))
  have g := (Ready.going h).advance.buffersCleared
  have h2 := h1.append (gets_anticollBody (e := e) (rest := rest) (s := s.advance.buffersCleared) (by exact hc.left.right) g he b1 b2 ha)
  have hl := Exchange.steps_le he b2
  exact perform_two_ends h2 g.anticolled (by unfold burstBound; simp at hl; omega) (by simp [State.anticolled, State.exchanged, State.moved, State.buffersCleared, State.advance, h.seq]; omega)

theorem next_exists_seq {r : Result} {u : State} {f : Nat → State} (h : r = .next u) (hf : u = f u.seq) : ∃ k, r = .next (f k) := ⟨u.seq, by rw [h, ← hf]⟩

theorem next_exists_seq_v {r : Result} {u : State} {f : Nat → Byte → State} (h : r = .next u) (hf : u = f u.seq u.v) : ∃ k v, r = .next (f k v) := ⟨u.seq, u.v, by rw [h, ← hf]⟩

theorem exec_write {i : Instr} {s : State} {a : Addr} {x : Src} {b y z : Byte} {rest : List Byte} (h : Ready i s) (hp : program s.cfg i = writeReg a x ++ [.retire]) (hb : srcByte x s = some b) (ha : s.answers = y :: z :: rest) :
    ∃ k, exec i s = .next { s with
      op := none, busy := false, running := false, seq := k, trace := s.trace ++ writeEvents a b y z
      answers := rest, draws := s.draws + 2 } := by
  have g := Ready.going h
  have hc : CodeAt (writeReg a x ++ [.retire]) s.seq (writeReg a x ++ [.retire]) := h.seq ▸ CodeAt.whole _
  rw [exec_eq_perform, hp]
  have h1 := (runs_write (p := writeReg a x ++ [.retire]) (a := a) (x := x) (by exact hc.left) g hb ha).gets
  refine next_exists_seq (perform_ends (m := .retire) h1 (by decide) (by exact hc.right.head) rfl rfl rfl) ?_
  simp [retire, State.moved, h.hold, h.cs, h.xfers]

theorem readCells_none {m : Memory} : ∀ {n k i : Nat}, k ≤ i → i < k + n → readCell m i = none → readCells m k n = none := by
  intro n
  induction n with
  | zero => intro k i h1 h2; omega
  | succ n ih =>
    intro k i h1 h2 h3
    unfold readCells
    by_cases hk : k = i
    · subst hk; simp [h3]
    · rw [ih (k := k + 1) (i := i) (by omega) (by omega) h3]
      cases readCell m k <;> rfl

theorem readCells_some {m : Memory} : ∀ {n k : Nat} {u : List Byte}, u.length = n → (∀ i, i < n → readCell m (k + i) = u[i]?) → readCells m k n = some u := by
  intro n
  induction n with
  | zero => intro k u hl _; simp at hl; subst hl; rfl
  | succ n ih =>
    intro k u hl h
    obtain _ | ⟨b, u⟩ := u
    · simp at hl
    · unfold readCells
      have h0 := h 0 (by omega)
      rw [ih (k := k+1) (u := u) (by simpa using hl) (fun i hi => by have := h (i+1) (by omega); simpa [Nat.add_assoc, Nat.add_comm 1] using this)]
      simp at h0; simp [h0]

theorem readCells_isSome {m : Memory} : ∀ {n k : Nat}, (∀ j, j < n → (readCell m (k + j)).isSome = true) → ∃ u, readCells m k n = some u := by
  intro n
  induction n with
  | zero => intro k _; exact ⟨[], rfl⟩
  | succ n ih =>
    intro k h
    obtain ⟨u, hu⟩ := ih (k := k + 1) (fun j hj => by have := h (j+1) (by omega); rwa [Nat.add_assoc, Nat.add_comm 1])
    obtain ⟨b, hb⟩ := Option.isSome_iff_exists.1 (h 0 (by omega))
    exact ⟨b :: u, by simp at hb; simp [readCells, hb, hu]⟩

theorem readCells_get {m : Memory} : ∀ {n k : Nat} {u : List Byte}, readCells m k n = some u → ∀ i, i < n → readCell m (k + i) = u[i]? := by
  intro n
  induction n with
  | zero => intro k u _ i hi; omega
  | succ n ih =>
    intro k u h i hi
    obtain ⟨b, r, rfl, hb, hr⟩ := readCells_succ h
    cases i with
    | zero => simpa using hb
    | succ i => have := ih hr i (by omega); simpa [Nat.add_assoc, Nat.add_comm 1] using this

theorem take_eq_iff {n : Nat} {u w : List Byte} (hu : n ≤ u.length) (hw : w.length = n) : u.take n = w.take n ↔ ∀ i, i < n → u[i]? = w[i]? := by
  constructor
  · intro h i hi
    have := congrArg (·[i]?) h
    simpa [List.getElem?_take, hi] using this
  · intro h
    apply List.ext_getElem?
    intro i
    by_cases hi : i < n
    · simp [hi, h i hi]
    · simp [hi]

theorem Exchange.polls_le {c : Params} {f : Byte} {p : List Byte} {n : Nat} {e : Exchange} (he : e.Fits c f p n) : e.polls ≤ c.pollMaxCom := by
  cases e with
  | timeout pre ms => exact Nat.le_of_eq he.2.all
  | chipFault pre ms hit err => exact he.2.1.inTime
  | ok pre ms hit err fifo => exact he.2.1.inTime

theorem Exchange.pairs_le {c : Params} {f : Byte} {p : List Byte} {n : Nat} {e : Exchange} (he : e.Fits c f p n) : e.pairs.length ≤ (prologueTxns c f p).length + c.pollMaxCom + 1 + n := by
  cases e with
  | timeout pre ms => have := he.1; have := he.2.all; simp [Exchange.pairs]; omega
  | chipFault pre ms hit err => have := he.1; have := he.2.1.inTime; simp [Exchange.pairs]; omega
  | ok pre ms hit err fifo => have := he.1; have := he.2.1.inTime; have := he.2.2.2; simp [Exchange.pairs]; omega

theorem Exchange.exists_of_pairs (c : Params) (f : Byte) (p : List Byte) (n : Nat) (l : List (Byte × Byte)) (hmax : 1 ≤ c.pollMaxCom)
    (h : (prologueTxns c f p).length + c.pollMaxCom + 1 + n ≤ l.length) :
    ∃ (e : Exchange) (rest : List (Byte × Byte)), l = e.pairs ++ rest ∧ e.Fits c f p n := by
  obtain ⟨pre, l, rfl, hpre⟩ : ∃ pre l', l = pre ++ l' ∧ pre.length = (prologueTxns c f p).length :=
    ⟨l.take (prologueTxns c f p).length, l.drop _, (List.take_append_drop _ _).symm, by simp; omega⟩
  rcases poll_splits c.comIrqWaitMask c.pollMaxCom l (by simp at h; omega) with ⟨ms, hit, rest, rfl, hp⟩ | ⟨ms, rest, rfl, hp⟩
  · have := hp.inTime
    obtain _ | ⟨err, rest⟩ := rest
    · simp at h; omega
    · cases he : anyBit err.2 c.errMask with
      | true => exact ⟨.chipFault pre ms hit err, rest, by simp [Exchange.pairs], hpre, hp, he⟩
      | false =>
        refine ⟨.ok pre ms hit err (rest.take n), rest.drop n, by simp [Exchange.pairs], hpre, hp, he, ?_⟩
        simp at h ⊢; omega
  · exact ⟨.timeout pre ms, rest, by simp [Exchange.pairs], hpre, hp⟩

theorem out_ok {e : Exchange} (h : e.ret = .ok) (o : List Byte) : e.out o = e.out [] := by
  cases e <;> simp [Exchange.ret] at h <;> rfl

/-- The state after a cycle, in the terms of Safety. -/
def cycleEnd (s : State) (x : CycleAnswers) (rest : List Byte) (v : Byte) (out : List Byte) : State :=
  { s with
    seq := s.seq + (cycle s.cfg).length, hold := .free, cs := false, xfers := 0
    v := v, out := out, ret := x.ret, result := x.outcome s.cfg
    resp := x.resp s.resp, respLen := x.respLen s.cfg
    polls := BitVec.ofNat 16 x.polls, pollCount := BitVec.ofNat 16 x.polls
    tagType := x.tagType, uidBuf := x.uidBuf, ctrlState := .idle
    lockState := if x.granted s.cfg then .locked else s.lockState
    lockOut := if x.granted s.cfg then true else s.lockOut
    unlockOut := if x.granted s.cfg then false else s.unlockOut
    trace := s.trace ++ x.events s.cfg, answers := rest, draws := s.draws + 2 * x.pairs.length }

theorem gets_cycle {p : Code} {s : State} {x : CycleAnswers} {rest : List Byte} (hc : CodeAt p s.seq (cycle s.cfg)) (g : Going s)
    (hok : s.cfg.ok = true) (hx : x.Fits s.cfg) (ha : s.answers = flatPairs x.pairs ++ rest) :
    ∃ v out, Gets p 1600000 s (cycleEnd s x rest v out) := by
  obtain ⟨b1, b2, _, _, b5, b6, _⟩ := ok_bounds hok
  cases x with
  | noTag r =>
    have hl := Exchange.steps_le hx.1 b2
    refine ⟨r.value s.v, r.out s.out, (gets_cycle_noTag hc g hx.1 b1 b2 ha hx.2).cast (by simp at hl; omega) ?_⟩
    have : ∀ o, r.out o = r.out o := fun _ => rfl
    simp [State.noTag, cycleEnd, State.exchanged, State.moved, CycleAnswers.ret, CycleAnswers.outcome, CycleAnswers.granted, CycleAnswers.resp, CycleAnswers.respLen, CycleAnswers.polls, CycleAnswers.tagType, CycleAnswers.uidBuf, CycleAnswers.events, CycleAnswers.request, CycleAnswers.anticoll, CycleAnswers.pairs, outcomeNoTag]
  | noUid r a =>
    have hl := Exchange.steps_le hx.1 b2
    have hl2 := Exchange.steps_le hx.2.2.1 b2
    simp only [CycleAnswers.pairs, flatPairs_append, List.append_assoc] at ha
    refine ⟨a.value (r.value s.v), a.out (r.out s.out), (gets_cycle_noUid hc g hx.1 hx.2.2.1 b1 b2 ha hx.2.1 hx.2.2.2).cast (by simp at hl hl2; omega) ?_⟩
    have ht : r.tag = overlay2 (r.out []) noBytes2 := by
      have := hx.2.1
      cases r <;> simp [Exchange.ret] at this <;> rfl
    simp [State.noUid, cycleEnd, State.exchanged, State.moved, CycleAnswers.ret, CycleAnswers.outcome, CycleAnswers.granted, CycleAnswers.resp, CycleAnswers.respLen, CycleAnswers.polls, CycleAnswers.tagType, CycleAnswers.uidBuf, CycleAnswers.events, CycleAnswers.request, CycleAnswers.anticoll, CycleAnswers.pairs, outcomeNoUid, ht, out_ok hx.2.1 s.out]
  | uid r a =>
    have hl := Exchange.steps_le hx.1 b2
    have hl2 := Exchange.steps_le hx.2.2.1 b2
    simp only [CycleAnswers.pairs, flatPairs_append, List.append_assoc] at ha
    have ht : r.tag = overlay2 (r.out []) noBytes2 := by
      have := hx.2.1
      cases r <;> simp [Exchange.ret] at this <;> rfl
    have hu : a.uid = overlay5 (a.out []) noBytes5 := by
      have := hx.2.2.2
      cases a <;> simp [Exchange.ret] at this <;> rfl
    have hlen : (a.out []).length = s.cfg.anticollReadLen := by
      have h1 := hx.2.2.2
      have h2 := hx.2.2.1
      cases a <;> simp [Exchange.ret] at h1
      have := h2.2.2.2
      simpa [Exchange.out] using this
    cases hm : uidMatches s.cfg.uidLen (a.uidOf s.cfg) s.cfg.whitelist with
    | true =>
      refine ⟨a.value (r.value s.v), a.out (r.out s.out), (gets_cycle_granted hc g hx.1 hx.2.2.1 b1 b2 ha hx.2.1 hx.2.2.2 b5 b6 hm).cast (by simp at hl hl2; omega) ?_⟩
      simp [State.decided, cycleEnd, State.exchanged, State.moved, CycleAnswers.ret, CycleAnswers.outcome, CycleAnswers.granted, CycleAnswers.resp, CycleAnswers.respLen, CycleAnswers.polls, CycleAnswers.tagType, CycleAnswers.uidBuf, CycleAnswers.events, CycleAnswers.request, CycleAnswers.anticoll, CycleAnswers.pairs, outcomeGranted, ht, hu, out_ok hx.2.1 s.out, out_ok hx.2.2.2 (r.out []), hm, hlen]
    | false =>
      refine ⟨a.value (r.value s.v), a.out (r.out s.out), (gets_cycle_denied hc g hx.1 hx.2.2.1 b1 b2 ha hx.2.1 hx.2.2.2 b5 b6 hm).cast (by simp at hl hl2; omega) ?_⟩
      simp [State.decided, cycleEnd, State.exchanged, State.moved, CycleAnswers.ret, CycleAnswers.outcome, CycleAnswers.granted, CycleAnswers.resp, CycleAnswers.respLen, CycleAnswers.polls, CycleAnswers.tagType, CycleAnswers.uidBuf, CycleAnswers.events, CycleAnswers.request, CycleAnswers.anticoll, CycleAnswers.pairs, outcomeDenied, ht, hu, out_ok hx.2.1 s.out, out_ok hx.2.2.2 (r.out []), hm, hlen]

theorem cycleEnd_going {s : State} (g : Going s) (x rest v out) : Going (cycleEnd s x rest v out) := ⟨g.op, rfl, rfl, rfl⟩

theorem perform_round {p : Code} {s t : State} {n : Nat} {K : Nat} (h : Gets p K s t) (hK : K < burstBound) (hp : p[t.seq]? = some (.restart n)) (hf : t.hold = .free) :
    perform p s = .next { t with seq := n } :=
  perform_of_gets h hK (by simp [atom, hf, hp, execMicro]) (by simp [rests, closesRound, hf, hp])

end Sys2Proof.Machine
end

