-- ==== Sys2Proof/Laws/Programs.lean ====
section
/-! SUPPORT. Which steps the codes of the instructions hold: what an operation cannot touch because no step of it does. -/

namespace Sys2Proof.Machine

def Micro.basic : Micro → Bool
  | .ctrl _ | .emit _ | .emitUid | .leaveResult | .onFail _ _ | .ifMatch _ | .unlock | .lock | .outcome _ _ | .setRunning | .restart _
  | .clearBuffers | .clearTag | .clearUid | .storeTag | .storeUid => false
  | _ => true

theorem all_delay {f : Micro → Bool} (hf : ∀ ms, f (.delay ms) = true) (ms : Nat) : (delay ms).all f = true := by
  unfold delay; split <;> simp [hf]

def Micro.plain (m : Micro) : Bool := Micro.basic m && !(m matches .finish _ _ | .finishRet _ | .finishFail | .retire | .checks _)

theorem plain_transceive (c : Params) (fr : Byte) (p : List Byte) (n : Nat) : (transceive c fr p n).all Micro.plain = true := by
  have hd := all_delay (f := Micro.plain) (fun _ => rfl) c.pollIntervalMs
  simp only [transceive, prologue, poll, collect, readFifo, chipCommand, stage, readReg, writeReg]
  cases c.clearIrqBeforeIssue <;> cases c.startSendAfterIssue <;> simp [hd, Micro.plain, Micro.basic, List.all_flatten, List.all_replicate, Function.comp_def] <;> simpa [Micro.plain] using hd

theorem basic_of_plain {m : Micro} (h : Micro.plain m = true) : Micro.basic m = true := by simp [Micro.plain] at h; exact h.1

theorem basic_transceive (c : Params) (fr : Byte) (p : List Byte) (n : Nat) : (transceive c fr p n).all Micro.basic = true := by
  have := plain_transceive c fr p n
  rw [List.all_eq_true] at *
  exact fun m hm => basic_of_plain (this m hm)

theorem basic_crc (c : Params) (n : Nat) : (codeCalcCrc c n).all Micro.basic = true := by
  have hd := all_delay (f := Micro.basic) (fun _ => rfl) c.crcPollIntervalMs
  simp only [codeCalcCrc, poll, chipCommand, stage, readReg, writeReg]
  simp [Micro.basic, List.all_flatten, Function.comp_def] ; simpa [Micro.basic] using hd

/-- the operations other than the actuator's and cycles -/
theorem program_plain (c : Params) (i : Instr) (h1 : i ≠ .unlock) (h2 : i ≠ .lock) (h3 : i ≠ .pollCycle) (h4 : i ≠ .run) :
    ∀ m ∈ program c i, Micro.basic m = true ∨ (m.touchesBuffers = true ∧ ((∃ x, i = .request x) ∨ i = .anticoll)) := by
  intro m hm
  have ht := fun fr p n => List.all_eq_true.1 (basic_transceive c fr p n)
  have hd := List.all_eq_true.1 (all_delay (f := Micro.basic) (fun _ => rfl) c.resetSettleMs)
  cases i with
  | request x =>
    simp only [program, codeRequest, requestBody, List.mem_append] at hm
    rcases hm with ((hm | ((hm | hm) | hm))) | hm
    · simp at hm; rcases hm with rfl | rfl <;> simp [Micro.basic, Micro.touchesBuffers]
    · simp at hm; subst hm; simp [Micro.basic, Micro.touchesBuffers]
    · exact .inl (ht _ _ _ m hm)
    · simp at hm; rcases hm with rfl | rfl <;> simp [Micro.basic, Micro.touchesBuffers]
    · simp at hm; rcases hm with rfl | rfl | rfl <;> simp [Micro.basic, Micro.touchesBuffers]
  | anticoll =>
    simp only [program, codeAnticoll, anticollBody, List.mem_append] at hm
    rcases hm with ((hm | ((hm | hm) | hm))) | hm
    · simp at hm; rcases hm with rfl | rfl <;> simp [Micro.basic, Micro.touchesBuffers]
    · simp at hm; subst hm; simp [Micro.basic, Micro.touchesBuffers]
    · exact .inl (ht _ _ _ m hm)
    · simp at hm; rcases hm with rfl | rfl <;> simp [Micro.basic, Micro.touchesBuffers]
    · simp at hm; rcases hm with rfl | rfl | rfl <;> simp [Micro.basic, Micro.touchesBuffers]
  | calcCrc n => exact .inl (List.all_eq_true.1 (basic_crc c n) m hm)
  | resetReader =>
    simp only [program, codeResetReader, List.mem_append] at hm
    rcases hm with ((hm | hm) | hm) | hm
    · simp at hm; subst hm; exact .inl rfl
    · simp [chipCommand, writeReg] at hm; rcases hm with rfl | rfl | rfl | rfl <;> exact .inl rfl
    · exact .inl (hd m hm)
    · simp at hm; subst hm; exact .inl rfl
  | unlock => exact absurd rfl h1
  | lock => exact absurd rfl h2
  | pollCycle => exact absurd rfl h3
  | run => exact absurd rfl h4
  | _ => exact .inl (List.all_eq_true.1 (show (program c _).all Micro.basic = true from rfl) m hm)

theorem basic_frames {m : Micro} (h : Micro.basic m = true) : m.touchesLock = false ∧ m.touchesCtrl = false ∧ m.touchesBuffers = false ∧ m.setsRunning = false ∧ m.leavesResult = false := by
  cases m <;> simp [Micro.basic] at h <;> exact ⟨rfl, rfl, rfl, rfl, rfl⟩

theorem buffers_frames {m : Micro} (h : m.touchesBuffers = true) : m.touchesLock = false ∧ m.touchesCtrl = false ∧ m.touchesPolls = false ∧ m.setsRunning = false ∧ m.leavesResult = false := by
  cases m <;> simp [Micro.touchesBuffers] at h <;> exact ⟨rfl, rfl, rfl, rfl, rfl⟩

theorem lock_frames {i : Instr} {c : Params} (h1 : i ≠ .unlock) (h2 : i ≠ .lock) (h3 : i ≠ .pollCycle) (h4 : i ≠ .run) : ∀ m ∈ program c i, m.touchesLock = false ∧ m.touchesCtrl = false ∧ m.setsRunning = false ∧ m.leavesResult = false := by
  intro m hm
  rcases program_plain c i h1 h2 h3 h4 m hm with h | ⟨h, _⟩
  · obtain ⟨a, b, _, d, e⟩ := basic_frames h; exact ⟨a, b, d, e⟩
  · obtain ⟨a, b, _, d, e⟩ := buffers_frames h; exact ⟨a, b, d, e⟩

theorem running_frames {i : Instr} {c : Params} (h : i ≠ .run) : ∀ m ∈ program c i, m.setsRunning = false := by
  intro m hm
  by_cases h1 : i = .unlock
  · subst h1; simp [program, codeUnlock] at hm; rcases hm with rfl | rfl | rfl <;> rfl
  · by_cases h2 : i = .lock
    · subst h2; simp [program, codeLock] at hm; rcases hm with rfl | rfl | rfl <;> rfl
    · by_cases h3 : i = .pollCycle
      · subst h3
        have hd1 := List.all_eq_true.1 (all_delay (f := fun m => !m.setsRunning) (fun _ => rfl) c.dwellMs)
        have hd2 := List.all_eq_true.1 (all_delay (f := fun m => !m.setsRunning) (fun _ => rfl) c.interPollMs)
        have ht := fun fr p n => List.all_eq_true.1 (basic_transceive c fr p n)
        simp only [program, codePollCycle, cycle, requestBody, afterRequest, anticollBody, decision, grantedBranch, deniedBranch, List.mem_append, List.mem_cons, List.not_mem_nil, or_false] at hm
        cases m <;> first | rfl | skip
        have := ht
        simp at hm
        rcases hm with (h' | (h' | h')) | h'
        all_goals first
         | (have := ht _ _ _ _ h'; simp [Micro.basic] at this; done)
         | (have := hd1 _ h'; simp [Micro.setsRunning] at this; done)
         | (have := hd2 _ h'; simp [Micro.setsRunning] at this; done)
      · exact (lock_frames h1 h2 h3 h m hm).2.2.1

theorem leaves_frames {i : Instr} {c : Params} (h3 : i ≠ .pollCycle) (h : i ≠ .run) : ∀ m ∈ program c i, m.leavesResult = false := by
  intro m hm
  by_cases h1 : i = .unlock
  · subst h1; simp [program, codeUnlock] at hm; rcases hm with rfl | rfl | rfl <;> rfl
  · by_cases h2 : i = .lock
    · subst h2; simp [program, codeLock] at hm; rcases hm with rfl | rfl | rfl <;> rfl
    · exact (lock_frames h1 h2 h3 h m hm).2.2.2

/-- RUN has no end in its code. -/
def Micro.ends : Micro → Bool
  | .finish _ _ | .finishRet _ | .finishFail | .retire => true
  | .checks .free => false
  | .checks _ => true
  | _ => false

theorem ends_of_plain {m : Micro} (h : Micro.plain m = true) : Micro.ends m = false := by
  cases m <;> simp [Micro.plain, Micro.basic] at h <;> rfl

theorem run_frames (c : Params) : ∀ m ∈ codeRun c, Micro.ends m = false := by
  have hd1 := List.all_eq_true.1 (all_delay (f := fun m => !Micro.ends m) (fun _ => rfl) c.dwellMs)
  have hd2 := List.all_eq_true.1 (all_delay (f := fun m => !Micro.ends m) (fun _ => rfl) c.interPollMs)
  have ht := fun fr p n => List.all_eq_true.1 (plain_transceive c fr p n)
  intro m hm
  simp only [codeRun, cycle, requestBody, afterRequest, anticollBody, decision, grantedBranch, deniedBranch, List.mem_append, List.mem_cons, List.not_mem_nil, or_false] at hm
  by_contra hne
  have he : Micro.ends m = true := by simpa using hne
  have n1 : ∀ fr p n, m ∉ transceive c fr p n := fun fr p n h => by have := ends_of_plain (ht fr p n m h); rw [he] at this; simp at this
  have n2 : m ∉ delay c.dwellMs := fun h => by have := hd1 m h; simp [he] at this
  have n3 : m ∉ delay c.interPollMs := fun h => by have := hd2 m h; simp [he] at this
  simp only [n1, n2, n3, or_false, false_or] at hm
  cases m <;> simp at hm <;> simp [Micro.ends] at he
  subst hm; simp [Micro.ends] at he

theorem keeps_op {m : Micro} {s t : State} (h : execMicro m s = .next t) (hm : Micro.ends m = false) : t.op = s.op ∧ t.busy = s.busy ∧ t.status = s.status := by
  cases m <;> simp [Micro.ends] at hm <;> simp only [execMicro] at h
  case checks c => cases c <;> simp [Micro.ends] at hm; simp [checks] at h; subst h; exact ⟨rfl, rfl, rfl⟩
  case select => unfold select at h; split at h <;> simp [onNext] at h; subst h; exact ⟨rfl, rfl, rfl⟩
  case deselect => unfold deselect at h; split at h <;> simp [onNext] at h; subst h; exact ⟨rfl, rfl, rfl⟩
  case xferDrop x => unfold startXfer at h; (repeat' split at h) <;> simp at h; subst h; exact ⟨rfl, rfl, rfl⟩
  case xferKeep x => unfold startXfer at h; (repeat' split at h) <;> simp at h; subst h; exact ⟨rfl, rfl, rfl⟩
  case delay ms => simp only [Host.Outcome.next.injEq] at h; subst h; unfold startDelay; split <;> exact ⟨rfl, rfl, rfl⟩
  case unlock => simp [unlockBody, setOutputs, onNext] at h; subst h; exact ⟨rfl, rfl, rfl⟩
  case lock => simp [lockBody, setOutputs, onNext] at h; subst h; exact ⟨rfl, rfl, rfl⟩
  case leaveResult => simp only [Host.Outcome.next.injEq] at h; subst h; unfold leaveResult; split <;> exact ⟨rfl, rfl, rfl⟩
  all_goals (repeat' split at h) <;> simp at h <;> subst h <;> exact ⟨rfl, rfl, rfl⟩

end Sys2Proof.Machine
end

