-- ==== Sys2Proof/Laws/Controller.lean ====
section
/-! SUPPORT. What the controller does along a code (R186): a run that meets no `ctrl` step but one to the state the controller is
in leaves it there throughout. The lemmas ask for the run in the muted code, in which every other `ctrl` step ends the run. -/

namespace Sys2Proof.Machine

/-! ## Atomic steps in a row -/

theorem atoms_succ {p : Code} {t u : State} (hu : atom p t = .next u) :
    ∀ {n : Nat} {s : State}, atoms p n s = .next t → atoms p (n + 1) s = .next u := by
  intro n
  induction n with
  | zero => intro s h; simp only [atoms, Host.Outcome.next.injEq] at h; subst h; simp [atoms, hu]
  | succ n ih =>
    intro s h
    rw [atoms] at h ⊢
    split at h
    · exact ih h
    · cases h
    · cases h

/-- Only a `ctrl` step moves the controller. -/
theorem execMicro_ctrl {m : Micro} {s t : State} (h : execMicro m s = .next t) (hm : ∀ c, m ≠ .ctrl c) :
    t.ctrlState = s.ctrlState := by
  by_cases ht : m.touchesCtrl = false
  · exact (execMicro_frame h).ctrl ht
  · cases m <;> simp [Micro.touchesCtrl] at ht
    case ctrl c => exact absurd rfl (hm c)
    case emit d => cases h; rfl
    case emitUid =>
      simp only [execMicro] at h
      split at h <;> cases h
      rfl

/-! ## The muted code -/

/-- A `ctrl` step to another state than `c` becomes the end of the run. -/
def Micro.mute (c : CtrlState) (m : Micro) : Micro :=
  match m with
  | .ctrl d => if d = c then .ctrl d else .retire
  | m => m

/-- The code with every step muted. -/
def mute (c : CtrlState) (p : Code) : Code := p.map (Micro.mute c)

/-- The steps are the same in the muted code. -/
def Unmuted (c : CtrlState) (q : Code) : Prop := ∀ m ∈ q, Micro.mute c m = m

theorem at_mute {c : CtrlState} {p : Code} {n : Nat} {m : Micro} (h : p[n]? = some m) (hm : Micro.mute c m = m) :
    (mute c p)[n]? = some m := by
  simp [mute, h, hm]

theorem CodeAt.muted {c : CtrlState} {p q : Code} {n : Nat} (h : CodeAt p n q) (hq : Unmuted c q) : CodeAt (mute c p) n q := by
  intro j hj
  have := h j hj
  rw [List.getElem?_eq_getElem hj] at this ⊢
  exact at_mute this (hq _ (List.getElem_mem hj))

theorem Unmuted.append {c : CtrlState} {q r : Code} (h : Unmuted c q) (h' : Unmuted c r) : Unmuted c (q ++ r) := fun m hm =>
  (List.mem_append.1 hm).elim (h m) (h' m)

theorem unmuted_transceive (c : CtrlState) (d : Params) (f : Byte) (l : List Byte) (n : Nat) : Unmuted c (transceive d f l n) := by
  intro m hm
  have := List.all_eq_true.1 (basic_transceive d f l n) m hm
  cases m <;> first | rfl | simp [Micro.basic] at this

theorem unmuted_delay (c : CtrlState) (ms : Nat) : Unmuted c (delay ms) := by
  intro m hm
  unfold delay at hm
  split at hm <;> simp at hm
  subst hm; rfl

theorem unmuted_requestBody (c : CtrlState) (d : Params) (m : Byte) : Unmuted c (requestBody d m) :=
  (Unmuted.append (by simp [Unmuted, Micro.mute]) (unmuted_transceive c d _ _ _)).append (by simp [Unmuted, Micro.mute])

theorem unmuted_anticollBody (c : CtrlState) (d : Params) : Unmuted c (anticollBody d) :=
  (Unmuted.append (by simp [Unmuted, Micro.mute]) (unmuted_transceive c d _ _ _)).append (by simp [Unmuted, Micro.mute])

/-- A burst of the muted code that leaves the operation going is a row of atomic steps of the code, the controller staying. -/
theorem atoms_of_burst {p : Code} {c : CtrlState} {t : State} (ht : t.op.isSome = true) :
    ∀ (k : Nat) (s : State), s.op.isSome = true → s.ctrlState = c → burst (mute c p) k s = .next t →
      ∃ n, atoms p n s = .next t ∧ ∀ j w, j ≤ n → atoms p j s = .next w → w.ctrlState = c := by
  have still : ∀ s, s.ctrlState = c → ∃ n, atoms p n s = .next s ∧ ∀ j w, j ≤ n → atoms p j s = .next w → w.ctrlState = c :=
    fun s hs => ⟨0, rfl, fun j w hj hw => by
      obtain rfl : j = 0 := by omega
      simp only [atoms, Host.Outcome.next.injEq] at hw
      exact hw ▸ hs⟩
  have more : ∀ s w, s.ctrlState = c → atom p s = .next w →
      (∃ n, atoms p n w = .next t ∧ ∀ j u, j ≤ n → atoms p j w = .next u → u.ctrlState = c) →
      ∃ n, atoms p n s = .next t ∧ ∀ j u, j ≤ n → atoms p j s = .next u → u.ctrlState = c := by
    rintro s w hs hw ⟨n, hn, hc⟩
    refine ⟨n + 1, by rw [atoms, hw]; exact hn, fun j u hj hu => ?_⟩
    cases j with
    | zero => simp only [atoms, Host.Outcome.next.injEq] at hu; exact hu ▸ hs
    | succ j => rw [atoms, hw] at hu; exact hc j u (by omega) hu
  intro k
  induction k with
  | zero =>
    intro s _ hs h
    simp only [burst, Host.Outcome.next.injEq] at h
    subst h
    exact still s hs
  | succ k ih =>
    intro s hop hs h
    unfold burst at h
    split at h
    case h_2 => cases h
    case h_3 => cases h
    case h_1 w hw =>
      have go : atom p s = .next w → w.ctrlState = c → _ := fun ha hc => more s w hs ha <| by
        split at h
        · simp only [Host.Outcome.next.injEq] at h
          subst h
          exact still w hc
        · rename_i hr
          refine ih w ?_ hc h
          simp only [rests, Bool.or_eq_true, not_or] at hr
          cases hwo : w.op with
          | none => simp [hwo] at hr
          | some i => rfl
      rcases atom_cases hw with ⟨o, keep, hh, rfl⟩ | ⟨hh, rfl⟩ | ⟨hh, m, -, hm, he⟩ | ⟨hh, hn, hws⟩
      · exact go (by simp [atom, hh]) hs
      · exact go (by simp [atom, hh]) hs
      · obtain ⟨m', hm', rfl⟩ : ∃ m', p[s.seq]? = some m' ∧ Micro.mute c m' = m := by simpa [mute] using hm
        have ha : ∀ (_ : Micro.mute c m' = m'), atom p s = .next w := fun e => by simp [atom, hh, hm', ← he, e]
        by_cases hd : ∃ d, m' = .ctrl d
        · obtain ⟨d, rfl⟩ := hd
          by_cases hdc : d = c
          · subst hdc
            have e : Micro.mute d (.ctrl d) = .ctrl d := by simp [Micro.mute]
            rw [e] at he
            cases he
            exact go (ha e) rfl
          · have e : Micro.mute c (.ctrl d) = .retire := by simp [Micro.mute, hdc]
            rw [e] at he
            cases he
            rw [if_pos (by simp [rests, retire])] at h
            simp only [Host.Outcome.next.injEq] at h
            subst h
            simp [retire] at ht
        · have e : Micro.mute c m' = m' := by cases m' <;> first | rfl | exact absurd ⟨_, rfl⟩ hd
          rw [e] at he
          exact go (ha e) ((execMicro_ctrl he fun d hd' => hd ⟨d, hd'⟩).trans hs)
      · subst hws
        rw [if_neg] at h
        · exact ih _ hop hs h
        · simp [rests, Option.isNone_eq_false_iff.2 hop, awaiting, hh, closesRound, hn]

/-- A run of the muted code, then one step more. -/
theorem keepsCtrlUntil_of_gets {p : Code} {K : Nat} {s t u : State} (hs : s.op.isSome = true)
    (h : Gets (mute s.ctrlState p) K s t) (ht : t.op.isSome = true) (hu : atom p t = .next u) : KeepsCtrlUntil p s u := by
  obtain ⟨k, -, h⟩ := h
  obtain ⟨n, hn, hc⟩ := atoms_of_burst ht (0 + k) s hs rfl (h 0)
  exact ⟨n, atoms_succ hu hn, hc⟩

theorem atom_of {p : Code} {s t : State} {m : Micro} (hp : p[s.seq]? = some m) (hold : s.hold = .free)
    (he : execMicro m s = .next t) : atom p s = .next t := by
  simp [atom, hold, hp, he]

/-! ## The controller's way through a cycle (R186) -/

section
variable {p : Code} {s₀ s : State} {e e₂ : Exchange} {rest : List Byte} {K : Nat}

/-- The inter-poll delay of a cycle's END, then Idle, from the end of the way to it. -/
theorem keepsCtrlUntil_end (hs : s₀.op.isSome = true) (h : Gets (mute s₀.ctrlState p) K s₀ s)
    (hc : CodeAt p s.seq (delay s.cfg.interPollMs ++ [.ctrl .idle])) (g : Going s) :
    ∃ u, KeepsCtrlUntil p s₀ u ∧ u.ctrlState = .idle ∧ u.trace = s.trace ++ delayEvents s.cfg.interPollMs := by
  have h1 := h.append (runs_delay (hc.left.muted (unmuted_delay _ _)) g).gets
  exact ⟨_, keepsCtrlUntil_of_gets hs h1 g.op (atom_of (by exact hc.right.head) rfl rfl), rfl, rfl⟩

/-- A cycle begins: Idle. -/
theorem keepsCtrl_begun (hs : s₀.op.isSome = true) (h : Gets (mute s₀.ctrlState p) K s₀ s) (hcyc : CycleAt p s.seq s.cfg)
    (g : Going s) : KeepsCtrlUntil p s₀ s.cycleBegun := by
  have h1 := h.append (g.micro (m := .clearBuffers) (t := s.buffersCleared) (at_mute hcyc.clear rfl) rfl g.buffersCleared (by simp))
  exact keepsCtrlUntil_of_gets hs h1 g.op (atom_of (by exact hcyc.idle) g.hold rfl)

variable (hcyc : CycleAt p s.seq s.cfg) (g : Going s) (hmin : 1 ≤ s.cfg.pollMaxCom) (hmax : s.cfg.pollMaxCom ≤ 65535)
  (he : e.Fits s.cfg s.cfg.bitFramingShort [s.cfg.reqMode] 2)

include hcyc g hmin hmax he in
/-- The REQUEST of a cycle, the controller Idle. -/
theorem gets_request_idle (ha : s.answers = flatPairs e.pairs ++ rest) :
    Gets (mute .idle p) (e.steps + 4) s.cycleBegun (s.cycleRequested e rest) :=
  gets_cycleRequested (hcyc.request.muted (unmuted_requestBody _ _ _)) (at_mute hcyc.left1 rfl) g he hmin hmax ha

include hcyc g hmin hmax he in
/-- Idle to Idle: REQUEST fails. -/
theorem keepsCtrl_noTag (ha : s.answers = flatPairs e.pairs ++ rest) (hr : e.ret ≠ .ok) :
    ∃ u, KeepsCtrlUntil p s.cycleBegun u ∧ u.ctrlState = .idle ∧
      u.trace = s.trace ++ e.events s.cfg s.cfg.bitFramingShort [s.cfg.reqMode] ++ delayEvents s.cfg.interPollMs := by
  have h1 := (gets_request_idle hcyc g hmin hmax he ha).append
    (gets_onFail_fail (at_mute (by exact hcyc.fail1) rfl) (g.cycleRequested ..) hr)
  have hf := hcyc.finish.cast (m := s.seq + (2 + (requestBody s.cfg s.cfg.reqMode).length + 1) + 1 + (afterRequest s.cfg).length)
    (by rw [afterRequest_length]; omega)
  exact keepsCtrlUntil_end g.cycleBegun.op h1 (by exact hf) ((g.cycleRequested ..).outcomeSet ..)

include hcyc g hmin hmax he in
/-- Idle to ReadUid: REQUEST succeeds and the card is announced. -/
theorem keepsCtrl_card (ha : s.answers = flatPairs e.pairs ++ rest) (hr : e.ret = .ok) :
    KeepsCtrlUntil p s.cycleBegun (s.cardFound e rest) := by
  have g1 := (g.cycleRequested e rest).advance
  have h1 := (gets_request_idle hcyc g hmin hmax he ha).append
    (gets_onFail_ok (at_mute (by exact hcyc.fail1) rfl) (g.cycleRequested ..) hr)
  have h2 := h1.append (gets_emit (at_mute (by exact hcyc.card) rfl) g1)
  refine keepsCtrlUntil_of_gets g.cycleBegun.op h2 (g1.emitted _).op (atom_of (by exact hcyc.readUid) (g1.emitted _).hold ?_)
  simp [execMicro, State.cycleRequested, State.cardFound, State.exchanged, State.moved, hr, State.advance, State.emitted]
  omega

/-- The ANTICOLL of a cycle, the controller in ReadUid, from the state in which it found a card. -/
theorem gets_anticoll_readUid {r : List Byte} (hcyc : CycleAt p s.seq s.cfg) (g : Going s)
    (hmin : 1 ≤ s.cfg.pollMaxCom) (hmax : s.cfg.pollMaxCom ≤ 65535)
    (he₂ : e₂.Fits s.cfg s.cfg.bitFramingFull [s.cfg.piccAnticoll, s.cfg.nvbAnticoll] s.cfg.anticollReadLen)
    (hr : r = flatPairs e₂.pairs ++ rest) :
    Gets (mute .readUid p) (e₂.steps + 3 + 1) (s.cardFound e r) (s.uidRead e e₂ rest) := by
  have h2 := gets_anticollBody (p := mute .readUid p) (e := e₂) (rest := rest) (s := s.cardFound e r)
    (hcyc.anticoll.muted (unmuted_anticollBody _ _)) (g.cardFound ..) he₂ hmin hmax hr
  have hl := hcyc.left2
  rw [← Nat.add_assoc s.seq] at hl
  have h3 := h2.append (gets_leaveResult (at_mute (by exact hl) rfl) (g.cardFound ..).anticolled)
  refine h3.cast (Nat.le_refl _) ?_
  simp [State.cardFound, State.anticolled, State.uidRead, State.exchanged, State.moved, State.resultLeft]
  constructor <;> omega

/-- ReadUid to Idle: ANTICOLL fails. -/
theorem keepsCtrl_noUid {r : List Byte} (hcyc : CycleAt p s.seq s.cfg) (g : Going s)
    (hmin : 1 ≤ s.cfg.pollMaxCom) (hmax : s.cfg.pollMaxCom ≤ 65535)
    (he₂ : e₂.Fits s.cfg s.cfg.bitFramingFull [s.cfg.piccAnticoll, s.cfg.nvbAnticoll] s.cfg.anticollReadLen)
    (hr : r = flatPairs e₂.pairs ++ rest) (hr₂ : e₂.ret ≠ .ok) :
    ∃ u, KeepsCtrlUntil p (s.cardFound e r) u ∧ u.ctrlState = .idle ∧
      u.trace = (s.uidRead e e₂ rest).trace ++ delayEvents s.cfg.interPollMs := by
  have h1 := (gets_anticoll_readUid (e := e) hcyc g hmin hmax he₂ hr).append
    (gets_onFail_fail (at_mute (by exact hcyc.fail2) rfl) (g.uidRead ..) hr₂)
  have hf := hcyc.finish.cast (m := s.seq + (2 + (requestBody s.cfg s.cfg.reqMode).length + 4 + (anticollBody s.cfg).length + 1) +
    1 + (decision s.cfg).length) (by omega)
  exact keepsCtrlUntil_end (s := (s.uidRead e e₂ rest).outcomeSet outcomeNoUid (decision s.cfg).length) (g.cardFound e r).op h1
    (by exact hf) ((g.uidRead ..).outcomeSet ..)

end

/-! ## The decision and what follows it -/

section
variable {p : Code} {s₀ w : State} {u : List Byte} {K n : Nat}

/-- The state in which a cycle has decided on the UID `u`: `u` announced, the controller in state `c`, `n` steps passed over. -/
def State.decidedOn (w : State) (u : List Byte) (c : CtrlState) (n : Nat) : State := ((w.emitted (.uid u)).skip n).ctrlTo c

theorem Going.decidedOn (h : Going w) (u : List Byte) (c : CtrlState) (n : Nat) : Going (w.decidedOn u c n) :=
  ((h.emitted _).skip n).ctrlTo c

/-- ReadUid to Granted or Denied: the UID is announced, and the match decides. -/
theorem keepsCtrl_decision (hs : s₀.op.isSome = true) (h : Gets (mute s₀.ctrlState p) K s₀ w) (g : Going w)
    (hd : CodeAt p w.seq (decision w.cfg)) (hu : uidBytes w = some u) :
    KeepsCtrlUntil p s₀
      (if uidMatches w.cfg.uidLen u w.cfg.whitelist then w.decidedOn u .granted 0
      else w.decidedOn u .denied (grantedBranch w.cfg deniedBranch.length).length) := by
  have ge := g.emitted (.uid u)
  have h1 := h.append (gets_emitUid (at_mute (by exact hd.left.left.head) rfl) g hu)
  have hu' : uidBytes (w.emitted (.uid u)) = some u := hu
  have hp : (mute s₀.ctrlState p)[(w.emitted (.uid u)).seq]? = some (.ifMatch (grantedBranch w.cfg deniedBranch.length).length) :=
    at_mute (by exact hd.left.left.tail.head) rfl
  split
  · rename_i hm
    have hm' : uidMatches (w.emitted (.uid u)).cfg.uidLen u (w.emitted (.uid u)).cfg.whitelist = true := hm
    have h2 := h1.append (ge.micro (t := (w.emitted (.uid u)).skip 0) hp (by simp only [execMicro, hu', hm']; rfl) (ge.skip 0)
      (by simp))
    exact keepsCtrlUntil_of_gets hs h2 (ge.skip 0).op (atom_of (by exact hd.left.right.left.left.head) (ge.skip 0).hold rfl)
  · rename_i hm
    have hm' : uidMatches (w.emitted (.uid u)).cfg.uidLen u (w.emitted (.uid u)).cfg.whitelist = false := Bool.eq_false_iff.2 hm
    have h2 := h1.append (ge.micro (t := (w.emitted (.uid u)).skip _) hp (by simp only [execMicro, hu', hm']; rfl) (ge.skip _)
      (by simp))
    refine keepsCtrlUntil_of_gets hs h2 (ge.skip _).op (atom_of (m := .ctrl .denied) (at_of hd.right.head ?_) (ge.skip _).hold rfl)
    simp [State.emitted, State.skip]
    omega

/-- Granted to Idle: the outputs, the dwell and the inter-poll delay. -/
theorem keepsCtrl_granted (g : Going w)
    (hb : CodeAt p w.seq ([.emit .granted, .unlock] ++ delay w.cfg.dwellMs ++ [.lock, .outcome outcomeGranted n]))
    (hf : CodeAt p (w.seq + 4 + (delay w.cfg.dwellMs).length + n) (delay w.cfg.interPollMs ++ [.ctrl .idle])) :
    ∃ u, KeepsCtrlUntil p w u ∧ u.ctrlState = .idle ∧
      u.trace = w.trace ++ grantedEvents w.cfg ++ delayEvents w.cfg.interPollMs := by
  have g1 := (g.emitted .granted).unlockDone
  have h1 := (gets_emit (p := mute w.ctrlState p) (at_mute (by exact hb.left.left.head) rfl) g).append
    (gets_unlock (at_mute (by exact hb.left.left.tail.head) rfl) (g.emitted _))
  have h2 := h1.append (runs_delay (ms := w.cfg.dwellMs) (CodeAt.muted (by exact hb.left.right) (unmuted_delay _ _)) g1).gets
  have hl := hb.right.cast (m := w.seq + 1 + 1 + (delay w.cfg.dwellMs).length) (by simp; omega)
  have h3 := (h2.append (gets_lock (at_mute (by exact hl.head) rfl) (g1.moved ..))).append
    (gets_outcome (at_mute (by exact hl.tail.head) rfl) (g1.moved ..).lockDone)
  obtain ⟨u, hk, hi, ht⟩ := keepsCtrlUntil_end g.op h3
    (hf.cast (by simp [State.outcomeSet, State.lockDone, State.moved, State.unlockDone, State.emitted]; omega))
    ((g1.moved ..).lockDone.outcomeSet ..)
  refine ⟨u, hk, hi, ht.trans ?_⟩
  simp [State.outcomeSet, State.lockDone, State.moved, State.unlockDone, State.emitted, grantedEvents]

/-- Denied to Idle: the inter-poll delay. -/
theorem keepsCtrl_denied (g : Going w) (hb : CodeAt p w.seq [.emit .denied, .outcome outcomeDenied n])
    (hf : CodeAt p (w.seq + 2 + n) (delay w.cfg.interPollMs ++ [.ctrl .idle])) :
    ∃ u, KeepsCtrlUntil p w u ∧ u.ctrlState = .idle ∧
      u.trace = w.trace ++ [.diag .denied] ++ delayEvents w.cfg.interPollMs := by
  have h1 := (gets_emit (p := mute w.ctrlState p) (at_mute (by exact hb.head) rfl) g).append
    (gets_outcome (at_mute (by exact hb.tail.head) rfl) (g.emitted _))
  exact keepsCtrlUntil_end g.op h1 (hf.cast (by simp [State.outcomeSet, State.emitted])) ((g.emitted _).outcomeSet ..)

end

end Sys2Proof.Machine
end

