-- ==== Sys2Proof/Laws/Memory.lean ====
section
/-! SUPPORT. `DATA_IN` as a list of cells: reading after writing, and that writing keeps the canonical form. -/

namespace Sys2Proof.Machine

theorem cellsFrom_mono {lo lo' : Nat} (h : lo' ≤ lo) : ∀ {m : Memory}, cellsFrom lo m = true → cellsFrom lo' m = true := by
  intro m hm
  cases m with
  | nil => rfl
  | cons c rest =>
    simp only [cellsFrom, Bool.and_eq_true, decide_eq_true_eq] at hm ⊢
    exact ⟨⟨by omega, hm.1.2⟩, hm.2⟩

theorem readCell_below {m : Memory} : ∀ {lo i : Nat}, cellsFrom lo m = true → i < lo → readCell m i = none := by
  induction m with
  | nil => intro lo i _ _; rfl
  | cons c rest ih =>
    intro lo i h hi
    simp only [cellsFrom, Bool.and_eq_true, decide_eq_true_eq] at h
    have hne : i ≠ c.1 := by omega
    simp only [readCell, hne, if_false]
    exact ih h.2 (by omega)

theorem writeCell_cellsFrom {m : Memory} (b : Byte) : ∀ {lo i : Nat}, cellsFrom lo m = true → lo ≤ i → i < 128 →
    cellsFrom lo (writeCell m i b) = true := by
  induction m with
  | nil =>
    intro lo i _ h1 h2
    simp [writeCell, cellsFrom, h1, h2]
  | cons c rest ih =>
    intro lo i h h1 h2
    simp only [cellsFrom, Bool.and_eq_true, decide_eq_true_eq] at h
    simp only [writeCell]
    split
    · simp only [cellsFrom, Bool.and_eq_true, decide_eq_true_eq]
      exact ⟨⟨h1, h2⟩, ⟨⟨by omega, h.1.2⟩, h.2⟩⟩
    · split
      · rename_i heq
        subst heq
        simp only [cellsFrom, Bool.and_eq_true, decide_eq_true_eq]
        exact ⟨⟨h1, h2⟩, h.2⟩
      · simp only [cellsFrom, Bool.and_eq_true, decide_eq_true_eq]
        exact ⟨h.1, ih h.2 (by omega) h2⟩

/-- Writing keeps the canonical form. -/
theorem writeCell_wf {m : Memory} {i : Nat} {b : Byte} (h : m.wf = true) (hi : i < 128) : (writeCell m i b).wf = true :=
  writeCell_cellsFrom b h (Nat.zero_le i) hi

/-- A byte just written reads back (R22). -/
theorem readCell_writeCell_same (m : Memory) (i : Nat) (b : Byte) : readCell (writeCell m i b) i = some b := by
  induction m with
  | nil => simp [writeCell, readCell]
  | cons c rest ih =>
    simp only [writeCell]
    split
    · simp [readCell]
    · split
      · simp [readCell]
      · rename_i h1 h2
        simp [readCell, h2, ih]

/-- Every other byte reads as before. -/
theorem readCell_writeCell_other (m : Memory) (i j : Nat) (b : Byte) (h : j ≠ i) :
    readCell (writeCell m i b) j = readCell m j := by
  induction m with
  | nil => simp [writeCell, readCell, h]
  | cons c rest ih =>
    simp only [writeCell]
    split
    · simp [readCell, h]
    · split
      · rename_i h1 h2
        subst h2
        simp [readCell, h]
      · simp only [readCell, ih]

/-- A host write of `DATA_IN` keeps the canonical form, accepted or not. -/
theorem hostWriteData_wf {s : State} {i : Fin 128} {b : Byte} (h : s.dataIn.wf = true) :
    (hostWriteData i.val b s).dataIn.wf = true := by
  unfold hostWriteData
  split
  · exact h
  · exact writeCell_wf h i.isLt

theorem initial_dataIn_wf (c : Params) : (State.initial c).dataIn.wf = true := rfl

end Sys2Proof.Machine
end

