-- ==== Sys2Proof/Laws/PerInstr.lean ====
section
/-! SUPPORT. The family TableBits, instruction by instruction: the encoding has the bits that spec/opcode_table.json fixes. -/

namespace Sys2Proof.Laws.TableBits

/-- The bits a row of the opcode table fixes. -/
def tableMask : Instr → Word
  | .readReg _ => 0xFE00000F#32
  | .writeReg _ _ => 0xFE00000F#32
  | .resetReader => 0xFE00000F#32
  | .antennaOn => 0xFE00000F#32
  | .request _ => 0xFE00000F#32
  | .anticoll => 0xFE00000F#32
  | .calcCrc _ => 0xFE00000F#32
  | .compareUid => 0xFE00000F#32
  | .unlock => 0xFE00000F#32
  | .lock => 0xFE00000F#32
  | .pollCycle => 0xFE00000F#32
  | .run => 0xFE00000F#32
  | .reservedOp0 => 0x0000000F#32
  | .reservedOpD => 0x0000000F#32
  | .reservedOpE => 0x0000000F#32
  | .reservedOpF => 0x0000000F#32
  | .reservedRsv25 => 0x02000000#32
  | .reservedRsv26 => 0x04000000#32
  | .reservedRsv27 => 0x08000000#32
  | .reservedRsv28 => 0x10000000#32
  | .reservedRsv29 => 0x20000000#32
  | .reservedRsv30 => 0x40000000#32
  | .reservedRsv31 => 0x80000000#32
  | .frameRead _ => 0x00000081#32
  | .frameWrite _ => 0x00000081#32
  | .chipIdle => 0x000000FF#32
  | .chipCalcCrc => 0x000000FF#32
  | .chipTransceive => 0x000000FF#32
  | .chipSoftReset => 0x000000FF#32
  | .cardReqa => 0x000000FF#32
  | .cardAnticollCl1 => 0x000000FF#32
  | .cardNvb => 0x000000FF#32

/-- Their values. -/
def tableMatch : Instr → Word
  | .readReg _ => 0x00000001#32
  | .writeReg _ _ => 0x00000002#32
  | .resetReader => 0x00000003#32
  | .antennaOn => 0x00000004#32
  | .request _ => 0x00000005#32
  | .anticoll => 0x00000006#32
  | .calcCrc _ => 0x00000007#32
  | .compareUid => 0x00000008#32
  | .unlock => 0x00000009#32
  | .lock => 0x0000000A#32
  | .pollCycle => 0x0000000B#32
  | .run => 0x0000000C#32
  | .reservedOp0 => 0x00000000#32
  | .reservedOpD => 0x0000000D#32
  | .reservedOpE => 0x0000000E#32
  | .reservedOpF => 0x0000000F#32
  | .reservedRsv25 => 0x02000000#32
  | .reservedRsv26 => 0x04000000#32
  | .reservedRsv27 => 0x08000000#32
  | .reservedRsv28 => 0x10000000#32
  | .reservedRsv29 => 0x20000000#32
  | .reservedRsv30 => 0x40000000#32
  | .reservedRsv31 => 0x80000000#32
  | .frameRead _ => 0x00000080#32
  | .frameWrite _ => 0x00000000#32
  | .chipIdle => 0x00000000#32
  | .chipCalcCrc => 0x00000003#32
  | .chipTransceive => 0x0000000C#32
  | .chipSoftReset => 0x0000000F#32
  | .cardReqa => 0x00000026#32
  | .cardAnticollCl1 => 0x00000093#32
  | .cardNvb => 0x00000020#32

/-- The encoding of `i` has the bits of its row. -/
def Statement (i : Instr) : Prop := encode Params.default i &&& tableMask i = tableMatch i

/-- A canonical word shows its operation code under the mask of the operations' rows. -/
theorem commandWord_masked (n : BitVec 7) (d : Byte) (a : Addr) (op : BitVec 4) :
    commandWord n d a op &&& 0xFE00000F#32 = op.setWidth 32 := by
  apply BitVec.eq_of_getLsbD_eq
  intro i hi
  rw [BitVec.getLsbD_and, commandWord_bit, BitVec.getLsbD_setWidth]
  interval_cases i <;> simp

theorem readReg (a : Addr) : Statement (.readReg a) := commandWord_masked ..

theorem writeReg (a : Addr) (v : Byte) : Statement (.writeReg a v) := commandWord_masked ..

theorem resetReader : Statement (.resetReader) := by unfold Statement; decide

theorem antennaOn : Statement (.antennaOn) := by unfold Statement; decide

theorem request (m : Byte) : Statement (.request m) := commandWord_masked ..

theorem anticoll : Statement (.anticoll) := by unfold Statement; decide

theorem calcCrc (n : Nat) : Statement (.calcCrc n) := commandWord_masked ..

theorem compareUid : Statement (.compareUid) := by unfold Statement; decide

theorem unlock : Statement (.unlock) := by unfold Statement; decide

theorem lock : Statement (.lock) := by unfold Statement; decide

theorem pollCycle : Statement (.pollCycle) := by unfold Statement; decide

theorem run : Statement (.run) := by unfold Statement; decide

theorem reservedOp0 : Statement (.reservedOp0) := by unfold Statement; decide

theorem reservedOpD : Statement (.reservedOpD) := by unfold Statement; decide

theorem reservedOpE : Statement (.reservedOpE) := by unfold Statement; decide

theorem reservedOpF : Statement (.reservedOpF) := by unfold Statement; decide

theorem reservedRsv25 : Statement (.reservedRsv25) := by unfold Statement; decide

theorem reservedRsv26 : Statement (.reservedRsv26) := by unfold Statement; decide

theorem reservedRsv27 : Statement (.reservedRsv27) := by unfold Statement; decide

theorem reservedRsv28 : Statement (.reservedRsv28) := by unfold Statement; decide

theorem reservedRsv29 : Statement (.reservedRsv29) := by unfold Statement; decide

theorem reservedRsv30 : Statement (.reservedRsv30) := by unfold Statement; decide

theorem reservedRsv31 : Statement (.reservedRsv31) := by unfold Statement; decide

theorem frameRead (a : Addr) : Statement (.frameRead a) := by
  unfold Statement
  revert a; decide

theorem frameWrite (a : Addr) : Statement (.frameWrite a) := by
  unfold Statement
  revert a; decide

theorem chipIdle : Statement (.chipIdle) := by unfold Statement; decide

theorem chipCalcCrc : Statement (.chipCalcCrc) := by unfold Statement; decide

theorem chipTransceive : Statement (.chipTransceive) := by unfold Statement; decide

theorem chipSoftReset : Statement (.chipSoftReset) := by unfold Statement; decide

theorem cardReqa : Statement (.cardReqa) := by unfold Statement; decide

theorem cardAnticollCl1 : Statement (.cardAnticollCl1) := by unfold Statement; decide

theorem cardNvb : Statement (.cardNvb) := by unfold Statement; decide

end Sys2Proof.Laws.TableBits
end

