-- ==== Sys2Proof/Laws/Steps.lean ====
section
/-! SUPPORT. How one step of the machine comes about, and what it takes for an invariant to hold after it. -/

namespace Sys2Proof.Machine

theorem onNext_inv {r : Result} {f : State → State} {t : State} (h : onNext r f = .next t) : ∃ u, r = .next u ∧ t = f u := by
  cases r <;> simp [onNext] at h
  exact ⟨_, rfl, h.symm⟩

theorem atom_frame {p : Code} {s t : State} (h : atom p s = .next t) : t.cmd = s.cmd ∧ t.dataIn = s.dataIn ∧ t.overrun = s.overrun ∧ t.cfg = s.cfg ∧ t.env = s.env ∧ t.hostData = s.hostData ∧ s.trace <+: t.trace := by
  obtain ⟨o, k, _, rfl⟩ | ⟨_, rfl⟩ | ⟨_, m, _, _, hm⟩ | ⟨_, _, rfl⟩ := atom_cases h
  · exact ⟨rfl, rfl, rfl, rfl, rfl, rfl, List.prefix_append _ _⟩
  · exact ⟨rfl, rfl, rfl, rfl, rfl, rfl, List.prefix_refl _⟩
  · have f := execMicro_frame hm
    exact ⟨f.cmd, f.dataIn, f.overrun, f.cfg, f.env, f.hostData, f.grows⟩
  · exact ⟨rfl, rfl, rfl, rfl, rfl, rfl, List.prefix_refl _⟩

/-- a burst that stops at the end of the operation -/
theorem burst_until {p : Code} {P Q : State → Prop} (hP : ∀ s t, P s → atom p s = .next t → P t ∨ (Q t ∧ t.op = none)) :
    ∀ (n : Nat) (s t : State), P s → burst p n s = .next t → P t ∨ Q t := by
  intro n
  induction n with
  | zero => intro s t hs h; simp [burst] at h; subst h; exact .inl hs
  | succ n ih =>
    intro s t hs h
    unfold burst at h
    split at h
    · rename_i u hu
      split at h
      · simp only [Host.Outcome.next.injEq] at h; subst h
        rcases hP s u hs hu with h | h
        · exact .inl h
        · exact .inr h.1
      · rename_i hr
        rcases hP s u hs hu with h' | h'
        · exact ih u t h' h
        · simp [rests, h'.2] at hr
    · simp at h
    · simp at h

theorem burst_fault {p : Code} {P : State → Prop} {f : Fault} (hP : ∀ s t, P s → atom p s = .next t → rests p s t = false → P t) (hf : ∀ s, P s → atom p s = .fault f → f = .unwrittenRead) :
    ∀ (n : Nat) (s : State), P s → burst p n s = .fault f → f = .unwrittenRead := by
  intro n
  induction n with
  | zero => intro s hs h; simp [burst] at h
  | succ n ih =>
    intro s hs h
    unfold burst at h
    split at h
    · rename_i u hu
      split at h
      · simp at h
      · rename_i hr
        exact ih u (hP s u hs hu (by simpa using hr)) h
    · rename_i g hg; simp at h; subst h; exact hf s hs hg
    · simp at h

/-- How a step from `s` to `t` comes about. -/
theorem step_cases {s t : State} (h : step s = .next t) : s.cfg.ok = true ∧
    ((t = s ∧ s.env = []) ∨
     (∃ e, t = {s with env := e}) ∨
     (∃ i u e, s.op = some i ∧ (∃ e0, exec i {s with env := e0} = .next u) ∧ t = {u with env := e} ) ∨
     (∃ i e r, s.op = some i ∧ s.hold = .free ∧ s.env = e :: r ∧ atom (program s.cfg i) {s with env := r} = .next t) ∨
     (∃ o k r, s.hold = .bus o k ∧ t = completeXfer o k {s with env := r}) ∨
     (∃ r, s.hold = .timer ∧ t = completeDelay {s with env := r}) ∨
     (∃ r, s.busy = true ∧ t = overrun {s with env := r}) ∨
     (∃ w r, s.busy = false ∧ t = accept w {s with env := r}) ∨
     (∃ i : Fin 128, ∃ b r, s.busy = false ∧ t = {s with env := r, dataIn := writeCell s.dataIn i b}) ∨
     (∃ x r, t = {s with env := r, hostData := x}) ∨
     (∃ r, s.env.head? = some .blockReset ∧ t = blockReset {s with env := r})) := by
  unfold step at h
  split at h
  · rename_i hc
    refine ⟨hc, ?_⟩
    split at h
    · rename_i he
      unfold undisturbed at h
      split at h
      · simp only [Host.Outcome.next.injEq] at h; exact .inl ⟨h.symm, he⟩
      · rename_i i hi
        refine .inr (.inr (.inl ⟨i, t, t.env, hi, ⟨s.env, h⟩, rfl⟩))
    · rename_i e r he
      cases e with
      | go =>
        simp only [deliver, sequencerStep] at h
        split at h
        · rename_i i hop hh
          exact .inr (.inr (.inr (.inl ⟨i, _, r, hop, hh, he, h⟩)))
        · simp only [Host.Outcome.next.injEq] at h; exact .inr (.inl ⟨r, h.symm⟩)
      | busDone =>
        simp only [deliver, busAgent] at h
        split at h <;> simp only [Host.Outcome.next.injEq] at h <;> subst h
        · rename_i o k hh; exact .inr (.inr (.inr (.inr (.inl ⟨o, k, r, hh, rfl⟩))))
        · exact .inr (.inl ⟨r, rfl⟩)
        · exact .inr (.inl ⟨r, rfl⟩)
      | timerDone =>
        simp only [deliver, timerAgent] at h
        split at h <;> simp only [Host.Outcome.next.injEq] at h <;> subst h
        · rename_i hh; exact .inr (.inr (.inr (.inr (.inr (.inl ⟨r, hh, rfl⟩)))))
        · exact .inr (.inl ⟨r, rfl⟩)
        · exact .inr (.inl ⟨r, rfl⟩)
      | hostWriteCmd w =>
        simp only [deliver, hostWriteCmd] at h
        split at h <;> simp only [Host.Outcome.next.injEq] at h <;> subst h <;> rename_i hb
        · exact .inr (.inr (.inr (.inr (.inr (.inr (.inl ⟨r, hb, rfl⟩))))))
        · exact .inr (.inr (.inr (.inr (.inr (.inr (.inr (.inl ⟨w, r, by simpa using hb, rfl⟩)))))))
      | hostWriteData i b =>
        simp only [deliver, hostWriteData] at h
        split at h <;> simp only [Host.Outcome.next.injEq] at h <;> subst h <;> rename_i hb
        · exact .inr (.inr (.inr (.inr (.inr (.inr (.inl ⟨r, hb, rfl⟩))))))
        · exact .inr (.inr (.inr (.inr (.inr (.inr (.inr (.inr (.inl ⟨i, b, r, by simpa using hb, rfl⟩))))))))
      | hostWriteOutput i w => simp only [deliver, Host.Outcome.next.injEq] at h; exact .inr (.inl ⟨r, h.symm⟩)
      | hostRead p =>
        simp only [deliver, hostRead] at h
        split at h <;> simp at h
        exact .inr (.inr (.inr (.inr (.inr (.inr (.inr (.inr (.inr (.inl ⟨_, r, h.symm⟩)))))))))
      | hostAwaitIdle =>
        simp only [deliver] at h
        split at h
        · obtain ⟨u, hu, rfl⟩ := onNext_inv h
          unfold undisturbed at hu
          split at hu
          · simp only [Host.Outcome.next.injEq] at hu; subst hu; exact .inr (.inl ⟨_, rfl⟩)
          · rename_i i hi
            exact .inr (.inr (.inl ⟨i, u, _, hi, ⟨r, hu⟩, rfl⟩))
        · simp only [Host.Outcome.next.injEq] at h; exact .inr (.inl ⟨r, h.symm⟩)
      | blockReset =>
        simp only [deliver, Host.Outcome.next.injEq] at h
        exact .inr (.inr (.inr (.inr (.inr (.inr (.inr (.inr (.inr (.inr ⟨r, by simp [he], h.symm⟩)))))))))
  · simp at h

/-- An invariant kept by every kind of move is kept by every step. -/
theorem step_keeps {P : State → Prop} {s t : State} (hs : P s) (h : step s = .next t)
    (henv : ∀ u e x, P u → P {u with env := e, hostData := x})
    (hatom : ∀ u w i, P u → u.op = some i → atom (program u.cfg i) u = .next w → P w)
    (hbus : ∀ u o k, P u → u.hold = .bus o k → P (completeXfer o k u))
    (htim : ∀ u, P u → u.hold = .timer → P (completeDelay u))
    (hov : ∀ u, P u → P (overrun u))
    (hacc : ∀ u w, P u → u.busy = false → P (accept w u))
    (hdat : ∀ u (i : Fin 128) b, P u → P {u with dataIn := writeCell u.dataIn i b})
    (hres : ∀ u, P u → P (blockReset u)) : P t := by
  have he : ∀ e, P {s with env := e} := fun e => henv s e s.hostData hs
  obtain ⟨_, ⟨rfl, _⟩ | ⟨e, rfl⟩ | ⟨i, u, e, hop, ⟨e0, hu⟩, rfl⟩ | ⟨i, e, r, hop, hh, henv', ha⟩ | ⟨o, k, r, hh, rfl⟩ | ⟨r, hh, rfl⟩ | ⟨r, hb, rfl⟩ | ⟨w, r, hb, rfl⟩ | ⟨i, b, r, hb, rfl⟩ | ⟨x, r, rfl⟩ | ⟨r, hr, rfl⟩⟩ := step_cases h
  · exact hs
  · exact he e
  · rw [exec_eq_perform] at hu
    have key := burst_until (p := program s.cfg i) (P := fun v => P v ∧ v.op = some i ∧ v.cfg = s.cfg) (Q := P) (fun a b ha hab => by
      have hcfg : b.cfg = s.cfg := (atom_frame hab).2.2.2.1.trans ha.2.2
      have hP : P b := hatom a b i ha.1 ha.2.1 (by rw [ha.2.2]; exact hab)
      have hop : b.op = some i ∨ b.op = none := by
        obtain ⟨o, k, _, rfl⟩ | ⟨_, rfl⟩ | ⟨_, m, hm, _, he⟩ | ⟨_, _, rfl⟩ := atom_cases hab
        · exact .inl ha.2.1
        · exact .inl ha.2.1
        · rcases (execMicro_frame he).goes with g | g
          · exact .inl (g.1.trans ha.2.1)
          · exact .inr g.1
        · exact .inl ha.2.1
      rcases hop with h | h
      · exact .inl ⟨hP, h, hcfg⟩
      · exact .inr ⟨hP, h⟩) _ _ _ ⟨he e0, hop, rfl⟩ hu
    have : P u := key.elim (·.1) id
    exact henv u e u.hostData this
  · exact hatom _ _ i (he r) hop ha
  · exact hbus _ _ _ (he r) hh
  · exact htim _ (he r) hh
  · exact hov _ (he r)
  · exact hacc _ _ (he r) hb
  · exact hdat _ i b (he r)
  · exact henv s r x hs
  · exact hres _ (he r)

theorem BusInv.at {s : State} {i : Instr} (h : BusInv s) (hop : s.op = some i) : At (program s.cfg i) s :=
  ⟨h.shape, h.closed, h.fits i hop, h.held i hop, h.seqUsed i hop⟩

theorem BusInv.of_at {s : State} {i : Instr} (hop : s.op = some i) (hb : s.busy = true) (h : At (program s.cfg i) s) : BusInv s :=
  ⟨h.shape, h.closed, by rw [hop, hb]; rfl, by simp [hop], fun j hj => by rw [hop] at hj; simp at hj; subst hj; exact h.fits, fun j hj => by rw [hop] at hj; simp at hj; subst hj; exact h.held, fun j hj => by rw [hop] at hj; simp at hj; subst hj; exact h.used⟩

theorem BusInv.of_rest {s : State} (hop : s.op = none) (hb : s.busy = false) (h : AtRest s) : BusInv s :=
  ⟨by rw [h.shape]; simp [stateShape, h.cs], fun _ => h.xfers, by rw [hop, hb]; rfl, fun _ => ⟨h.cs, h.hold⟩, by simp [hop], by simp [hop], by simp [hop]⟩

/-- phases -/
theorem micro_fault {p : Code} {s : State} {m : Micro} {f : Fault} (hp : Sound p) (h : At p s) (hm : p[s.seq]? = some m) (he : execMicro m s = .fault f) : f = .unwrittenRead := by
  obtain ⟨r, hr⟩ := phaseAt_defined hp.ends (k := s.seq + 1) (by have := h.used; omega)
  have hph := phaseAt_succ hm h.fits
  rw [hr] at hph
  cases m <;> simp only [execMicro] at he
  case checks c => cases c <;> simp only [checks] at he <;> (repeat' split at he) <;> simp at he <;> exact he.symm
  case select =>
    unfold select at he
    split at he
    · rename_i hcs
      simp [statePhase, hcs, microPhase] at hph
    · simp [onNext] at he
  case deselect =>
    unfold deselect at he
    split at he
    · simp [onNext] at he
    · rename_i hc
      unfold statePhase at hph
      split at hph
      · rename_i hcs
        simp only [hcs, Bool.true_and, beq_iff_eq] at hc
        rcases hx : s.xfers with _ | _ | _ | n <;> simp [hx, microPhase] at hph hc
      · simp [microPhase] at hph
  case xferDrop x =>
    unfold startXfer at he
    split at he
    · split at he <;> simp at he; exact he.symm
    · rename_i hc
      unfold statePhase at hph
      split at hph
      · rename_i hcs
        simp only [hcs, Bool.true_and, decide_eq_true_eq] at hc
        rcases hx : s.xfers with _ | _ | n <;> simp [hx, microPhase] at hph hc
      · simp [microPhase] at hph
  case xferKeep x =>
    unfold startXfer at he
    split at he
    · split at he <;> simp at he; exact he.symm
    · rename_i hc
      unfold statePhase at hph
      split at hph
      · rename_i hcs
        simp only [hcs, Bool.true_and, decide_eq_true_eq] at hc
        rcases hx : s.xfers with _ | _ | n <;> simp [hx, microPhase] at hph hc
      · simp [microPhase] at hph
  case unlock => simp [unlockBody, setOutputs, onNext] at he
  case lock => simp [lockBody, setOutputs, onNext] at he
  all_goals (repeat' split at he) <;> simp at he <;> exact he.symm

theorem atom_fault {p : Code} {s : State} {f : Fault} (hp : Sound p) (h : At p s) (ha : atom p s = .fault f) : f = .unwrittenRead := by
  unfold atom at ha
  split at ha
  · simp at ha
  · simp at ha
  · split at ha
    · exact micro_fault hp h (by assumption) ha
    · simp at ha

end Sys2Proof.Machine
end

