-- ==== Sys2Proof/Tests/Slice0.lean ====
section
/-! SUPPORT. The model's own tests: ill-formed terms, words written out from the spec, single steps with results from
spec/95_test_vectors.md, and for every statement with hypotheses a state and operands that meet them. -/

open Sys2Proof Sys2Proof.Machine

namespace Sys2Proof.Tests

/-! ## Helpers -/

/-- What `f` reads in the next state an answer holds. -/
def after {α : Type} (r : Result) (f : State → α) : Option α :=
  match r with
  | .next t => some (f t)
  | .fault _ => none
  | .refused _ => none

/-- The fault an answer is. -/
def faultOf (r : Result) : Option Fault :=
  match r with
  | .fault x => some x
  | .next _ => none
  | .refused _ => none

theorem of_after {α : Type} {r : Result} {f : State → α} {x : α} (h : after r f = some x) : ∃ t, r = .next t ∧ f t = x := by
  cases r <;> simp [after] at h
  exact ⟨_, rfl, h⟩

theorem of_faultOf {r : Result} {x : Fault} (h : faultOf r = some x) : r = .fault x := by
  cases r <;> simp [faultOf] at h
  rw [h]

/-- Operation `i` just begun under parameters `c`; the reader answers `l`. -/
def started (c : Params) (i : Instr) (l : List Byte) : State :=
  { State.initial c with op := some i, busy := true, answers := l }

theorem started_ready (c : Params) (i : Instr) (l : List Byte) : Ready i (started c i l) := ⟨rfl, rfl, rfl, rfl, rfl⟩

/-- The second bytes of transactions, with 0x55 received for every frame. -/
def ans (vs : List Byte) : List (Byte × Byte) := vs.map fun v => (0x55#8, v)

/-- Zeros received in `n` write transactions. -/
def zeros (n : Nat) : List (Byte × Byte) := List.replicate n (0x00#8, 0x00#8)

theorem zeros_length (n : Nat) : (zeros n).length = n := List.length_replicate

theorem prologue_length {c : Params} {f : Byte} {l : List Byte} (h : c.clearIrqBeforeIssue = false)
    (h' : c.startSendAfterIssue = false) : (prologueTxns c f l).length = l.length + 4 := by
  simp [prologueTxns, h, h']

theorem pre_length {c : Params} {f : Byte} {l : List Byte} {n : Nat} (h : c.clearIrqBeforeIssue = false)
    (h' : c.startSendAfterIssue = false) (hn : n = l.length + 4) : (zeros n).length = (prologueTxns c f l).length := by
  rw [zeros_length, prologue_length h h', hn]

theorem misses_one {a m : Byte} (h : anyBit a m = false) : ∀ p ∈ ans [a], anyBit p.2 m = false := by
  intro p hp
  simp [ans] at hp
  rw [hp]
  exact h

theorem misses_two {a b m : Byte} (h : anyBit a m = false) (h' : anyBit b m = false) :
    ∀ p ∈ ans [a, b], anyBit p.2 m = false := by
  intro p hp
  simp [ans] at hp
  obtain rfl | rfl := hp
  · exact h
  · exact h'

/-- Two polls at most. -/
def quick : Params := { Params.default with pollMaxCom := 2, pollMaxDiv := 2 }

/-- The host may not drive the actuator. -/
def guarded : Params := { Params.default with hostActuatorOps := false }

def env (e : Stimulus) (s : State) : State := { s with env := [e] }

/-! ## Ill-formed terms -/

theorem test_wf_crc_len : Instr.wellFormed (.calcCrc 127) = true ∧ Instr.wellFormed (.calcCrc 128) = false := by decide

theorem test_wf_others : Instr.wellFormed (.readReg 0x3F#6) = true ∧ Instr.wellFormed .reservedRsv31 = true := by decide

/-- R9, one bad configuration for each check. -/
theorem test_params_refused :
    Params.default.ok = true ∧
    Params.uidLenOk { Params.default with uidLen := 3 } = false ∧
    Params.readLenOk { Params.default with uidLen := 5, anticollReadLen := 4 } = false ∧
    Params.whitelistOk { Params.default with whitelist := [[0x19#8, 0x03#8, 0x56#8]] } = false ∧
    Params.regsDistinct { Params.default with regVersion := 0x01#6 } = false ∧
    Params.pollBoundsOk { Params.default with pollMaxCom := 0 } = false ∧
    Params.pollBoundsOk { Params.default with pollMaxDiv := 65536 } = false ∧
    Params.crcLenOk { Params.default with crcMaxLen := 128 } = false := by decide

/-! ## Decoding (95 §2.1, §2.2; R96, R100, R103, R105) -/

theorem test_decode_en1 : decodeCommand 0x00000371#32 = .readReg 0x37#6 := by decide
theorem test_decode_en2 : decodeCommand 0x00020D42#32 = .writeReg 0x14#6 0x83#8 := by decide
theorem test_decode_en3 : decodeCommand 0x00009805#32 = .request 0x26#8 := by decide
theorem test_decode_en4 : decodeCommand 0x00080007#32 = .calcCrc 2 := by decide
theorem test_decode_en5 : decodeCommand 0x01FFFFF3#32 = .resetReader := by decide
theorem test_decode_en6 : decodeCommand 0x02000001#32 = .reservedRsv25 := by decide
theorem test_decode_en7_en8 :
    decodeCommand 0x00000000#32 = .reservedOp0 ∧ decodeCommand 0x0000000D#32 = .reservedOpD ∧
    decodeCommand 0x0000000E#32 = .reservedOpE ∧ decodeCommand 0x0000000F#32 = .reservedOpF := by decide
theorem test_decode_en9_to_en11 :
    decodeCommand 0x01900007#32 = .calcCrc 100 ∧ decodeCommand 0x01040007#32 = .calcCrc 65 ∧
    decodeCommand 0x01000007#32 = .calcCrc 64 := by decide
theorem test_decode_en12_en13 :
    decodeCommand 0x00000009#32 = .unlock ∧ decodeCommand 0x02000009#32 = .reservedRsv25 := by decide

/-- The canonical words in the operations' own rules. -/
theorem test_decode_plain :
    decodeCommand 0x00000003#32 = .resetReader ∧ decodeCommand 0x00000004#32 = .antennaOn ∧
    decodeCommand 0x00000006#32 = .anticoll ∧ decodeCommand 0x00000008#32 = .compareUid ∧
    decodeCommand 0x0000000A#32 = .lock ∧ decodeCommand 0x0000000B#32 = .pollCycle ∧
    decodeCommand 0x0000000C#32 = .run := by decide

/-- One word for each reserved bit, bit by bit. -/
theorem test_decode_rsv :
    decodeCommand 0x04000001#32 = .reservedRsv26 ∧ decodeCommand 0x08000001#32 = .reservedRsv27 ∧
    decodeCommand 0x10000001#32 = .reservedRsv28 ∧ decodeCommand 0x20000001#32 = .reservedRsv29 ∧
    decodeCommand 0x40000001#32 = .reservedRsv30 ∧ decodeCommand 0x80000001#32 = .reservedRsv31 := by decide

/-- Frames of 95 §2.2. -/
theorem test_frames :
    frame 0x00#6 true = 0x80#8 ∧ frame 0x00#6 false = 0x00#8 ∧ frame 0x01#6 true = 0x82#8 ∧ frame 0x01#6 false = 0x02#8 ∧
    frame 0x04#6 true = 0x88#8 ∧ frame 0x04#6 false = 0x08#8 ∧ frame 0x14#6 true = 0xA8#8 ∧ frame 0x21#6 true = 0xC2#8 ∧
    frame 0x22#6 true = 0xC4#8 ∧ frame 0x37#6 true = 0xEE#8 ∧ frame 0x3F#6 true = 0xFE#8 ∧
    frame 0x3F#6 false = 0x7E#8 := by decide

theorem test_decode_frames :
    decodeFrame 0x88#8 = .ok (.frameRead 0x04#6) ∧ decodeFrame 0x7E#8 = .ok (.frameWrite 0x3F#6) ∧
    decodeFrame 0x81#8 = .error .oddFrame := by decide

theorem test_decode_chip :
    decodeChipCommand Params.default 0x00#8 = .ok .chipIdle ∧ decodeChipCommand Params.default 0x03#8 = .ok .chipCalcCrc ∧
    decodeChipCommand Params.default 0x0C#8 = .ok .chipTransceive ∧
    decodeChipCommand Params.default 0x0F#8 = .ok .chipSoftReset ∧
    decodeChipCommand Params.default 0x1C#8 = .error .unknownChipCommand := by decide

theorem test_decode_card :
    decodeCardByte Params.default 0x26#8 = .ok .cardReqa ∧ decodeCardByte Params.default 0x93#8 = .ok .cardAnticollCl1 ∧
    decodeCardByte Params.default 0x20#8 = .ok .cardNvb ∧
    decodeCardByte Params.default 0x94#8 = .error .unknownCardByte := by decide

theorem test_encode :
    encode Params.default (.readReg 0x37#6) = 0x00000371#32 ∧
    encode Params.default (.writeReg 0x14#6 0x83#8) = 0x00020D42#32 ∧
    encode Params.default (.request 0x26#8) = 0x00009805#32 ∧ encode Params.default (.calcCrc 2) = 0x00080007#32 ∧
    encode Params.default .resetReader = 0x00000003#32 := by decide

/-! ## Single operations (95 §2.3 to §2.10) -/

/-- RW-5: the byte received with the frame is dropped. -/
theorem test_read_reg :
    after (exec (.readReg 0x14#6) (started Params.default (.readReg 0x14#6) [0x55#8, 0x83#8])) (fun t => (t.rdata, t.busy)) =
      some (some 0x83#8, false) := by decide +kernel

/-- RW-3. -/
theorem test_write_reg :
    after (exec (.writeReg 0x3F#6 0xFF#8) (started Params.default (.writeReg 0x3F#6 0xFF#8) [0x01#8, 0x02#8]))
      (fun t => (t.trace, t.rdata, t.respLen)) =
    some ([.sel, .xfer 0x7E#8 0x01#8, .xfer 0xFF#8 0x02#8, .desel, .opDone .ok], none, 0#3) := by decide +kernel

/-- RS-1. -/
theorem test_reset_reader :
    after (exec .resetReader (started Params.default .resetReader [0x00#8, 0x00#8])) (fun t => (t.trace, t.lockState)) =
    some ([.sel, .xfer 0x02#8 0x00#8, .xfer 0x0F#8 0x00#8, .desel, .delay 50, .opDone .ok], .locked) := by decide +kernel

/-- AN-1. -/
theorem test_antenna_writes :
    after (exec .antennaOn (started Params.default .antennaOn (flatPairs (ans [0x80#8, 0x00#8])))) (fun t => txns t.trace) =
    some [.read 0x14#6 0x80#8, .write 0x14#6 0x83#8] := by decide +kernel

/-- AN-5. -/
theorem test_antenna_one_bit :
    after (exec .antennaOn (started Params.default .antennaOn (flatPairs (ans [0x02#8, 0x00#8])))) (fun t => txns t.trace) =
    some [.read 0x14#6 0x02#8] := by decide +kernel

/-- RQ-9. -/
theorem test_request_options :
    after (exec (.request 0x26#8)
      (started { Params.default with clearIrqBeforeIssue := true, startSendAfterIssue := true } (.request 0x26#8)
        (flatPairs (zeros 7 ++ ans [0x30#8, 0x00#8, 0x04#8, 0x00#8]))))
      (fun t => ((txns t.trace).take 7, (txns t.trace).length, t.respLen)) =
    some ([.write 0x01#6 0x00#8, .write 0x04#6 0x7F#8, .write 0x0A#6 0x80#8, .write 0x0D#6 0x07#8, .write 0x09#6 0x26#8,
      .write 0x01#6 0x0C#8, .write 0x0D#6 0x87#8], 11, 2#3) := by decide +kernel

/-- RQ-3 with the bound of PO-8: one read, no delay, TIMEOUT, the error register not read. -/
theorem test_request_timeout :
    after (exec (.request 0x26#8) (started { Params.default with pollMaxCom := 1 } (.request 0x26#8) (flatPairs (zeros 6))))
      (fun t => (t.status, t.polls, (txns t.trace).length, delays t.trace)) = some (.timeout, 1#16, 6, []) := by
  decide +kernel

/-- AC-1. -/
theorem test_anticoll :
    after (exec .anticoll (started Params.default .anticoll
      (flatPairs (zeros 6 ++ ans [0x30#8, 0x00#8, 0x19#8, 0x03#8, 0x56#8, 0x73#8, 0x3F#8]))))
      (fun t => (t.resp.toList, t.respLen, (txns t.trace).length)) =
    some ([some 0x19#8, some 0x03#8, some 0x56#8, some 0x73#8, some 0x3F#8], 5#3, 13) := by decide +kernel

/-- AC-3. -/
theorem test_anticoll_chip_fault :
    after (exec .anticoll (started Params.default .anticoll (flatPairs (zeros 6 ++ ans [0x30#8, 0x08#8]))))
      (fun t => (t.status, t.rdata, (txns t.trace).length)) = some (.chipFault, some 0x08#8, 8) := by decide +kernel

/-- CR-1. -/
theorem test_calc_crc :
    after (exec (.calcCrc 2) { started Params.default (.calcCrc 2)
      (flatPairs (zeros 5 ++ ans [0x00#8, 0x04#8, 0xA1#8, 0xB2#8])) with dataIn := [(0, 0x93#8), (1, 0x20#8)] })
      (fun t => (t.resp.toList.take 2, t.polls, (txns t.trace).drop 2, delays t.trace)) =
    some ([some 0xA1#8, some 0xB2#8], 2#16,
      [.write 0x09#6 0x93#8, .write 0x09#6 0x20#8, .write 0x01#6 0x03#8, .read 0x05#6 0x00#8, .read 0x05#6 0x04#8,
        .read 0x22#6 0xA1#8, .read 0x21#6 0xB2#8], []) := by decide +kernel

/-- CR-4. -/
theorem test_calc_crc_unwritten :
    faultOf (exec (.calcCrc 3) { started Params.default (.calcCrc 3) [] with dataIn := [(0, 0x93#8), (1, 0x20#8)] }) =
    some .unwrittenRead := by decide +kernel

/-- CU-1 and CU-2. -/
theorem test_compare_uid :
    after (exec .compareUid { started Params.default .compareUid [] with
      dataIn := [(0, 0x19#8), (1, 0x03#8), (2, 0x56#8), (3, 0x73#8)] }) (fun t => t.rdata) = some (some 0x01#8) ∧
    after (exec .compareUid { started Params.default .compareUid [] with
      dataIn := [(0, 0x19#8), (1, 0x03#8), (2, 0x56#8), (3, 0x72#8)] }) (fun t => t.rdata) = some (some 0x00#8) := by
  decide +kernel

/-- CU-6: the second entry. -/
theorem test_compare_uid_second :
    uidMatches 4 [0xAA#8, 0xBB#8, 0xCC#8, 0xDD#8]
      [[0x19#8, 0x03#8, 0x56#8, 0x73#8], [0xAA#8, 0xBB#8, 0xCC#8, 0xDD#8]] = true := by decide

/-- LK-1. -/
theorem test_unlock :
    after (exec .unlock (started Params.default .unlock []))
      (fun t => (t.lockOut, t.unlockOut, t.lockState, outs t.trace)) = some (false, true, .unlocked, [(false, true)]) := by
  decide +kernel

/-- LK-3. -/
theorem test_lock :
    after (exec .lock (started Params.default .lock [])) (fun t => (t.lockOut, t.unlockOut, t.lockState, outs t.trace)) =
    some (true, false, .locked, [(true, false)]) := by decide +kernel

/-- LK-5. -/
theorem test_unlock_disabled :
    after (exec .unlock (started guarded .unlock [])) (fun t => (t.status, t.lockState, outs t.trace)) =
    some (.disabled, .locked, []) := by decide +kernel

/-- The answers of scenario 1. -/
def card (uid : List Byte) : List Byte :=
  flatPairs (zeros 5 ++ ans [0x30#8, 0x00#8, 0x04#8, 0x00#8] ++ zeros 6 ++ ans ([0x30#8, 0x00#8] ++ uid))

/-- PC-1. -/
theorem test_poll_cycle_granted :
    after (exec .pollCycle (started Params.default .pollCycle (card [0x19#8, 0x03#8, 0x56#8, 0x73#8, 0x3F#8])))
      (fun t => (t.rdata, diags t.trace, outs t.trace, delays t.trace)) =
    some (some 0x02#8, [.cardDetected, .uid [0x19#8, 0x03#8, 0x56#8, 0x73#8], .granted], [(false, true), (true, false)],
      [5000, 1000]) := by decide +kernel

/-- PC-2. -/
theorem test_poll_cycle_denied :
    after (exec .pollCycle (started Params.default .pollCycle (card [0x00#8, 0x00#8, 0x00#8, 0x00#8, 0x00#8])))
      (fun t => (t.rdata, diags t.trace, outs t.trace, (txns t.trace).length)) =
    some (some 0x03#8, [.cardDetected, .uid [0x00#8, 0x00#8, 0x00#8, 0x00#8], .denied], [], 22) := by
  decide +kernel

/-- P4 with the bound of PO-8: a first cycle of RUN without a card, and the machine is still running. -/
theorem test_run_round :
    after (exec .run (started { Params.default with pollMaxCom := 1 } .run (flatPairs (zeros 6))))
      (fun t => ((txns t.trace).length, delays t.trace, t.busy, t.op)) = some (6, [1000], true, some .run) := by
  decide +kernel

/-- The word 0x0000000D: BAD_OP. -/
theorem test_bad_op :
    after (exec .reservedOpD (started Params.default .reservedOpD [])) (fun t => (t.status, t.trace)) =
    some (.badOp, [.opDone .badOp]) := by decide +kernel

/-- The transaction a read frame opens: S-3's frame of 0x04. -/
theorem test_frame_read :
    after (exec (.frameRead 0x04#6) (started Params.default (.frameRead 0x04#6) [0x55#8, 0x30#8])) (fun t => t.trace) =
    some [.sel, .xfer 0x88#8 0x55#8, .xfer 0x00#8 0x30#8, .desel] := by decide +kernel

/-- S-1 and S-2: the FIFO bytes 0x26 and 0x93. -/
theorem test_card_bytes :
    after (exec .cardReqa (started Params.default .cardReqa [0x00#8, 0x00#8])) (fun t => txns t.trace) =
      some [.write 0x09#6 0x26#8] ∧
    after (exec .cardAnticollCl1 (started Params.default .cardAnticollCl1 [0x00#8, 0x00#8])) (fun t => txns t.trace) =
      some [.write 0x09#6 0x93#8] := by decide +kernel

/-- PT-1 and PT-6: an early `CMD` write, and `STAT` while busy. -/
theorem test_port_busy :
    after (step (env (.hostWriteCmd 0x0000000B#32) (started Params.default .run []))) (fun t => (t.overrun, t.trace, t.op)) =
      some (true, [.overrun], some .run) ∧
    after (step (env (.hostRead .stat) (started Params.default .run []))) (fun t => t.hostData) = some (some 0x0001#16) := by
  decide +kernel

/-- PT-3 and PT-5. -/
theorem test_port_faults :
    faultOf (step (env (.hostRead .rdata) State.reset)) = some .unwrittenRead ∧
    faultOf (step (env (.hostRead .polls) (started Params.default .run []))) = some .unwrittenRead := by decide +kernel

/-- PT-7: block reset during the dwell. -/
theorem test_block_reset :
    after (step (env .blockReset { started Params.default .run [] with
      seq := 100, hold := .timer, lockOut := false, unlockOut := true, lockState := .unlocked, trace := [.delay 5000] }))
      (fun t => (t.lockOut, t.unlockOut, t.lockState, t.trace)) = some (true, false, .locked, []) := by decide +kernel

/-! ## Witnesses: hypotheses that can be met, clause by clause -/

theorem test_witness_decoding_undoes_encoding :
    Instr.wellFormed (.calcCrc 127) = true ∧ encodeFormat (.calcCrc 127) = .command ∧
    Instr.wellFormed (.frameWrite 0x3F#6) = true ∧ encodeFormat (.frameWrite 0x3F#6) = .busFrame ∧
    Instr.wellFormed .chipIdle = true ∧ Instr.wellFormed .cardNvb = true ∧
    [Params.default.cmdIdle, Params.default.cmdCalcCrc, Params.default.cmdTransceive, Params.default.cmdSoftReset].Nodup ∧
    [Params.default.reqMode, Params.default.piccAnticoll, Params.default.nvbAnticoll].Nodup := by decide

/-- A word for each of the twelve codes, all other used and unused fields set. -/
theorem test_witness_operation_codes :
    (∀ o ∈ [0x1#4, 0x2#4, 0x3#4, 0x4#4, 0x5#4, 0x6#4, 0x7#4, 0x8#4, 0x9#4, 0xA#4, 0xB#4, 0xC#4],
      rsvField (0x01FFFFF0#32 ||| o.setWidth 32) = 0#7 ∧ opField (0x01FFFFF0#32 ||| o.setWidth 32) = o) := by decide

theorem test_witness_reserved_words :
    rsvField 0x02000001#32 ≠ 0#7 ∧ rsvField 0x80000001#32 ≠ 0#7 ∧ opField 0x00000000#32 = 0x0#4 ∧
    opField 0x0000000D#32 = 0xD#4 ∧ opField 0x0000000E#32 = 0xE#4 ∧ opField 0x0000000F#32 = 0xF#4 := by decide

theorem test_witness_canonical_word :
    (decodeCommand 0x00000371#32).isOperation = true ∧ (decodeCommand 0x01FFFFF3#32).isOperation = true ∧
    0x00000371#32 &&& usedBits (opField 0x00000371#32) = 0x00000371#32 ∧
    0x01FFFFF3#32 &&& usedBits (opField 0x01FFFFF3#32) ≠ 0x01FFFFF3#32 := by decide

theorem test_witness_ignored_fields :
    (decodeCommand 0x00000003#32).isOperation = true ∧ rsvField 0x01FFFFF3#32 = 0#7 ∧
    0x01FFFFF3#32 &&& usedBits (opField 0x00000003#32) = 0x00000003#32 &&& usedBits (opField 0x00000003#32) := by decide

theorem test_witness_frame_bytes : (0xFE#8).getLsbD 0 = false ∧ (0x01#8).getLsbD 0 = true := by decide

/-- One state for each clause. -/
theorem test_witness_step :
    (started Params.default .antennaOn []).cfg.ok = true ∧ (started Params.default .antennaOn []).env = [] ∧
    (started Params.default .antennaOn []).op = some .antennaOn ∧
    State.reset.cfg.ok = true ∧ State.reset.env = [] ∧ State.reset.op = none ∧ State.reset.busy = false ∧
    (env .go (started Params.default .lock [])).env = .go :: [] ∧ (env .go (started Params.default .lock [])).hold = .free ∧
    (env (.hostWriteCmd 0x00000004#32) State.reset).env = .hostWriteCmd 0x00000004#32 :: [] ∧
    State.reset.cs = false ∧ State.reset.xfers = 0 ∧
    decodeTableWord 32 0x00000004 = some .antennaOn ∧ decodeTableWord 8 0x88 = some (.frameRead 0x04#6) ∧
    (State.initial { Params.default with uidLen := 3 }).cfg.ok = false := by decide +kernel

/-- Idle, busy with either write, and a set `OVERRUN`. -/
theorem test_witness_acceptance :
    (env (.hostWriteCmd 0x00000004#32) State.reset).busy = false ∧
    (env (.hostWriteCmd 0x00000004#32) (started Params.default .run [])).busy = true ∧
    (env (.hostWriteData 127 0xFF#8) (started Params.default .run [])).busy = true ∧
    ∃ t, step { started Params.default .lock [] with overrun := true } = .next t ∧ t.overrun = true := by
  refine ⟨rfl, rfl, rfl, ?_⟩
  exact of_after (f := fun t => t.overrun) (x := true) (by decide +kernel)

theorem test_witness_result_reads :
    (started Params.default .run []).cfg.ok = true ∧ (started Params.default .run []).busy = true ∧
    (env (.hostRead (.resp 4)) (started Params.default .run [])).env = .hostRead (.resp 4) :: [] := by decide

/-- Every clause of a host read: with a value, without one, and `RESP` at `RESP_LEN`. -/
theorem test_witness_host_reads :
    after (step (env (.hostRead .rdata) { State.reset with rdata := some 0x92#8 })) (fun t => t.hostData) =
      some (some 0x0092#16) ∧
    after (step (env (.hostRead .respLen) State.reset)) (fun t => t.hostData) = some (some 0x0000#16) ∧
    after (step (env (.hostRead .polls) { State.reset with polls := 200#16 })) (fun t => t.hostData) =
      some (some 0x00C8#16) ∧
    after (step (env (.hostRead (.resp 1)) { State.reset with resp := #v[none, some 0xBB#8, some 0xCC#8, none, none], respLen := 2#3 }))
      (fun t => t.hostData) = some (some 0x00BB#16) ∧
    faultOf (step (env (.hostRead (.resp 2)) { State.reset with resp := #v[none, some 0xBB#8, some 0xCC#8, none, none], respLen := 2#3 })) =
      some .unwrittenRead ∧
    after (step (env (.hostRead (.dataIn 127)) { State.reset with dataIn := [(127, 0x11#8)] })) (fun t => t.hostData) =
      some (some 0x0011#16) ∧
    faultOf (step (env (.hostRead (.dataIn 0)) { State.reset with dataIn := [(127, 0x11#8)] })) = some .unwrittenRead := by
  decide +kernel

/-- `DATA_IN` read while busy (R22, R38): a byte the host has written, and one it has not. -/
theorem test_witness_host_reads_busy :
    after (step (env (.hostRead (.dataIn 127)) { started Params.default .run [] with dataIn := [(127, 0x11#8)] }))
      (fun t => t.hostData) = some (some 0x0011#16) ∧
    faultOf (step (env (.hostRead (.dataIn 126)) { started Params.default .run [] with dataIn := [(127, 0x11#8)] })) =
      some .unwrittenRead := by decide +kernel

theorem test_witness_host_writes :
    after (step (env (.hostWriteData 127 0x11#8) State.reset)) (fun t => t.dataIn) = some [(127, 0x11#8)] ∧
    after (step (env (.hostWriteData 0 0x22#8) { State.reset with dataIn := [(127, 0x11#8)] })) (fun t => t.dataIn) =
      some [(0, 0x22#8), (127, 0x11#8)] ∧
    after (step (env (.hostWriteOutput 8 0xFFFFFFFF#32) State.reset)) (fun t => t.resp.toList) =
      some [none, none, none, none, none] := by decide +kernel

/-- READ_REG 0x37 waiting for its first byte. -/
def waiting (l : List Byte) : State :=
  { started Params.default (.readReg 0x37#6) l with seq := 2, cs := true, trace := [.sel], hold := .bus 0xEE#8 false }

/-- RESET_READER waiting for the settle delay. -/
def settling : State := { started Params.default .resetReader [] with seq := 6, hold := .timer, trace := [.delay 50] }

theorem test_witness_holds :
    after (step (env .busDone (waiting [0x55#8]))) (fun t => (t.hold, t.xfers, t.seq)) = some (.free, 1, 3) ∧
    after (step (env .busDone (waiting []))) (fun t => (t.hold, t.xfers, t.seq)) = some (.free, 1, 3) ∧
    after (step (env .timerDone settling)) (fun t => (t.hold, t.seq)) = some (.free, 6) ∧
    after (step (env .go (waiting []))) (fun t => t.seq) = some 2 ∧
    after (step (env .busDone settling)) (fun t => t.hold) = some .timer ∧
    after (step (env .timerDone (waiting []))) (fun t => t.seq) = some 2 ∧
    after (step (env (.hostRead .stat) settling)) (fun t => t.hold) = some .timer ∧
    after (step (env (.hostWriteData 0 0x00#8) settling)) (fun t => t.hold) = some .timer ∧
    after (step (env (.hostWriteCmd 0x00000003#32) settling)) (fun t => t.hold) = some .timer := by decide +kernel

theorem test_witness_block_reset : (env .blockReset settling).cfg.ok = true ∧ (env .blockReset settling).env = .blockReset :: [] := by
  decide

theorem test_witness_lock_reset : Params.default.resetUnlockOut = false := by decide

theorem test_witness_read_write_reg :
    Ready (.readReg 0x3F#6) (started Params.default (.readReg 0x3F#6) [0x55#8, 0x83#8]) ∧
    Ready (.writeReg 0x3F#6 0xFF#8) (started Params.default (.writeReg 0x3F#6 0xFF#8) [0x55#8, 0x83#8]) ∧
    Ready .resetReader (started Params.default .resetReader [0x55#8, 0x83#8]) ∧
    Ready (.frameRead 0x3F#6) (started Params.default (.frameRead 0x3F#6) [0x55#8, 0x83#8]) ∧
    Ready (.frameWrite 0x3F#6) (started Params.default (.frameWrite 0x3F#6) [0x55#8, 0x83#8]) ∧
    (started Params.default (.readReg 0x3F#6) [0x55#8, 0x83#8]).answers = 0x55#8 :: 0x83#8 :: [] :=
  ⟨started_ready .., started_ready .., started_ready .., started_ready .., started_ready .., rfl⟩

theorem test_witness_antenna :
    Ready .antennaOn (started Params.default .antennaOn [0x00#8, 0xFC#8, 0x00#8, 0x00#8]) ∧
    0xFC#8 &&& Params.default.antennaMask = 0#8 ∧ 0x01#8 &&& Params.default.antennaMask ≠ 0#8 ∧
    0x02#8 &&& Params.default.antennaMask ≠ 0#8 := ⟨started_ready .., by decide, by decide, by decide⟩

/-- A second ANTENNA_ON after AN-1 (S-12), with a write of CALC_CRC to the command register in between, the chip answering what
was written. -/
def antennaTwice : State :=
  { started Params.default .antennaOn [0x00#8, 0x83#8] with
    trace := writeEvents 0x14#6 0x83#8 0x00#8 0x00#8 ++ writeEvents 0x01#6 0x03#8 0x00#8 0x00#8 ++ [.opDone .ok] }

theorem test_witness_antenna_idempotent :
    Ready .antennaOn antennaTwice ∧ antennaTwice.cfg.ok = true ∧ antennaTwice.cfg.antennaMask ≠ 0#8 ∧
    antennaTwice.cfg.regTxControl ∈ antennaTwice.cfg.sefRegs ∧ busShape antennaTwice.trace = .idle ∧
    txns (ownEvents antennaTwice.trace) =
      [] ++ [.write antennaTwice.cfg.regTxControl (0x80#8 ||| antennaTwice.cfg.antennaMask)] ++ [.write 0x01#6 0x03#8] ∧
    (∀ t ∈ [Txn.write 0x01#6 0x03#8], t.addr ≠ antennaTwice.cfg.regTxControl ∧ t.resetsReader antennaTwice.cfg = false) ∧
    antennaTwice.answers = 0x00#8 :: 0x83#8 :: [] ∧
    Readback antennaTwice.cfg (antennaTwice.trace ++ readEvents antennaTwice.cfg antennaTwice.cfg.regTxControl 0x00#8 0x83#8) := by
  refine ⟨⟨rfl, rfl, rfl, rfl, rfl⟩, by decide, by decide, by decide, by decide, by decide, by simp; decide, rfl, ?_⟩
  intro a _ before between after V W h hb _
  have ht : txns (ownEvents (antennaTwice.trace ++
      readEvents antennaTwice.cfg antennaTwice.cfg.regTxControl 0x00#8 0x83#8)) =
    [.write 0x14#6 0x83#8, .write 0x01#6 0x03#8, .read 0x14#6 0x83#8] := by decide
  rw [ht] at h
  rcases before with _ | ⟨b, _ | ⟨b', before⟩⟩
  · rcases between with _ | ⟨c, _ | ⟨c', between⟩⟩
    · simp at h
    · simp at h; exact h.2.2.1.2.symm.trans h.1.2
    · have := congrArg List.length h; simp at this
  · rcases between with _ | ⟨c, between⟩
    · simp at h
      obtain ⟨-, ⟨rfl, -⟩, ⟨h, -⟩, -⟩ := h
      exact absurd h (by decide)
    · have := congrArg List.length h; simp at this
  · have := congrArg List.length h; simp at this; omega

/-- A soft reset of the reader ends `Readback` (I24): the command register's high bits do not count (R103). -/
theorem test_resets_reader :
    Txn.resetsReader Params.default (.write 0x01#6 0x0F#8) = true ∧ Txn.resetsReader Params.default (.write 0x01#6 0xFF#8) = true ∧
    Txn.resetsReader Params.default (.write 0x01#6 0x0C#8) = false ∧ Txn.resetsReader Params.default (.write 0x14#6 0x0F#8) = false ∧
    Txn.resetsReader Params.default (.read 0x01#6 0x0F#8) = false := by decide

/-- Exchanges of REQUEST under a bound of two polls: hit at the last poll, chip fault at the first, timeout. -/
theorem test_witness_request :
    (Exchange.ok (zeros 5) (ans [0x0F#8]) (0x00#8, 0x30#8) (0x00#8, 0x04#8) (ans [0x04#8, 0x00#8])).FitsRequest quick 0x26#8 ∧
    (Exchange.chipFault (zeros 5) [] (0x00#8, 0x10#8) (0x00#8, 0x08#8)).FitsRequest quick 0x26#8 ∧
    (Exchange.timeout (zeros 5) (ans [0x00#8, 0xCF#8])).FitsRequest quick 0x26#8 ∧ quick.ok = true ∧
    Ready (.request 0x26#8) (started quick (.request 0x26#8) []) := by
  simp only [Exchange.FitsRequest, Exchange.Fits]
  exact ⟨⟨pre_length rfl rfl rfl, ⟨misses_one (by decide), by decide, by decide⟩, by decide, by decide⟩,
    ⟨pre_length rfl rfl rfl, ⟨by simp, by decide, by decide⟩, by decide⟩,
    ⟨pre_length rfl rfl rfl, ⟨misses_two (by decide) (by decide), by decide⟩⟩, by decide, started_ready ..⟩

theorem test_witness_anticoll :
    (Exchange.ok (zeros 6) (ans [0x0F#8]) (0x00#8, 0x30#8) (0x00#8, 0x00#8)
      (ans [0x19#8, 0x03#8, 0x56#8, 0x73#8, 0x3F#8])).FitsAnticoll quick ∧
    (Exchange.chipFault (zeros 6) [] (0x00#8, 0x20#8) (0x00#8, 0x01#8)).FitsAnticoll quick ∧
    (Exchange.timeout (zeros 6) (ans [0x00#8, 0x00#8])).FitsAnticoll quick ∧ Ready .anticoll (started quick .anticoll []) := by
  simp only [Exchange.FitsAnticoll, Exchange.Fits]
  exact ⟨⟨pre_length rfl rfl rfl, ⟨misses_one (by decide), by decide, by decide⟩, by decide, by decide⟩,
    ⟨pre_length rfl rfl rfl, ⟨by simp, by decide, by decide⟩, by decide⟩,
    ⟨pre_length rfl rfl rfl, ⟨misses_two (by decide) (by decide), by decide⟩⟩, started_ready ..⟩

/-- RQ-1: the counts of an exchange without the two options. -/
theorem test_witness_exchange :
    (Exchange.ok (zeros 5) [] (0x00#8, 0x30#8) (0x00#8, 0x00#8) (ans [0x04#8, 0x00#8])).Fits Params.default 0x07#8 [0x26#8] 2 ∧
    Params.default.clearIrqBeforeIssue = false ∧ Params.default.startSendAfterIssue = false := by
  simp only [Exchange.Fits]
  exact ⟨⟨pre_length rfl rfl rfl, ⟨by simp, by decide, by decide⟩, by decide, by decide⟩, rfl, rfl⟩

/-- CALC_CRC 0 with a hit at once, CALC_CRC 64 (the bound) with a timeout. -/
theorem test_witness_crc :
    CrcAnswers.Fits quick 0 ⟨zeros 3, [], some (0x00#8, 0x04#8), (0x00#8, 0x11#8), (0x00#8, 0x22#8)⟩ ∧
    CrcAnswers.Fits quick 64 ⟨zeros 67, ans [0x00#8, 0xFB#8], none, (0x00#8, 0x11#8), (0x00#8, 0x22#8)⟩ ∧
    readCells [] 0 0 = some [] ∧
    (readCells ((List.range 64).map fun i => (i, 0x11#8)) 0 64).isSome = true ∧ 64 ≤ quick.crcMaxLen ∧ quick.crcMaxLen < 65 ∧
    Ready (.calcCrc 64) (started quick (.calcCrc 64) []) ∧ Ready (.calcCrc 65) (started quick (.calcCrc 65) []) := by
  simp only [CrcAnswers.Fits]
  exact ⟨⟨zeros_length 3, ⟨by simp, by decide, by decide⟩⟩,
    ⟨zeros_length 67, ⟨misses_two (by decide) (by decide), by decide⟩⟩, rfl,
    by decide +kernel, by decide, by decide, started_ready .., started_ready ..⟩

theorem test_witness_unwritten :
    2 < 3 ∧ readCell [(0, 0x93#8), (1, 0x20#8)] 2 = none ∧ 3 ≤ Params.default.crcMaxLen ∧ 3 < Params.default.uidLen ∧
    readCell [(0, 0x19#8), (1, 0x03#8), (2, 0x56#8)] 3 = none := by decide

theorem test_witness_candidate :
    [0x19#8, 0x03#8, 0x56#8, 0x73#8].length = Params.default.uidLen ∧
    (∀ i, i < Params.default.uidLen →
      readCell [(0, 0x19#8), (1, 0x03#8), (2, 0x56#8), (3, 0x73#8), (4, 0xFF#8)] i =
        ([0x19#8, 0x03#8, 0x56#8, 0x73#8] : List Byte)[i]?) ∧
    Ready .compareUid (started Params.default .compareUid []) := ⟨rfl, by decide, started_ready ..⟩

/-- CU-1 and CU-2 as candidates that match and that differ in the last byte. -/
theorem test_witness_membership :
    (∀ w ∈ Params.default.whitelist, w.length = 4) ∧ [0x19#8, 0x03#8, 0x56#8, 0x73#8] ∈ Params.default.whitelist ∧
    (∀ w ∈ Params.default.whitelist, ∃ i, i < 4 ∧ ([0x19#8, 0x03#8, 0x56#8, 0x72#8] : List Byte)[i]? ≠ w[i]?) := by
  refine ⟨by decide, by decide, ?_⟩
  intro w hw
  simp [Params.default] at hw
  subst hw
  exact ⟨3, by decide, by decide⟩

theorem test_witness_actuator :
    Ready .unlock (started Params.default .unlock []) ∧ Ready .lock (started Params.default .lock []) ∧
    Params.default.hostActuatorOps = true ∧ Ready .unlock (started guarded .unlock []) ∧ Ready .lock (started guarded .lock []) ∧
    guarded.hostActuatorOps = false := ⟨started_ready .., started_ready .., rfl, started_ready .., started_ready .., rfl⟩

theorem test_witness_rejected :
    (∀ i ∈ [Instr.reservedOp0, .reservedOpD, .reservedOpE, .reservedOpF, .reservedRsv25, .reservedRsv26, .reservedRsv27,
      .reservedRsv28, .reservedRsv29, .reservedRsv30, .reservedRsv31], i.isReserved = true ∧ Ready i (started Params.default i [])) ∧
    Ready (decodeCommand 0x02000009#32) (started guarded (decodeCommand 0x02000009#32) []) :=
  ⟨fun i hi => ⟨by revert i; decide, started_ready ..⟩, started_ready ..⟩

theorem test_witness_byte_writes :
    byteWrite Params.default .chipIdle = some (0x01#6, 0x00#8) ∧ byteWrite Params.default .chipCalcCrc = some (0x01#6, 0x03#8) ∧
    byteWrite Params.default .chipTransceive = some (0x01#6, 0x0C#8) ∧
    byteWrite Params.default .chipSoftReset = some (0x01#6, 0x0F#8) ∧
    byteWrite Params.default .cardReqa = some (0x09#6, 0x26#8) ∧ byteWrite Params.default .cardAnticollCl1 = some (0x09#6, 0x93#8) ∧
    byteWrite Params.default .cardNvb = some (0x09#6, 0x20#8) ∧
    (∀ i, Ready i (started Params.default i [0x00#8, 0x00#8])) :=
  ⟨by decide, by decide, by decide, by decide, by decide, by decide, by decide, fun i => started_ready Params.default i _⟩

/-- The REQUEST of the cycles below: RQ-1. -/
def found : Exchange := .ok (zeros 5) [] (0x00#8, 0x30#8) (0x00#8, 0x00#8) (ans [0x04#8, 0x00#8])

/-- The ANTICOLL of the cycles below, with the UID bytes `u`. -/
def readUid (u : List Byte) : Exchange := .ok (zeros 6) [] (0x00#8, 0x30#8) (0x00#8, 0x00#8) (ans u)

/-- The four ways of a cycle (PC-1, PC-2, PC-4, PC-6). -/
theorem test_witness_cycle :
    CycleAnswers.Fits Params.default (.uid found (readUid [0x19#8, 0x03#8, 0x56#8, 0x73#8, 0x3F#8])) ∧
    CycleAnswers.granted Params.default (.uid found (readUid [0x19#8, 0x03#8, 0x56#8, 0x73#8, 0x3F#8])) = true ∧
    CycleAnswers.Fits Params.default (.uid found (readUid [0x00#8, 0x00#8, 0x00#8, 0x00#8, 0x00#8])) ∧
    CycleAnswers.granted Params.default (.uid found (readUid [0x00#8, 0x00#8, 0x00#8, 0x00#8, 0x00#8])) = false ∧
    CycleAnswers.Fits Params.default (.noUid found (.chipFault (zeros 6) [] (0x00#8, 0x30#8) (0x00#8, 0x08#8))) ∧
    CycleAnswers.Fits Params.default (.noTag (.chipFault (zeros 5) [] (0x00#8, 0x30#8) (0x00#8, 0x02#8))) ∧
    Params.default.ok = true ∧ Ready .pollCycle (started Params.default .pollCycle []) ∧
    Ready .run (started Params.default .run []) ∧
    RoundReady { started Params.default .run [] with seq := roundStart, running := true } ∧
    Params.default.pollIntervalMs = 1 ∧ Params.default.interPollMs = 1000 ∧ Params.default.dwellMs = 5000 := by
  have r : found.FitsRequest Params.default 0x26#8 :=
    ⟨pre_length rfl rfl rfl, ⟨by simp, by decide, by decide⟩, by decide, rfl⟩
  have a : ∀ u : List Byte, u.length = 5 → (readUid u).FitsAnticoll Params.default := fun u hu =>
    ⟨pre_length rfl rfl rfl, ⟨by simp, by decide, by decide⟩, by decide, by simp [ans, hu, Params.default]⟩
  refine ⟨⟨r, rfl, a _ rfl, rfl⟩, by decide, ⟨r, rfl, a _ rfl, rfl⟩, by decide,
    ⟨r, rfl, ⟨pre_length rfl rfl rfl, ⟨by simp, by decide, by decide⟩, by decide⟩, by decide⟩,
    ⟨⟨pre_length rfl rfl rfl, ⟨by simp, by decide, by decide⟩, by decide⟩, by decide⟩, by decide, started_ready .., started_ready ..,
    ⟨rfl, rfl, rfl, rfl, rfl, rfl⟩, rfl, rfl, rfl⟩

/-- Cycles about to run: for any answers of a cycle, POLL_CYCLE and RUN at their first step, and RUN at the start of a round. -/
theorem test_witness_cycle_states (x : CycleAnswers) :
    Ready .pollCycle (started Params.default .pollCycle (flatPairs x.pairs)) ∧
    Ready .run (started Params.default .run (flatPairs x.pairs)) ∧
    RoundReady { started Params.default .run (flatPairs x.pairs) with seq := roundStart, running := true } ∧
    (started Params.default .run (flatPairs x.pairs)).answers = flatPairs x.pairs ++ [] :=
  ⟨started_ready .., started_ready .., ⟨rfl, rfl, rfl, rfl, rfl, rfl⟩, (List.append_nil _).symm⟩

/-- An undisturbed step of RUN, and the host's early write: both leave it running. -/
theorem test_witness_run_goes_on :
    (∃ t, step (started Params.default .run []) = .next t ∧ t.busy = true) ∧
    (∃ t, step (env (.hostWriteCmd 0x0000000B#32) (started Params.default .run [])) = .next t ∧ t.busy = true) ∧
    (started Params.default .run []).op = some .run ∧ (started Params.default .run []).busy = true :=
  ⟨of_after (f := fun t => t.busy) (by decide +kernel), of_after (f := fun t => t.busy) (by decide +kernel), rfl, rfl⟩

/-- Next states of operations that the frames speak of: one that ends, one that waits, one that is none of the exceptions. -/
theorem test_witness_frames :
    (∃ t, exec (.readReg 0x37#6) (started Params.default (.readReg 0x37#6) [0x00#8, 0x92#8]) = .next t ∧ t.op = none) ∧
    (∃ t, exec (.readReg 0x37#6) (started Params.default (.readReg 0x37#6) []) = .next t ∧ t.op = some (.readReg 0x37#6)) ∧
    (∃ t, exec (.calcCrc 0) (started quick (.calcCrc 0) (flatPairs (zeros 7))) = .next t ∧ t.polls = 2#16) :=
  ⟨of_after (f := fun t => t.op) (by decide +kernel), of_after (f := fun t => t.op) (by decide +kernel),
    of_after (f := fun t => t.polls) (by decide +kernel)⟩

/-- Single atomic steps that the frames speak of: the bus agent's, and the last one of REQUEST's code. -/
theorem test_witness_advances :
    (∃ t, Advances (.readReg 0x37#6) (waiting [0x55#8]) t ∧ t.xfers = 1) ∧
    (∃ t, Advances (.request 0x26#8)
      { started Params.default (.request 0x26#8) [] with seq := (codeRequest Params.default 0x26#8).length - 1, ret := .timeout } t ∧
      t.status = .timeout) := by
  obtain ⟨t, h, ht⟩ := of_after (r := atom (program Params.default (.readReg 0x37#6)) (waiting [0x55#8])) (f := fun t => t.xfers)
    (x := 1) (by decide +kernel)
  obtain ⟨u, h', hu⟩ := of_after (r := atom (program Params.default (.request 0x26#8))
    { started Params.default (.request 0x26#8) [] with seq := (codeRequest Params.default 0x26#8).length - 1, ret := .timeout })
    (f := fun t => t.status) (x := .timeout) (by decide +kernel)
  exact ⟨⟨t, .inr h, ht⟩, ⟨u, .inr h', hu⟩⟩

theorem test_witness_bus_inv : BusInv (waiting [0x55#8]) ∧ ∃ t, step (env .busDone (waiting [0x55#8])) = .next t ∧ t.xfers = 1 :=
  ⟨⟨by decide, by decide, by decide, by decide, by rintro _ ⟨⟩; decide, by rintro _ ⟨⟩; decide, by rintro _ ⟨⟩; decide⟩,
    of_after (f := fun t => t.xfers) (by decide +kernel)⟩

theorem test_witness_lock_inv :
    LockInv (started Params.default .unlock []) ∧
    ∃ t, step (started Params.default .unlock []) = .next t ∧ (t.lockState, t.unlockOut) = (.unlocked, true) :=
  ⟨⟨rfl, by decide, by decide⟩, of_after (f := fun t => (t.lockState, t.unlockOut)) (by decide +kernel)⟩

theorem test_witness_port_inv :
    PortInv (env (.hostWriteData 5 0x11#8) State.reset) ∧
    ∃ t, step (env (.hostWriteData 5 0x11#8) State.reset) = .next t ∧ t.dataIn = [(5, 0x11#8)] :=
  ⟨⟨rfl, rfl, by decide⟩, of_after (f := fun t => t.dataIn) (by decide +kernel)⟩

theorem test_witness_fault :
    BusInv (env (.hostRead .rdata) State.reset) ∧ step (env (.hostRead .rdata) State.reset) = .fault .unwrittenRead :=
  ⟨⟨rfl, by decide, rfl, by decide, by rintro _ ⟨⟩, by rintro _ ⟨⟩, by rintro _ ⟨⟩⟩, of_faultOf (by decide +kernel)⟩

/-- UNLOCK past its first step, and UNLOCK about to be turned away. -/
theorem test_witness_actuator_inv :
    ActuatorInv { started Params.default .unlock [] with seq := 1, env := [.go] } ∧
    (∃ t, step { started Params.default .unlock [] with seq := 1, env := [.go] } = .next t ∧
      (t.seq, t.lockState) = (2, .unlocked)) ∧
    ActuatorInv { started guarded .unlock [] with env := [.go] } ∧
    (∃ t, step { started guarded .unlock [] with env := [.go] } = .next t ∧ (t.status, t.lockState) = (.disabled, .locked)) :=
  ⟨⟨fun _ => rfl, fun _ _ => rfl⟩, of_after (f := fun t => (t.seq, t.lockState)) (by decide +kernel),
    ⟨fun _ => rfl, fun _ h => absurd rfl h⟩, of_after (f := fun t => (t.status, t.lockState)) (by decide +kernel)⟩

/-- The three ways the lock opens: UNLOCK, a cycle, a round of RUN, each at the step that drives the outputs. -/
theorem test_witness_opens :
    ActuatorInv (started Params.default .unlock []) ∧
    (∃ t, step (started Params.default .unlock []) = .next t ∧ t.lockState = .unlocked) ∧
    (started Params.default .unlock []).lockState = .locked ∧
    (∃ t, step { started Params.default .pollCycle [] with seq := (codePollCycle Params.default).idxOf .unlock, env := [.go] } = .next t ∧ t.lockState = .unlocked) ∧
    (∃ t, step { started Params.default .run [] with seq := (codeRun Params.default).idxOf .unlock, env := [.go] } = .next t ∧ t.lockState = .unlocked) :=
  ⟨⟨fun _ => rfl, fun _ h => absurd rfl h⟩, of_after (f := fun t => t.lockState) (by decide +kernel), rfl,
    of_after (f := fun t => t.lockState) (by decide +kernel), of_after (f := fun t => t.lockState) (by decide +kernel)⟩

/-- With the host's actuator operations off a cycle still opens the lock, and block reset shuts it. -/
theorem test_witness_guarded :
    ActuatorInv { started guarded .pollCycle [] with seq := (codePollCycle guarded).idxOf .unlock, env := [.go] } ∧
    guarded.hostActuatorOps = false ∧
    (∃ t, step { started guarded .pollCycle [] with seq := (codePollCycle guarded).idxOf .unlock, env := [.go] } = .next t ∧
      t.lockState = .unlocked) ∧
    ActuatorInv { started guarded .compareUid [] with lockState := .unlocked, env := [.blockReset] } ∧
    (∃ t, step { started guarded .compareUid [] with lockState := .unlocked, env := [.blockReset] } = .next t ∧
      t.lockState = .locked) :=
  ⟨⟨fun _ => rfl, fun h => by simp [started] at h⟩, rfl, of_after (f := fun t => t.lockState) (by decide +kernel),
    ⟨fun _ => rfl, fun h => by simp [started] at h⟩, of_after (f := fun t => t.lockState) (by decide +kernel)⟩

theorem test_witness_long_answers :
    (List.replicate 300000 0x30#8).length = 300000 ∧ Params.default.ok = true ∧
    Ready .anticoll (started Params.default .anticoll (List.replicate 300000 0x30#8)) ∧
    RoundReady { started Params.default .run (List.replicate 300000 0x30#8) with seq := roundStart, running := true } ∧
    (∀ j, j < 2 → (readCell [(0, 0x93#8), (1, 0x20#8)] j).isSome = true) ∧
    (∀ j, j < Params.default.uidLen → (readCell [(0, 0x19#8), (1, 0x03#8), (2, 0x56#8), (3, 0x73#8)] j).isSome = true) :=
  ⟨List.length_replicate, by decide, started_ready .., ⟨rfl, rfl, rfl, rfl, rfl, rfl⟩, by decide, by decide⟩

/-- A cycle that opens the lock, for the listed UID, with as many answers as the statement asks for. -/
theorem test_witness_listed_uid :
    ∃ t, exec .pollCycle (started Params.default .pollCycle
        (card [0x19#8, 0x03#8, 0x56#8, 0x73#8, 0x3F#8] ++ List.replicate 300000 0x00#8)) = .next t ∧
      outs t.trace = [(false, true), (true, false)] :=
  of_after (f := fun t => outs t.trace) (by decide +kernel)

theorem test_witness_listed_uid_length :
    300000 ≤ (card [0x19#8, 0x03#8, 0x56#8, 0x73#8, 0x3F#8] ++ List.replicate 300000 0x00#8).length := by
  rw [List.length_append, List.length_replicate]; omega

end Sys2Proof.Tests
end

section
/-! Which instructions the byte decoders can name, and that a table word which stands for a command decodes as the command
word of the same bits (R92, R93, R100, R103, R105; entry 12). -/

namespace Sys2Proof

theorem decodeChipCommand_not_command {c : Params} {b : Byte} {i : Instr} (h : decodeChipCommand c b = .ok i) :
    i.isCommand = false := by
  unfold decodeChipCommand at h
  repeat' split at h
  all_goals cases h
  all_goals rfl

theorem decodeCardByte_not_command {c : Params} {b : Byte} {i : Instr} (h : decodeCardByte c b = .ok i) :
    i.isCommand = false := by
  unfold decodeCardByte at h
  repeat' split at h
  all_goals cases h
  all_goals rfl

theorem decodeFrame_not_command {b : Byte} {i : Instr} (h : decodeFrame b = .ok i) : i.isCommand = false := by
  unfold decodeFrame at h
  repeat' split at h
  all_goals cases h
  all_goals rfl

/-- Only the arms of `decodeTableByte` that read a command word can answer a command. -/
theorem decodeTableByte_of_isCommand {b : Byte} (h : (decodeTableByte b).isCommand = true) :
    decodeTableByte b = decodeCommand (b.setWidth 32) := by
  unfold decodeTableByte at h ⊢
  cases hchip : decodeChipCommand Params.default b with
  | ok i => simp [hchip, decodeChipCommand_not_command hchip] at h
  | error _ =>
    cases hcard : decodeCardByte Params.default b with
    | ok i => simp [hchip, hcard, decodeCardByte_not_command hcard] at h
    | error _ =>
      by_cases hres : b = 0x0D#8 ∨ b = 0x0E#8
      · simp [hres]
      · cases hframe : decodeFrame b with
        | ok i => simp [hchip, hcard, hres, hframe, decodeFrame_not_command hframe] at h
        | error _ => simp [hres]

theorem setWidth_ofNat_byte (w : Nat) : (BitVec.ofNat 8 w).setWidth 32 = BitVec.ofNat 32 (w % 2 ^ 8) :=
  BitVec.eq_of_toNat_eq (by simp)

theorem decodeCommand_of_decodeTableWord {nbits w : Nat} {i : Instr} (h : decodeTableWord nbits w = some i)
    (hi : i.isCommand = true) : decodeCommand (BitVec.ofNat 32 (w % 2 ^ nbits)) = i := by
  unfold decodeTableWord at h
  split at h
  case isTrue hn =>
    cases h
    rw [decodeTableByte_of_isCommand hi, setWidth_ofNat_byte, hn]
  case isFalse =>
    split at h
    case isTrue => exact Option.some.inj h
    case isFalse => cases h

end Sys2Proof
end

section
/-! One equation for each way a step begins (R12, R13, R24, R223, R228), and what acceptance and a placed table word leave
for the next step to run. -/

namespace Sys2Proof.Machine

theorem step_of_not_ok {s : State} (h : s.cfg.ok = false) : step s = .refused .badConfiguration := by
  simp [step, h]

theorem step_of_env_nil {s : State} (hc : s.cfg.ok = true) (he : s.env = []) : step s = undisturbed s := by
  simp [step, hc, he]

theorem step_of_env_cons {s : State} {e : Stimulus} {rest : List Stimulus} (hc : s.cfg.ok = true)
    (he : s.env = e :: rest) : step s = deliver e { s with env := rest } := by
  simp [step, hc, he]

theorem undisturbed_of_op {s : State} {i : Instr} (h : s.op = some i) : undisturbed s = exec i s := by
  simp [undisturbed, h]

theorem undisturbed_of_no_op {s : State} (h : s.op = none) : undisturbed s = .next s := by
  simp [undisturbed, h]

theorem sequencerStep_of_free {s : State} {i : Instr} (hop : s.op = some i) (hh : s.hold = .free) :
    sequencerStep s = atom (program s.cfg i) s := by
  simp [sequencerStep, hop, hh]

theorem hostWriteCmd_of_idle {s : State} (w : Word) (hb : s.busy = false) : hostWriteCmd w s = accept w s := by
  simp [hostWriteCmd, hb]

theorem accept_ready {s : State} (w : Word) (hcs : s.cs = false) (hx : s.xfers = 0) :
    Ready (decodeCommand w) (accept w s) :=
  ⟨rfl, rfl, rfl, hcs, hx⟩

@[simp] theorem withFetchWord_cfg (s : State) (nbits w : Nat) : (s.withFetchWord nbits w).cfg = s.cfg := by
  unfold State.withFetchWord
  split
  case h_1 => split <;> rfl
  case h_2 => rfl

@[simp] theorem withFetchWord_env (s : State) (nbits w : Nat) : (s.withFetchWord nbits w).env = [] := by
  unfold State.withFetchWord
  split
  case h_1 => split <;> rfl
  case h_2 => rfl

theorem withFetchWord_op {s : State} {nbits w : Nat} {i : Instr} (h : decodeTableWord nbits w = some i) :
    (s.withFetchWord nbits w).op = some i := by
  simp only [State.withFetchWord, h]
  split
  case isTrue hi => exact congrArg some (decodeCommand_of_decodeTableWord h hi)
  case isFalse => rfl

theorem step_withFetchWord {s : State} {nbits w : Nat} {i : Instr} (hc : s.cfg.ok = true)
    (h : decodeTableWord nbits w = some i) : step (s.withFetchWord nbits w) = exec i (s.withFetchWord nbits w) := by
  rw [step_of_env_nil (by simpa using hc) (by simp), undisturbed_of_op (withFetchWord_op h)]

theorem step_of_go {s : State} {i : Instr} {rest : List Stimulus} (hc : s.cfg.ok = true) (he : s.env = .go :: rest)
    (hop : s.op = some i) (hh : s.hold = .free) : step s = atom (program s.cfg i) { s with env := rest } := by
  rw [step_of_env_cons hc he]
  exact sequencerStep_of_free (s := { s with env := rest }) hop hh

theorem step_of_hostWriteCmd {s : State} {w : Word} {rest : List Stimulus} (hc : s.cfg.ok = true)
    (he : s.env = .hostWriteCmd w :: rest) (hb : s.busy = false) :
    step s = .next (accept w { s with env := rest }) := by
  rw [step_of_env_cons hc he]
  exact congrArg Host.Outcome.next (hostWriteCmd_of_idle (s := { s with env := rest }) w hb)

/-- Settles O9: one equation of `step` for each clause. -/
theorem stepRunsTheDecodedCommand : Obligations.StepRunsTheDecodedCommand := by
  unfold Obligations.StepRunsTheDecodedCommand
  refine ⟨?operation, ?idle, ?go, ?write, ?ready, ?placed, ?refused⟩
  case operation => intro s i hc he hop; rw [step_of_env_nil hc he, undisturbed_of_op hop]
  case idle => intro s hc he hop; rw [step_of_env_nil hc he, undisturbed_of_no_op hop]
  case go => exact fun _ _ _ => step_of_go
  case write => exact fun _ _ _ => step_of_hostWriteCmd
  case ready => exact fun _ w => accept_ready w
  case placed => exact fun _ _ _ _ => step_withFetchWord
  case refused => exact fun _ => step_of_not_ok

end Sys2Proof.Machine
end

section
/-! The invariants at reset and under every step (R26, R37, R41): what an atomic step leaves of the operation in progress, and
for each invariant that the moves of the outside and the atomic steps keep it. -/

namespace Sys2Proof.Machine

/-! ## The operation in progress over one atomic step -/

/-- An atomic step keeps the operation in progress, and `running` unless its code sets it, or ends the operation (R222). -/
theorem atom_goes {p : Code} {s t : State} (h : atom p s = .next t) :
    (t.op = s.op ∧ t.busy = s.busy ∧ ((∀ m ∈ p, m.setsRunning = false) → t.running = s.running)) ∨
    (t.op = none ∧ t.busy = false ∧ t.running = false) := by
  obtain ⟨out, keep, -, rfl⟩ | ⟨-, rfl⟩ | ⟨-, m, hmem, -, hm⟩ | ⟨-, -, rfl⟩ := atom_cases h
  · exact .inl ⟨rfl, rfl, fun _ => rfl⟩
  · exact .inl ⟨rfl, rfl, fun _ => rfl⟩
  · obtain ⟨hop, hbusy, -, -, hrun, -⟩ | hend := (execMicro_frame hm).goes
    · exact .inl ⟨hop, hbusy, fun hno => hrun (hno m hmem)⟩
    · exact .inr hend
  · exact .inl ⟨rfl, rfl, fun _ => rfl⟩

theorem atom_of_bus {p : Code} {s : State} {out : Byte} {keep : Bool} (h : s.hold = .bus out keep) :
    atom p s = .next (completeXfer out keep s) := by
  simp [atom, h]

theorem atom_of_timer {p : Code} {s : State} (h : s.hold = .timer) : atom p s = .next (completeDelay s) := by
  simp [atom, h]

/-- Every code has a first step. -/
theorem program_length_pos (c : Params) (i : Instr) : 0 < (program c i).length := by
  cases i <;> exact Nat.zero_lt_succ _

/-! ## Bus and sequencer -/

theorem BusInv.initial (c : Params) : BusInv (State.initial c) := BusInv.of_rest rfl rfl ⟨rfl, rfl, rfl, rfl⟩

theorem BusInv.atom {s t : State} {i : Instr} (h : BusInv s) (hop : s.op = some i)
    (ha : Machine.atom (program s.cfg i) s = .next t) : BusInv t := by
  have hcfg : t.cfg = s.cfg := (atom_frame ha).2.2.2.1
  have hbus := atom_bus (sound_program s.cfg i) (h.at hop) ha
  obtain ⟨htop, htbusy, -⟩ | ⟨htop, htbusy, -⟩ := atom_goes ha
  · obtain ⟨-, hat⟩ | ⟨hnone, -⟩ := hbus
    · exact BusInv.of_at (htop.trans hop) (by rw [htbusy, h.busy, hop]; rfl) (hcfg ▸ hat)
    · exact absurd (htop.trans hop) (by simp [hnone])
  · obtain ⟨hsame, -⟩ | ⟨-, hrest⟩ := hbus
    · exact absurd (hsame.trans hop) (by simp [htop])
    · exact BusInv.of_rest htop htbusy hrest

/-- A waiting block has an operation in progress. -/
theorem BusInv.op_of_hold {s : State} (h : BusInv s) (hh : s.hold ≠ .free) : ∃ i, s.op = some i :=
  Option.ne_none_iff_exists'.mp fun hnone => hh (h.idle hnone).2

/-- The host's `Overrun` event leaves the shape of the trace alone (entry 29). -/
theorem BusInv.overrun {s : State} (h : BusInv s) : BusInv (Machine.overrun s) :=
  ⟨by rw [overrun_trace, busShape_append, h.shape]; rfl, h.closed, h.busy, h.idle, h.fits, h.held, h.seqUsed⟩

theorem BusInv.accept {s : State} (h : BusInv s) (w : Word) (hb : s.busy = false) : BusInv (Machine.accept w s) := by
  have hop : s.op = none := by simpa [hb] using h.busy
  have hcs : s.cs = false := (h.idle hop).1
  refine BusInv.of_at (i := decodeCommand w) rfl rfl ⟨?shape, h.closed, ?fits, rfl, program_length_pos ..⟩
  case shape =>
    show busShape (s.trace ++ [.opStart w]) = stateShape s
    rw [busShape_append, h.shape, stateShape, hcs]
    rfl
  case fits =>
    show phaseAt _ 0 none = some (statePhase s)
    rw [statePhase_none.mpr hcs, phaseAt]

/-- Settles O50: the bus agent and the timer agent make the atomic steps of a waiting block, so the one lemma over atomic
steps serves all three. -/
theorem everyStepKeepsTheBusInvariant : Obligations.EveryStepKeepsTheBusInvariant := by
  unfold Obligations.EveryStepKeepsTheBusInvariant
  intro s t hs h
  refine step_keeps hs h ?outside ?atom ?bus ?timer ?overrun ?accept ?data ?reset
  case outside => exact fun u _ _ hu => ⟨hu.shape, hu.closed, hu.busy, hu.idle, hu.fits, hu.held, hu.seqUsed⟩
  case atom => exact fun u w i hu hop ha => hu.atom hop ha
  case bus =>
    intro u out keep hu hh
    obtain ⟨i, hop⟩ := hu.op_of_hold (by simp [hh])
    exact hu.atom hop (atom_of_bus hh)
  case timer =>
    intro u hu hh
    obtain ⟨i, hop⟩ := hu.op_of_hold (by simp [hh])
    exact hu.atom hop (atom_of_timer hh)
  case overrun => exact fun u hu => hu.overrun
  case accept => exact fun u w hu hb => hu.accept w hb
  case data => exact fun u _ _ hu => ⟨hu.shape, hu.closed, hu.busy, hu.idle, hu.fits, hu.held, hu.seqUsed⟩
  case reset =>
    intro u _
    have h0 := BusInv.initial u.cfg
    exact ⟨h0.shape, h0.closed, h0.busy, h0.idle, h0.fits, h0.held, h0.seqUsed⟩

/-! ## Lock and outputs -/

theorem LockInv.initial {c : Params} (h : c.resetUnlockOut = false) : LockInv (State.initial c) :=
  ⟨h, by simp [State.initial, h], by simp [State.initial, h]⟩

/-- Only `Unlock()` and `Lock()` write the lock, each with the outputs that agree (R211, R212, entry 8). -/
theorem LockInv.atom {p : Code} {s t : State} (h : LockInv s) (ha : Machine.atom p s = .next t) : LockInv t := by
  obtain ⟨out, keep, -, rfl⟩ | ⟨-, rfl⟩ | ⟨-, m, -, -, hm⟩ | ⟨-, -, rfl⟩ := atom_cases ha
  case inl | inr.inl | inr.inr.inr => exact ⟨h.resets, h.exclusive, h.agrees⟩
  case inr.inr.inl =>
    have hf := execMicro_frame hm
    have hresets : t.cfg.resetUnlockOut = false := by rw [hf.cfg]; exact h.resets
    cases htouch : m.touchesLock with
    | false =>
      obtain ⟨hstate, hlock, hunlock⟩ := hf.lock htouch
      exact ⟨hresets, by rw [hlock, hunlock]; exact h.exclusive, by rw [hstate, hunlock]; exact h.agrees⟩
    | true =>
      cases m with
      | unlock => cases hm; exact ⟨hresets, fun hboth => Bool.noConfusion hboth.1, ⟨fun _ => rfl, fun _ => rfl⟩⟩
      | lock => cases hm; exact ⟨hresets, fun hboth => Bool.noConfusion hboth.2, by simp⟩
      | _ => cases htouch

/-- Settles O51. -/
theorem everyStepKeepsTheLockInvariant : Obligations.EveryStepKeepsTheLockInvariant := by
  unfold Obligations.EveryStepKeepsTheLockInvariant
  intro s t hs h
  refine step_keeps hs h ?outside ?atom ?bus ?timer ?overrun ?accept ?data ?reset
  case atom => exact fun u w i hu _ ha => hu.atom ha
  case reset =>
    intro u hu
    have h0 := LockInv.initial hu.resets
    exact ⟨h0.resets, h0.exclusive, h0.agrees⟩
  case bus => exact fun u _ _ hu _ => ⟨hu.resets, hu.exclusive, hu.agrees⟩
  case timer => exact fun u hu _ => ⟨hu.resets, hu.exclusive, hu.agrees⟩
  case accept => exact fun u _ hu _ => ⟨hu.resets, hu.exclusive, hu.agrees⟩
  case overrun => exact fun u hu => ⟨hu.resets, hu.exclusive, hu.agrees⟩
  case outside | data => exact fun u _ _ hu => ⟨hu.resets, hu.exclusive, hu.agrees⟩

/-! ## The port -/

theorem PortInv.initial (c : Params) : PortInv (State.initial c) :=
  ⟨initial_dataIn_wf c, rfl, by simp [State.initial]⟩

/-- RUN's code alone sets `running` (R190). -/
theorem PortInv.atom {s t : State} {i : Instr} (h : PortInv s) (hop : s.op = some i)
    (ha : Machine.atom (program s.cfg i) s = .next t) : PortInv t := by
  have hdata : t.dataIn.wf = true := by rw [(atom_frame ha).2.1]; exact h.dataIn
  obtain ⟨htop, htbusy, htrun⟩ | ⟨htop, htbusy, htrun⟩ := atom_goes ha
  · refine ⟨hdata, by rw [htbusy, htop]; exact h.busy, fun hr => ?_⟩
    by_cases hi : i = .run
    · rw [htop, hop, hi]
    · rw [htop]
      exact h.running (htrun (running_frames hi) ▸ hr)
  · exact ⟨hdata, by rw [htbusy, htop]; rfl, by simp [htrun]⟩

theorem PortInv.accept {s : State} (h : PortInv s) (w : Word) (hb : s.busy = false) : PortInv (Machine.accept w s) := by
  have hop : s.op = none := by simpa [hb] using h.busy
  refine ⟨h.dataIn, rfl, fun hr => ?_⟩
  have hrun : s.op = some .run := h.running hr
  simp [hop] at hrun

/-- Settles O52. -/
theorem everyStepKeepsThePortInvariant : Obligations.EveryStepKeepsThePortInvariant := by
  unfold Obligations.EveryStepKeepsThePortInvariant
  intro s t hs h
  refine step_keeps hs h ?outside ?atom ?bus ?timer ?overrun ?accept ?data ?reset
  case atom => exact fun u w i hu hop ha => hu.atom hop ha
  case accept => exact fun u w hu hb => hu.accept w hb
  case data => exact fun u i b hu => ⟨writeCell_wf hu.dataIn i.isLt, hu.busy, hu.running⟩
  case reset =>
    intro u _
    have h0 := PortInv.initial u.cfg
    exact ⟨h0.dataIn, h0.busy, h0.running⟩
  case outside => exact fun u _ _ hu => ⟨hu.dataIn, hu.busy, hu.running⟩
  case bus => exact fun u _ _ hu _ => ⟨hu.dataIn, hu.busy, hu.running⟩
  case timer => exact fun u hu _ => ⟨hu.dataIn, hu.busy, hu.running⟩
  case overrun => exact fun u hu => ⟨hu.dataIn, hu.busy, hu.running⟩

/-! ## Reset -/

theorem ActuatorInv.initial (c : Params) : ActuatorInv (State.initial c) :=
  ⟨fun _ => rfl, fun _ hseq => absurd rfl hseq⟩

/-- Settles O17. -/
theorem invariantsHoldAtReset : Obligations.InvariantsHoldAtReset := by
  unfold Obligations.InvariantsHoldAtReset
  exact ⟨fun c => ⟨BusInv.initial c, PortInv.initial c, ActuatorInv.initial c⟩, fun _ => LockInv.initial,
    BusInv.initial _, PortInv.initial _, ActuatorInv.initial _, LockInv.initial rfl⟩

end Sys2Proof.Machine
end

section
/-! What an operation leaves alone (R22, R27 to R36, R39), in its undisturbed run and in each of its atomic steps. Each frame is
a relation to the state at the start that holds there and that every atomic step keeps. -/

namespace Sys2Proof.Machine

/-! ## The inputs -/

/-- From `s` to `t` nothing from outside moved, no input was written, and the trace only grew. -/
structure KeepsInputs (s t : State) : Prop where
  cmd : t.cmd = s.cmd
  dataIn : t.dataIn = s.dataIn
  overrun : t.overrun = s.overrun
  cfg : t.cfg = s.cfg
  env : t.env = s.env
  hostData : t.hostData = s.hostData
  grows : s.trace <+: t.trace

theorem KeepsInputs.refl (s : State) : KeepsInputs s s := ⟨rfl, rfl, rfl, rfl, rfl, rfl, List.prefix_refl _⟩

theorem KeepsInputs.atom {p : Code} {s u t : State} (h : KeepsInputs s u) (ha : Machine.atom p u = .next t) :
    KeepsInputs s t := by
  obtain ⟨hcmd, hdata, hover, hcfg, henv, hhost, hgrows⟩ := atom_frame ha
  exact ⟨hcmd.trans h.cmd, hdata.trans h.dataIn, hover.trans h.overrun, hcfg.trans h.cfg, henv.trans h.env,
    hhost.trans h.hostData, h.grows.trans hgrows⟩

theorem Advances.keepsInputs {i : Instr} {s t : State} (h : Advances i s t) : KeepsInputs s t := by
  obtain hrun | hone := h
  · rw [exec_eq_perform] at hrun
    exact perform_keeps (fun _ _ hu ha => hu.atom ha) (KeepsInputs.refl s) hrun
  · exact (KeepsInputs.refl s).atom hone

/-- Settles O44. -/
theorem operationsLeaveTheInputsAlone : Obligations.OperationsLeaveTheInputsAlone := by
  unfold Obligations.OperationsLeaveTheInputsAlone
  intro i s t h
  have hk := h.keepsInputs
  exact ⟨hk.cmd, hk.dataIn, fun j => by rw [hk.dataIn], hk.overrun, hk.cfg, hk.env, hk.hostData, hk.grows⟩

/-! ## The lock -/

/-- From `s` to `t` nothing of the lock moved. -/
structure KeepsLock (s t : State) : Prop where
  lockState : t.lockState = s.lockState
  lockOut : t.lockOut = s.lockOut
  unlockOut : t.unlockOut = s.unlockOut
  outs : outs t.trace = outs s.trace

/-- A code without a step of the actuator leaves the lock alone (R210). -/
theorem Advances.keepsLock {i : Instr} {s t : State} (hno : ∀ m ∈ program s.cfg i, m.touchesLock = false)
    (h : Advances i s t) : KeepsLock s t := by
  refine advances_rel (P := KeepsLock s) ⟨rfl, rfl, rfl, rfl⟩ h ?transfer ?delay ?micro
  case transfer =>
    exact fun u out keep hu => ⟨hu.lockState, hu.lockOut, hu.unlockOut, (outs_xfer ..).trans hu.outs⟩
  case delay => exact fun u hu => ⟨hu.lockState, hu.lockOut, hu.unlockOut, hu.outs⟩
  case micro =>
    intro m hm u w hu he
    have hf := execMicro_frame he
    obtain ⟨hstate, hlock, hunlock⟩ := hf.lock (hno m hm)
    exact ⟨hstate.trans hu.lockState, hlock.trans hu.lockOut, hunlock.trans hu.unlockOut,
      (hf.outs (hno m hm)).trans hu.outs⟩

/-- Settles O45. -/
theorem onlyActuatorOperationsTouchTheLock : Obligations.OnlyActuatorOperationsTouchTheLock := by
  unfold Obligations.OnlyActuatorOperationsTouchTheLock
  intro i s t hunlock hlock hcycle hrun h
  have hk := h.keepsLock fun m hm => (lock_frames hunlock hlock hcycle hrun m hm).1
  exact ⟨hk.lockState, hk.lockOut, hk.unlockOut, hk.outs⟩

/-! ## The controller -/

/-- From `s` to `t` the controller kept its state and said nothing. -/
structure KeepsCtrl (s t : State) : Prop where
  ctrlState : t.ctrlState = s.ctrlState
  diags : diags t.trace = diags s.trace

/-- The codes of UNLOCK and LOCK write neither the controller nor the buffers; `lock_frames` and `program_plain` leave these two
codes out. -/
theorem hostActuator_frames {i : Instr} {c : Params} (hi : i = .unlock ∨ i = .lock) :
    ∀ m ∈ program c i, m.touchesCtrl = false ∧ m.touchesBuffers = false := by
  obtain rfl | rfl := hi <;> simp [program, codeUnlock, codeLock, Micro.touchesCtrl, Micro.touchesBuffers]

theorem ctrl_frames {i : Instr} {c : Params} (hcycle : i ≠ .pollCycle) (hrun : i ≠ .run) :
    ∀ m ∈ program c i, m.touchesCtrl = false := by
  intro m hm
  by_cases hi : i = .unlock ∨ i = .lock
  · exact (hostActuator_frames hi m hm).1
  · obtain ⟨hunlock, hlock⟩ := not_or.mp hi
    exact (lock_frames hunlock hlock hcycle hrun m hm).2.1

theorem Advances.keepsCtrl {i : Instr} {s t : State} (hno : ∀ m ∈ program s.cfg i, m.touchesCtrl = false)
    (h : Advances i s t) : KeepsCtrl s t := by
  refine advances_rel (P := KeepsCtrl s) ⟨rfl, rfl⟩ h ?transfer ?delay ?micro
  case transfer => exact fun u out keep hu => ⟨hu.ctrlState, (diags_xfer ..).trans hu.diags⟩
  case delay => exact fun u hu => ⟨hu.ctrlState, hu.diags⟩
  case micro =>
    intro m hm u w hu he
    have hf := execMicro_frame he
    exact ⟨(hf.ctrl (hno m hm)).trans hu.ctrlState, (hf.diags (hno m hm)).trans hu.diags⟩

/-- Settles O46. -/
theorem onlyCyclesMoveTheController : Obligations.OnlyCyclesMoveTheController := by
  unfold Obligations.OnlyCyclesMoveTheController
  intro i s t hcycle hrun h
  have hk := h.keepsCtrl (ctrl_frames hcycle hrun)
  exact ⟨hk.ctrlState, hk.diags⟩

/-! ## Buffers and polls -/

theorem buffers_untouched {i : Instr} {c : Params} (hreq : ∀ m, i ≠ .request m) (hanti : i ≠ .anticoll)
    (hcycle : i ≠ .pollCycle) (hrun : i ≠ .run) : ∀ m ∈ program c i, m.touchesBuffers = false := by
  intro m hm
  by_cases hi : i = .unlock ∨ i = .lock
  · exact (hostActuator_frames hi m hm).2
  · obtain ⟨hunlock, hlock⟩ := not_or.mp hi
    obtain hbasic | ⟨-, ⟨x, hx⟩ | hx⟩ := program_plain c i hunlock hlock hcycle hrun m hm
    · exact (basic_frames hbasic).2.2.1
    · exact absurd hx (hreq x)
    · exact absurd hx hanti

/-- Without a poll in the code no step writes the poll registers; only RESET_READER's length depends on the parameters. -/
theorem polls_untouched {i : Instr} {c : Params} (hreq : ∀ m, i ≠ .request m) (hanti : i ≠ .anticoll)
    (hcycle : i ≠ .pollCycle) (hrun : i ≠ .run) (hcrc : ∀ n, i ≠ .calcCrc n) :
    ∀ m ∈ program c i, m.touchesPolls = false := by
  suffices hall : (program c i).all (fun m => !m.touchesPolls) = true by
    simpa using hall
  cases i with
  | request m => exact absurd rfl (hreq m)
  | anticoll => exact absurd rfl hanti
  | pollCycle => exact absurd rfl hcycle
  | run => exact absurd rfl hrun
  | calcCrc n => exact absurd rfl (hcrc n)
  | resetReader =>
    have hdelay := all_delay (f := fun m => !m.touchesPolls) (fun _ => rfl) c.resetSettleMs
    simp only [program, codeResetReader, List.all_append, hdelay]
    rfl
  | _ => rfl

/-- Settles O47. -/
theorem onlyReaderOperationsTouchBuffersAndPolls : Obligations.OnlyReaderOperationsTouchBuffersAndPolls := by
  unfold Obligations.OnlyReaderOperationsTouchBuffersAndPolls
  intro i s t hreq hanti hcycle hrun h
  have hbuffers : t.tagType = s.tagType ∧ t.uidBuf = s.uidBuf := by
    refine advances_rel (P := fun u => u.tagType = s.tagType ∧ u.uidBuf = s.uidBuf) ⟨rfl, rfl⟩ h
      (fun _ _ _ hu => hu) (fun _ hu => hu) fun m hm u w hu he => ?_
    obtain ⟨htag, huid⟩ := (execMicro_frame he).buffers (buffers_untouched hreq hanti hcycle hrun m hm)
    exact ⟨htag.trans hu.1, huid.trans hu.2⟩
  refine ⟨hbuffers.1, hbuffers.2, fun hcrc => ?_⟩
  refine advances_rel (P := fun u => u.pollCount = s.pollCount ∧ u.polls = s.polls) ⟨rfl, rfl⟩ h
    (fun _ _ _ hu => hu) (fun _ hu => hu) fun m hm u w hu he => ?_
  obtain ⟨hcount, hpolls⟩ := (execMicro_frame he).polls (polls_untouched hreq hanti hcycle hrun hcrc m hm)
  exact ⟨hcount.trans hu.1, hpolls.trans hu.2⟩

/-! ## Results -/

/-- Operation `i` is still in progress in `t`, with no result written since `s` but `RESP` and `RESP_LEN` of a cycle. -/
structure InProgress (i : Instr) (s t : State) : Prop where
  op : t.op = some i
  busy : t.busy = s.busy
  status : t.status = s.status
  rdata : t.rdata = s.rdata
  running : i ≠ .run → t.running = s.running
  resp : i ≠ .pollCycle → i ≠ .run → t.resp = s.resp ∧ t.respLen = s.respLen

/-- The operation is over. -/
def Idle (t : State) : Prop := t.op = none ∧ t.busy = false ∧ t.running = false

theorem InProgress.atom {c : Params} {i : Instr} {s u t : State} (h : InProgress i s u)
    (ha : Machine.atom (program c i) u = .next t) : InProgress i s t ∨ (Idle t ∧ t.op = none) := by
  obtain ⟨out, keep, -, rfl⟩ | ⟨-, rfl⟩ | ⟨-, m, hm, -, he⟩ | ⟨-, -, rfl⟩ := atom_cases ha
  case inl | inr.inl | inr.inr.inr => exact .inl ⟨h.op, h.busy, h.status, h.rdata, h.running, h.resp⟩
  case inr.inr.inl =>
    obtain ⟨hop, hbusy, hstatus, hrdata, hrunning, hresp⟩ | hend := (execMicro_frame he).goes
    · refine .inl ⟨hop.trans h.op, hbusy.trans h.busy, hstatus.trans h.status, hrdata.trans h.rdata, ?running, ?resp⟩
      case running => exact fun hrun => (hrunning (running_frames hrun m hm)).trans (h.running hrun)
      case resp =>
        intro hcycle hrun
        obtain ⟨hr, hl⟩ := hresp (leaves_frames hcycle hrun m hm)
        exact ⟨hr.trans (h.resp hcycle hrun).1, hl.trans (h.resp hcycle hrun).2⟩
    · exact .inr ⟨hend, hend.1⟩

theorem Advances.inProgress_or_idle {i : Instr} {s t : State} (hop : s.op = some i) (h : Advances i s t) :
    InProgress i s t ∨ Idle t := by
  have hstart : InProgress i s s := ⟨hop, rfl, rfl, rfl, fun _ => rfl, fun _ _ => ⟨rfl, rfl⟩⟩
  obtain hrun | hone := h
  · rw [exec_eq_perform, perform] at hrun
    exact burst_until (fun _ _ hu ha => hu.atom ha) _ _ _ hstart hrun
  · exact (hstart.atom hone).imp_right And.left

/-- Settles O48. -/
theorem resultsAppearAtTheEnd : Obligations.ResultsAppearAtTheEnd := by
  unfold Obligations.ResultsAppearAtTheEnd
  intro i s t hop h
  obtain hk | hend := h.inProgress_or_idle hop
  · exact .inl ⟨hk.op, hk.busy, hk.status, hk.rdata, hk.running, hk.resp⟩
  · exact .inr hend

/-! ## What a step makes of the block: an advance of its operation, a block reset, or less -/

/-- From `s` to `t` the configuration and the lock stayed, and the trace only grew. -/
structure OutsideMove (s t : State) : Prop where
  cfg : t.cfg = s.cfg
  lockState : t.lockState = s.lockState
  grows : s.trace <+: t.trace

theorem step_advances_or_outside {s t : State} (h : step s = .next t) :
    (∃ i u e f, s.op = some i ∧ Advances i { s with env := e } u ∧ t = { u with env := f }) ∨
    (∃ e, s.env.head? = some .blockReset ∧ t = blockReset { s with env := e }) ∨ OutsideMove s t := by
  obtain ⟨-, ⟨rfl, -⟩ | ⟨e, rfl⟩ | ⟨i, u, f, hop, ⟨e, hu⟩, rfl⟩ | ⟨i, e, r, hop, -, -, ha⟩ | ⟨o, k, r, -, rfl⟩ |
    ⟨r, -, rfl⟩ | ⟨r, -, rfl⟩ | ⟨w, r, -, rfl⟩ | ⟨i, b, r, -, rfl⟩ | ⟨x, r, rfl⟩ | ⟨r, hr, rfl⟩⟩ := step_cases h
  · exact .inr (.inr ⟨rfl, rfl, List.prefix_refl _⟩)
  · exact .inr (.inr ⟨rfl, rfl, List.prefix_refl _⟩)
  · exact .inl ⟨i, u, e, f, hop, .inl hu, rfl⟩
  · exact .inl ⟨i, t, r, t.env, hop, .inr ha, rfl⟩
  · exact .inr (.inr ⟨rfl, rfl, List.prefix_append ..⟩)
  · exact .inr (.inr ⟨rfl, rfl, List.prefix_refl _⟩)
  · exact .inr (.inr ⟨rfl, rfl, List.prefix_append ..⟩)
  · exact .inr (.inr ⟨rfl, rfl, List.prefix_append ..⟩)
  · exact .inr (.inr ⟨rfl, rfl, List.prefix_refl _⟩)
  · exact .inr (.inr ⟨rfl, rfl, List.prefix_refl _⟩)
  · exact .inr (.inl ⟨r, hr, rfl⟩)

/-- Settles O49. -/
theorem theTraceOnlyGrows : Obligations.TheTraceOnlyGrows := by
  unfold Obligations.TheTraceOnlyGrows
  intro s t h
  obtain ⟨i, u, e, f, -, ha, rfl⟩ | ⟨e, hreset, rfl⟩ | hmove := step_advances_or_outside h
  · exact ⟨ha.keepsInputs.cfg, fun _ => ha.keepsInputs.grows⟩
  · exact ⟨rfl, fun hno => absurd hreset hno⟩
  · exact ⟨hmove.cfg, fun _ => hmove.grows⟩

/-! ## What opens the lock -/

/-- LOCK never opens the lock: the one step of its code that writes it shuts it (R212). -/
theorem lock_stays_locked {s t : State} (hs : s.lockState = .locked) (h : Advances .lock s t) : t.lockState = .locked := by
  refine advances_rel (P := fun u => u.lockState = .locked) hs h (fun _ _ _ hu => hu) (fun _ hu => hu)
    fun m hm u w hu he => ?_
  cases htouch : m.touchesLock with
  | false => exact ((execMicro_frame he).lock htouch).1.trans hu
  | true =>
    simp only [program, codeLock, List.mem_cons, List.not_mem_nil, or_false] at hm
    obtain rfl | rfl | rfl := hm
    · cases htouch
    · cases he; rfl
    · cases htouch

/-- UNLOCK and LOCK at their first step finish with DISABLED where the host may not drive the actuator (R226). -/
theorem atom_turned_away {c : Params} {i : Instr} {s : State} (hi : i = .unlock ∨ i = .lock) (hh : s.hold = .free)
    (hseq : s.seq = 0) (hoff : s.cfg.hostActuatorOps = false) :
    atom (program c i) s = .next (finish .disabled [.respNone] s) := by
  obtain rfl | rfl := hi <;> simp [atom, hh, hseq, program, codeUnlock, codeLock, execMicro, checks, hoff]

theorem turned_away_keeps_lock {i : Instr} {s t : State} (hi : i = .unlock ∨ i = .lock) (hinv : ActuatorInv s)
    (hop : s.op = some i) (hoff : s.cfg.hostActuatorOps = false) (h : Advances i s t) : t.lockState = s.lockState := by
  have hop' : s.op = some .unlock ∨ s.op = some .lock := by rw [hop]; exact hi.imp (congrArg some) (congrArg some)
  have hseq : s.seq = 0 := by
    by_contra hne
    simp [hinv.allowed hop' hne] at hoff
  have hatom := atom_turned_away (c := s.cfg) hi (hinv.free hop') hseq hoff
  obtain hrun | hone := h
  · have hend : rests (program s.cfg i) s (finish .disabled [.respNone] s) = true := rfl
    rw [exec_eq_perform, perform_of_runs (Runs.nil s) (by decide) hatom hend] at hrun
    cases hrun
    rfl
  · rw [hatom] at hone
    cases hone
    rfl

/-- An advance that changes the lock state is of UNLOCK or LOCK that the host may make, or of a cycle. -/
theorem Advances.of_lock_moved {i : Instr} {s t : State} (hinv : ActuatorInv s) (hop : s.op = some i) (h : Advances i s t)
    (hmoved : t.lockState ≠ s.lockState) :
    ((i = .unlock ∨ i = .lock) ∧ s.cfg.hostActuatorOps = true) ∨ i = .pollCycle ∨ i = .run := by
  by_cases hcycle : i = .pollCycle
  · exact .inr (.inl hcycle)
  by_cases hrun : i = .run
  · exact .inr (.inr hrun)
  by_cases hi : i = .unlock ∨ i = .lock
  · refine .inl ⟨hi, ?_⟩
    by_contra hoff
    exact hmoved (turned_away_keeps_lock hi hinv hop (by simpa using hoff) h)
  · obtain ⟨hunlock, hlock⟩ := not_or.mp hi
    have hk := h.keepsLock fun m hm => (lock_frames hunlock hlock hcycle hrun m hm).1
    exact absurd hk.lockState hmoved

/-- Settles O55: of the two operations of the host that write the lock, LOCK only shuts it. -/
theorem onlyUnlockAndCyclesOpenTheLock : Obligations.OnlyUnlockAndCyclesOpenTheLock := by
  unfold Obligations.OnlyUnlockAndCyclesOpenTheLock
  refine ⟨fun s t hinv h hlocked hopen => ?opens, fun s t hinv hoff h hmoved => ?moves⟩
  case opens =>
    obtain ⟨i, u, e, f, hop, ha, rfl⟩ | ⟨e, -, rfl⟩ | hmove := step_advances_or_outside h
    · have hu : u.lockState = .unlocked := hopen
      have hmoved : u.lockState ≠ s.lockState := by rw [hu, hlocked]; decide
      have hinv' : ActuatorInv { s with env := e } := ⟨hinv.free, hinv.allowed⟩
      obtain ⟨rfl | rfl, hon⟩ | rfl | rfl := ha.of_lock_moved hinv' hop hmoved
      · exact .inl ⟨hop, hon⟩
      · have hshut : u.lockState = .locked := lock_stays_locked (s := { s with env := e }) hlocked ha
        exact absurd (hu.symm.trans hshut) (by decide)
      · exact .inr (.inl hop)
      · exact .inr (.inr hop)
    · cases hopen
    · rw [hmove.lockState, hlocked] at hopen
      cases hopen
  case moves =>
    obtain ⟨i, u, e, f, hop, ha, rfl⟩ | ⟨e, hreset, rfl⟩ | hmove := step_advances_or_outside h
    · have hinv' : ActuatorInv { s with env := e } := ⟨hinv.free, hinv.allowed⟩
      obtain ⟨-, hon⟩ | rfl | rfl := ha.of_lock_moved hinv' hop hmoved
      · exact absurd (hoff.symm.trans hon) (by decide)
      · exact .inl hop
      · exact .inr (.inl hop)
    · exact .inr (.inr hreset)
    · exact absurd hmove.lockState hmoved

end Sys2Proof.Machine
end

section
/-! The port (R22, R23, R38, R40), block reset and the reset values (R37, R250): what one step on a stimulus of the host or on
block reset gives. -/

namespace Sys2Proof.Machine

/-! ## Host reads -/

theorem hostRead_of_value {r : PortReg} {s : State} {x : BitVec 16} (h : portValue r s = some x) :
    hostRead r s = .next { s with hostData := some x } := by
  simp [hostRead, h]

theorem hostRead_of_no_value {r : PortReg} {s : State} (h : portValue r s = none) :
    hostRead r s = .fault .unwrittenRead := by
  simp [hostRead, h]

section
variable {s : State} {r : PortReg} {rest : List Stimulus} (hc : s.cfg.ok = true) (he : s.env = .hostRead r :: rest)
include hc he

theorem step_hostRead_of_value {x : BitVec 16} (h : portValue r { s with env := rest } = some x) :
    step s = .next { s with env := rest, hostData := some x } := by
  rw [step_of_env_cons hc he]
  exact hostRead_of_value h

theorem step_hostRead_of_no_value (h : portValue r { s with env := rest } = none) : step s = .fault .unwrittenRead := by
  rw [step_of_env_cons hc he]
  exact hostRead_of_no_value h

end

/-- The result registers hold no value for the host while the block is busy (R40). -/
theorem portValue_of_busy {r : PortReg} {s : State} (hb : s.busy = true)
    (hr : r = .rdata ∨ r = .respLen ∨ r = .polls ∨ ∃ i, r = .resp i) : portValue r s = none := by
  obtain rfl | rfl | rfl | ⟨i, rfl⟩ := hr <;> simp [portValue, hb]

/-- Settles O11. -/
theorem resultReadsFaultWhileBusy : Obligations.ResultReadsFaultWhileBusy := by
  unfold Obligations.ResultReadsFaultWhileBusy
  exact ⟨fun s r rest hc he hb hr => step_hostRead_of_no_value hc he (portValue_of_busy hb hr),
    fun s rest hc he => step_hostRead_of_value hc he rfl⟩

/-! ## The fields of `STAT` (R23) -/

theorem bit_getLsbD_zero (b : Bool) : (bit b).getLsbD 0 = b := by
  cases b <;> rfl

/-- Two single bits around a field of three, with three zeros above: each stands at its place in the byte. -/
theorem statLayout_fields : ∀ (flag busy : BitVec 1) (code : BitVec 3),
    (0#3 ++ flag ++ code ++ busy).getLsbD 0 = busy.getLsbD 0 ∧ (0#3 ++ flag ++ code ++ busy).extractLsb' 1 3 = code ∧
    (0#3 ++ flag ++ code ++ busy).getLsbD 4 = flag.getLsbD 0 ∧ (0#3 ++ flag ++ code ++ busy).extractLsb' 5 3 = 0#3 := by
  decide

theorem statByte_fields (s : State) :
    (statByte s).getLsbD 0 = s.busy ∧ (statByte s).extractLsb' 1 3 = statusCode s.status ∧
    (statByte s).getLsbD 4 = s.overrun ∧ (statByte s).extractLsb' 5 3 = 0#3 := by
  obtain ⟨hbusy, hstatus, hover, hzeros⟩ := statLayout_fields (bit s.overrun) (bit s.busy) (statusCode s.status)
  exact ⟨hbusy.trans (bit_getLsbD_zero _), hstatus, hover.trans (bit_getLsbD_zero _), hzeros⟩

/-! ## Reads of every register -/

theorem step_hostRead_dataIn {s : State} {i : Fin 128} {rest : List Stimulus} (hc : s.cfg.ok = true)
    (he : s.env = .hostRead (.dataIn i) :: rest) :
    (∀ b, readCell s.dataIn i = some b → step s = .next { s with env := rest, hostData := some (b.setWidth 16) }) ∧
    (readCell s.dataIn i = none → step s = .fault .unwrittenRead) :=
  ⟨fun _ hcell => step_hostRead_of_value hc he (by simp [portValue, hcell]),
    fun hcell => step_hostRead_of_no_value hc he (by simp [portValue, hcell])⟩

/-- Settles O12. -/
theorem hostReadsReturnTheRegisters : Obligations.HostReadsReturnTheRegisters := by
  unfold Obligations.HostReadsReturnTheRegisters
  refine ⟨statByte_fields, ?idle, fun s i rest hc he => step_hostRead_dataIn hc he⟩
  intro s r rest hc he hb
  cases r with
  | stat => exact step_hostRead_of_value hc he rfl
  | rdata =>
    dsimp only
    split
    case h_1 b hv => exact step_hostRead_of_value hc he (by simp [portValue, hb, hv])
    case h_2 hv => exact step_hostRead_of_no_value hc he (by simp [portValue, hb, hv])
  | respLen => exact step_hostRead_of_value hc he (by simp [portValue, hb])
  | polls => exact step_hostRead_of_value hc he (by simp [portValue, hb])
  | resp i =>
    dsimp only
    split
    case h_1 b hv =>
      split
      case isTrue hlt => exact step_hostRead_of_value hc he (by simp [portValue, hb, hv, hlt])
      case isFalse hge => exact step_hostRead_of_no_value hc he (by simp [portValue, hb, hge])
    case h_2 hv => exact step_hostRead_of_no_value hc he (by simp [portValue, hb, hv])
  | dataIn i =>
    obtain ⟨hvalue, hnone⟩ := step_hostRead_dataIn hc he
    dsimp only
    split
    case h_1 b hv => exact hvalue b hv
    case h_2 hv => exact hnone hv

/-! ## Host writes -/

theorem step_of_hostWriteData {s : State} {i : Fin 128} {b : Byte} {rest : List Stimulus} (hc : s.cfg.ok = true)
    (he : s.env = .hostWriteData i b :: rest) (hb : s.busy = false) :
    step s = .next { s with env := rest, dataIn := writeCell s.dataIn i b } := by
  rw [step_of_env_cons hc he]
  simp [deliver, hostWriteData, hb]

/-- Settles O13. -/
theorem hostWritesDataIn : Obligations.HostWritesDataIn := by
  unfold Obligations.HostWritesDataIn
  refine ⟨fun s i b rest hc he hb => ?_, fun s i w rest hc he => step_of_env_cons hc he⟩
  exact ⟨writeCell s.dataIn i b, step_of_hostWriteData hc he hb, readCell_writeCell_same .., fun j hj =>
    readCell_writeCell_other _ _ _ _ hj, fun hwf => writeCell_wf hwf i.isLt⟩

/-! ## Block reset -/

theorem step_of_blockReset {s : State} {rest : List Stimulus} (hc : s.cfg.ok = true)
    (he : s.env = .blockReset :: rest) : step s = .next (blockReset { s with env := rest }) :=
  step_of_env_cons hc he

theorem noBytes2_get (i : Fin 2) : noBytes2[i] = none := by
  revert i; decide

theorem noBytes5_get (i : Fin 5) : noBytes5[i] = none := by
  revert i; decide

/-- Settles O15. -/
theorem blockResetSetsEveryRegister : Obligations.BlockResetSetsEveryRegister := by
  unfold Obligations.BlockResetSetsEveryRegister
  intro s rest hc he
  exact ⟨_, step_of_blockReset hc he, rfl, fun _ => rfl, rfl, rfl, rfl, rfl, rfl, noBytes5_get, rfl, rfl, rfl, rfl, rfl, rfl,
    rfl, rfl, rfl, rfl, rfl, noBytes2_get, noBytes5_get, rfl, rfl, rfl, rfl, rfl, rfl, rfl, rfl, rfl, rfl⟩

theorem defaultParams_ok : Params.default.ok = true := by decide

/-- Settles O16. -/
theorem resetValues : Obligations.ResetValues := by
  unfold Obligations.ResetValues
  exact ⟨rfl, rfl, rfl, rfl, rfl, rfl, rfl, rfl, rfl, rfl, rfl, rfl, rfl, rfl, rfl, rfl, defaultParams_ok⟩

end Sys2Proof.Machine
end

section
/-! The reader's answers (R60): every long enough list of bytes is the answers of a REQUEST, of an ANTICOLL, of a CALC_CRC and
of a cycle. The lists are cut pair by pair first, two bytes to a transaction, and read as bytes in the end. -/

namespace Sys2Proof.Machine

/-- REQUEST and ANTICOLL stage at most two bytes and read at most five, so an exchange takes at most 8 + 65535 + 1 + 5
transactions: the writes before the poll, the polls, the error register and the FIFO (R153). -/
theorem Exchange.exists_of_long_pairs {c : Params} (hok : c.ok = true) (framing : Byte) {payload : List Byte} {n : Nat}
    (hpayload : payload.length ≤ 2) (hn : n ≤ 5) {ps : List (Byte × Byte)} (hps : 65549 ≤ ps.length) :
    ∃ (e : Exchange) (more : List (Byte × Byte)),
      ps = e.pairs ++ more ∧ e.Fits c framing payload n ∧ e.pairs.length ≤ 65549 := by
  obtain ⟨hpolls, hpolls', -⟩ := ok_bounds hok
  have hprologue := prologueTxns_length_le c framing payload
  obtain ⟨e, more, hsplit, hfits⟩ := Exchange.exists_of_pairs c framing payload n ps hpolls (by omega)
  have hpairs := Exchange.pairs_le hfits
  exact ⟨e, more, hsplit, hfits, by omega⟩

theorem Exchange.exists_request_of_pairs {c : Params} (hok : c.ok = true) (m : Byte) {ps : List (Byte × Byte)}
    (hps : 65549 ≤ ps.length) :
    ∃ (e : Exchange) (more : List (Byte × Byte)), ps = e.pairs ++ more ∧ e.FitsRequest c m ∧ e.pairs.length ≤ 65549 :=
  Exchange.exists_of_long_pairs hok c.bitFramingShort (payload := [m]) (by simp) (by decide) hps

theorem Exchange.exists_anticoll_of_pairs {c : Params} (hok : c.ok = true) {ps : List (Byte × Byte)}
    (hps : 65549 ≤ ps.length) :
    ∃ (e : Exchange) (more : List (Byte × Byte)), ps = e.pairs ++ more ∧ e.FitsAnticoll c ∧ e.pairs.length ≤ 65549 := by
  obtain ⟨-, -, -, -, -, hread, -⟩ := ok_bounds hok
  exact Exchange.exists_of_long_pairs hok c.bitFramingFull (by simp) hread hps

theorem exists_cons_cons_of_two_le_length {α : Type} : ∀ {l : List α}, 2 ≤ l.length → ∃ x y t, l = x :: y :: t
  | x :: y :: t, _ => ⟨x, y, t, rfl⟩

/-- A CALC_CRC over `n` bytes takes `n + 3` writes, the polls and the reads of the two result registers (R168). -/
theorem CrcAnswers.exists_of_pairs (c : Params) (n : Nat) {ps : List (Byte × Byte)}
    (hps : n + 3 + c.pollMaxDiv + 2 ≤ ps.length) :
    ∃ (x : CrcAnswers) (more : List (Byte × Byte)), ps = x.pairs ++ more ∧ x.Fits c n := by
  obtain ⟨pre, polled, rfl, hpre⟩ : ∃ pre polled, ps = pre ++ polled ∧ pre.length = n + 3 :=
    ⟨ps.take (n + 3), ps.drop (n + 3), (List.take_append_drop _ _).symm, List.length_take_of_le (by omega)⟩
  rw [List.length_append] at hps
  obtain ⟨misses, hit, after, rfl, hp⟩ | ⟨misses, after, rfl, hp⟩ :=
    poll_splits c.divIrqCrcMask c.pollMaxDiv polled (by omega)
  · have hmisses := hp.inTime
    rw [List.length_append, List.length_cons] at hps
    obtain ⟨lo, hi, more, rfl⟩ := exists_cons_cons_of_two_le_length (l := after) (by omega)
    exact ⟨⟨pre, misses, some hit, lo, hi⟩, more, by simp [CrcAnswers.pairs], hpre, hp⟩
  · have hmisses := hp.all
    rw [List.length_append] at hps
    obtain ⟨lo, hi, more, rfl⟩ := exists_cons_cons_of_two_le_length (l := after) (by omega)
    exact ⟨⟨pre, misses, none, lo, hi⟩, more, by simp [CrcAnswers.pairs], hpre, hp⟩

/-- A cycle is a REQUEST and, when that finds a card, an ANTICOLL on the answers after it (R185). -/
theorem CycleAnswers.exists_of_pairs {c : Params} (hok : c.ok = true) {ps : List (Byte × Byte)}
    (hps : 2 * 65549 ≤ ps.length) :
    ∃ (x : CycleAnswers) (more : List (Byte × Byte)), ps = x.pairs ++ more ∧ x.Fits c := by
  obtain ⟨r, ps, rfl, hr, hrl⟩ := Exchange.exists_request_of_pairs hok c.reqMode (ps := ps) (by omega)
  by_cases hfound : r.ret = .ok
  · rw [List.length_append] at hps
    obtain ⟨a, more, rfl, ha, -⟩ := Exchange.exists_anticoll_of_pairs hok (ps := ps) (by omega)
    by_cases hread : a.ret = .ok
    · exact ⟨.uid r a, more, (List.append_assoc ..).symm, hr, hfound, ha, hread⟩
    · exact ⟨.noUid r a, more, (List.append_assoc ..).symm, hr, hfound, ha, hread⟩
  · exact ⟨.noTag r, ps, rfl, hr, hfound⟩

/-- From answers in pairs to answers in bytes: what the pairs leave over stands before the bytes left over. -/
theorem exists_bytes_of_exists_pairs {α : Type} {pairs : α → List (Byte × Byte)} {Fits : α → Prop} {l rest : List Byte}
    {ps : List (Byte × Byte)} (hl : l = flatPairs ps ++ rest) (h : ∃ x more, ps = pairs x ++ more ∧ Fits x) :
    ∃ x rest, l = flatPairs (pairs x) ++ rest ∧ Fits x := by
  obtain ⟨x, more, rfl, hx⟩ := h
  exact ⟨x, flatPairs more ++ rest, by rw [hl, flatPairs_append, List.append_assoc], hx⟩

/-- Settles O56: 150000 pairs are enough for each of the four. -/
theorem anyAnswersAreAnswered : Obligations.AnyAnswersAreAnswered := by
  unfold Obligations.AnyAnswersAreAnswered
  intro c l hok hl
  obtain ⟨ps, rest, hbytes, hps⟩ := pairs_of_bytes 150000 l (by omega)
  obtain ⟨-, -, -, hpolls, -⟩ := ok_bounds hok
  refine ⟨fun m => ?request, ?anticoll, fun n hn => ?crc, ?cycle⟩
  case request =>
    obtain ⟨e, more, hsplit, hfits, -⟩ := Exchange.exists_request_of_pairs hok m (ps := ps) (by omega)
    exact exists_bytes_of_exists_pairs hbytes ⟨e, more, hsplit, hfits⟩
  case anticoll =>
    obtain ⟨e, more, hsplit, hfits, -⟩ := Exchange.exists_anticoll_of_pairs hok (ps := ps) (by omega)
    exact exists_bytes_of_exists_pairs hbytes ⟨e, more, hsplit, hfits⟩
  case crc => exact exists_bytes_of_exists_pairs hbytes (CrcAnswers.exists_of_pairs c n (by omega))
  case cycle => exact exists_bytes_of_exists_pairs hbytes (CycleAnswers.exists_of_pairs hok (by omega))

end Sys2Proof.Machine
end

section
/-! The encodings (R90 to R106): the fields of a command word, what each operation code stands for, which words are rejected, the
canonical word, frames, chip command codes and card bytes. Decoding undoes encoding in each of the four formats, and from that
together with the canonical word follows that fields an operation does not use are ignored. -/

namespace Sys2Proof

/-! ## Fields (R90, R91) -/

/-- Settles O3. -/
theorem commandFieldsAreBitRanges : Obligations.CommandFieldsAreBitRanges := by
  unfold Obligations.CommandFieldsAreBitRanges
  intro w
  have hw := w.isLt
  simp only [opField, addrField, wdataField, lenField, rsvField, BitVec.extractLsb'_toNat, Nat.shiftRight_eq_div_pow]
  refine ⟨?_, trivial, trivial, trivial, ?_⟩ <;> omega

theorem opField_and (w m : Word) : opField (w &&& m) = opField w &&& opField m := BitVec.extractLsb'_and

/-! ## The operation code table (R92) -/

/-- Settles O4. -/
theorem operationCodesDecode : Obligations.OperationCodesDecode := by
  unfold Obligations.OperationCodesDecode
  intro w hr
  rw [decodeCommand_of_rsv hr, decodeOp]
  refine ⟨?_, ?_, ?_, ?_, ?_, ?_, ?_, ?_, ?_, ?_, ?_, ?_⟩ <;> exact fun hop => by rw [hop]; rfl

/-! ## Which words are rejected (R93, R94) -/

theorem encodeFormat_of_isReserved {i : Instr} (h : i.isReserved = true) : encodeFormat i = .command := by
  cases i <;> simp [Instr.isReserved, encodeFormat] at h ⊢

theorem wellFormed_of_isReserved {i : Instr} (h : i.isReserved = true) : i.wellFormed = true := by
  cases i <;> simp [Instr.isReserved, Instr.wellFormed, Instr.lenFits] at h ⊢

/-- What a command word can encode is an operation or a rejected word, and not both. -/
theorem isOperation_of_format {i : Instr} (h : encodeFormat i = .command) : i.isOperation = !i.isReserved := by
  cases i <;> simp [encodeFormat, Instr.isOperation, Instr.isReserved] at h ⊢

theorem decodeOp_format (w : Word) : encodeFormat (decodeOp w) = .command := by
  unfold decodeOp
  split <;> rfl

theorem lenField_lt (w : Word) : lenField w < 128 := (w.extractLsb' 18 7).isLt

theorem decodeOp_wellFormed (w : Word) : (decodeOp w).wellFormed = true := by
  unfold decodeOp
  split
  case h_8 => exact decide_eq_true (lenField_lt w)
  all_goals rfl

theorem exists_code (op : BitVec 4) : ∃ k < 16, op = BitVec.ofNat 4 k := ⟨op.toNat, op.isLt, by simp⟩

theorem decodeOp_isReserved_iff (w : Word) :
    (decodeOp w).isReserved = true ↔
      opField w = 0x0#4 ∨ opField w = 0xD#4 ∨ opField w = 0xE#4 ∨ opField w = 0xF#4 := by
  unfold decodeOp
  obtain ⟨k, hk, hop⟩ := exists_code (opField w)
  rw [hop]
  interval_cases k <;> simp [Instr.isReserved]

theorem decodeCommand_format (w : Word) : encodeFormat (decodeCommand w) = .command := by
  by_cases hr : rsvField w = 0#7
  · rw [decodeCommand_of_rsv hr]; exact decodeOp_format w
  · exact encodeFormat_of_isReserved (decodeCommand_of_rsv_ne hr)

theorem decodeCommand_wellFormed (w : Word) : (decodeCommand w).wellFormed = true := by
  by_cases hr : rsvField w = 0#7
  · rw [decodeCommand_of_rsv hr]; exact decodeOp_wellFormed w
  · exact wellFormed_of_isReserved (decodeCommand_of_rsv_ne hr)

theorem decodeCommand_isReserved_iff (w : Word) :
    (decodeCommand w).isReserved = true ↔
      rsvField w ≠ 0#7 ∨ opField w = 0x0#4 ∨ opField w = 0xD#4 ∨ opField w = 0xE#4 ∨ opField w = 0xF#4 := by
  by_cases hr : rsvField w = 0#7
  · rw [decodeCommand_of_rsv hr, decodeOp_isReserved_iff]; simp [hr]
  · simp [decodeCommand_of_rsv_ne hr, hr]

theorem decodeCommand_isOperation (w : Word) : (decodeCommand w).isOperation = !(decodeCommand w).isReserved :=
  isOperation_of_format (decodeCommand_format w)

/-- Settles O5. -/
theorem reservedWordsExactly : Obligations.ReservedWordsExactly := by
  unfold Obligations.ReservedWordsExactly
  exact fun w => ⟨decodeCommand_isReserved_iff w, decodeCommand_isOperation w, decodeCommand_wellFormed w⟩

/-! ## Canonical words decode by their code, with their fields as operands -/

theorem decodeCommand_encode (c : Params) {i : Instr} (hw : i.wellFormed = true) (hf : encodeFormat i = .command) :
    decodeCommand (encode c i) = i := by
  cases i
  case calcCrc n =>
    have hn : n < 128 := of_decide_eq_true hw
    simp [encode, decodeCommand_commandWord, decodeOp, opField_commandWord, lenField_commandWord, Nat.mod_eq_of_lt hn]
  case readReg a =>
    simp [encode, decodeCommand_commandWord, decodeOp, opField_commandWord, addrField_commandWord]
  case writeReg a v =>
    simp [encode, decodeCommand_commandWord, decodeOp, opField_commandWord, addrField_commandWord, wdataField_commandWord]
  case request m =>
    simp [encode, decodeCommand_commandWord, decodeOp, opField_commandWord, wdataField_commandWord]
  case frameRead | frameWrite | chipIdle | chipCalcCrc | chipTransceive | chipSoftReset | cardReqa | cardAnticollCl1 | cardNvb =>
    cases hf
  all_goals simp only [encode]; decide

/-! ## The canonical word (R91, R96) -/

/-- A bitwise "and" of command words goes field by field. -/
theorem commandWord_and (n n' : BitVec 7) (d d' : Byte) (a a' : Addr) (op op' : BitVec 4) :
    commandWord n d a op &&& commandWord n' d' a' op' = commandWord (n &&& n') (d &&& d') (a &&& a') (op &&& op') := by
  calc _ = (0#7 ++ n ++ d ++ a &&& 0#7 ++ n' ++ d' ++ a') ++ (op &&& op') := BitVec.and_append
    _ = _ := by simp only [BitVec.and_append, BitVec.and_self]; rfl

/-- The fields that each code uses, filled with ones (R92). -/
theorem usedBits_eq_commandWord (op : BitVec 4) :
    Machine.usedBits op = commandWord (if op = 0x7#4 then BitVec.allOnes 7 else 0#7)
      (if op = 0x2#4 ∨ op = 0x5#4 then BitVec.allOnes 8 else 0#8)
      (if op = 0x1#4 ∨ op = 0x2#4 then BitVec.allOnes 6 else 0#6) (BitVec.allOnes 4) := by
  revert op; decide

/-- The canonical word keeps `LEN` for CALC_CRC, `WDATA` for WRITE_REG and REQUEST, `ADDR` for READ_REG and WRITE_REG. -/
theorem commandWord_and_usedBits (n : BitVec 7) (d : Byte) (a : Addr) (op o : BitVec 4) :
    commandWord n d a op &&& Machine.usedBits o = commandWord (if o = 0x7#4 then n else 0#7)
      (if o = 0x2#4 ∨ o = 0x5#4 then d else 0#8) (if o = 0x1#4 ∨ o = 0x2#4 then a else 0#6) op := by
  rw [usedBits_eq_commandWord, commandWord_and, BitVec.and_allOnes]
  congr 1 <;> split <;> simp only [BitVec.and_allOnes, BitVec.and_zero]

theorem opField_and_usedBits (w : Word) (o : BitVec 4) : opField (w &&& Machine.usedBits o) = opField w := by
  rw [opField_and, usedBits_eq_commandWord, opField_commandWord, BitVec.and_allOnes]

/-- Code by code: the operands of each row of R92 are the fields whose bits it uses. -/
theorem encode_decodeOp_commandWord (c : Params) (n : BitVec 7) (d : Byte) (a : Addr) (op : BitVec 4) :
    encode c (decodeOp (commandWord n d a op)) = commandWord n d a op &&& Machine.usedBits op := by
  rw [commandWord_and_usedBits, decodeOp, opField_commandWord, addrField_commandWord, wdataField_commandWord,
    lenField_commandWord]
  obtain ⟨k, hk, rfl⟩ := exists_code op
  interval_cases k <;> simp [encode, plainWord]

theorem rsvField_of_isOperation {w : Word} (hi : (decodeCommand w).isOperation = true) : rsvField w = 0#7 := by
  by_contra hr
  simp [decodeCommand_isOperation, decodeCommand_of_rsv_ne hr] at hi

theorem encode_decodeCommand (c : Params) {w : Word} (hi : (decodeCommand w).isOperation = true) :
    encode c (decodeCommand w) = w &&& Machine.usedBits (opField w) := by
  have hr := rsvField_of_isOperation hi
  have hfields := encode_decodeOp_commandWord c (w.extractLsb' 18 7) (wdataField w) (addrField w) (opField w)
  rwa [commandWord_fields hr, ← decodeCommand_of_rsv hr] at hfields

/-- An operation is the decoding of its canonical word. -/
theorem decodeCommand_and_usedBits {w : Word} (hi : (decodeCommand w).isOperation = true) :
    decodeCommand (w &&& Machine.usedBits (opField w)) = decodeCommand w := by
  rw [← encode_decodeCommand Params.default hi]
  exact decodeCommand_encode _ (decodeCommand_wellFormed w) (decodeCommand_format w)

/-- Settles O6. -/
theorem reencodingGivesTheCanonicalWord : Obligations.ReencodingGivesTheCanonicalWord := by
  unfold Obligations.ReencodingGivesTheCanonicalWord
  intro c w hi
  exact ⟨encode_decodeCommand c hi, decodeCommand_and_usedBits hi, by rw [encode_decodeCommand c hi]⟩

theorem isOperation_congr {w w' : Word} (hr : rsvField w = 0#7) (hr' : rsvField w' = 0#7) (hop : opField w' = opField w) :
    (decodeCommand w').isOperation = (decodeCommand w).isOperation := by
  rw [decodeCommand_isOperation, decodeCommand_isOperation, Bool.not_inj_iff, Bool.eq_iff_iff, decodeCommand_isReserved_iff,
    decodeCommand_isReserved_iff, hr, hr', hop]

/-- Settles O7: the two words have one canonical word. -/
theorem ignoredFieldsAreIgnored : Obligations.IgnoredFieldsAreIgnored := by
  unfold Obligations.IgnoredFieldsAreIgnored
  intro w w' hi hr' hused
  have hop : opField w' = opField w := by
    rw [← opField_and_usedBits w' (opField w), hused, opField_and_usedBits]
  have hi' : (decodeCommand w').isOperation = true := (isOperation_congr (rsvField_of_isOperation hi) hr' hop).trans hi
  calc decodeCommand w' = decodeCommand (w' &&& Machine.usedBits (opField w')) := (decodeCommand_and_usedBits hi').symm
    _ = decodeCommand (w &&& Machine.usedBits (opField w)) := by rw [hop, hused]
    _ = decodeCommand w := decodeCommand_and_usedBits hi

/-! ## Frames (R100, R101) -/

/-- The parts of a frame, from bit 7 down. -/
theorem frame_eq_append (a : Addr) (rd : Bool) : frame a rd = BitVec.ofBool rd ++ a ++ 0#1 := by
  revert a rd; decide

theorem frame_toNat (a : Addr) (rd : Bool) : (frame a rd).toNat = 2 * a.toNat + (if rd then 128 else 0) := by
  revert a rd; decide

theorem frame_bit_zero (a : Addr) (rd : Bool) : (frame a rd).getLsbD 0 = false := by
  rw [frame_eq_append, BitVec.getLsbD_append]; rfl

theorem frame_bit_seven (a : Addr) (rd : Bool) : (frame a rd).getLsbD 7 = rd := by
  rw [frame_eq_append, BitVec.getLsbD_append, BitVec.getLsbD_append]; cases rd <;> rfl

theorem frame_address (a : Addr) (rd : Bool) : (frame a rd).extractLsb' 1 6 = a := by
  revert a rd; decide

theorem decodeFrame_frame (a : Addr) (rd : Bool) :
    decodeFrame (frame a rd) = .ok (if rd then .frameRead a else .frameWrite a) := by
  simp only [decodeFrame, frame_bit_zero, frame_bit_seven, frame_address]
  cases rd <;> rfl

theorem decodeFrame_of_odd {b : Byte} (h : b.getLsbD 0 = true) : decodeFrame b = .error .oddFrame := by
  simp [decodeFrame, h]

/-- An even byte is the frame of its bits 6:1 and bit 7. -/
theorem frame_of_even {b : Byte} (h : b.getLsbD 0 = false) : frame (b.extractLsb' 1 6) (b.getLsbD 7) = b := by
  revert b; decide

/-- Settles O8. -/
theorem frameBytes : Obligations.FrameBytes := by
  unfold Obligations.FrameBytes
  exact ⟨fun a rd => ⟨frame_bit_zero a rd, frame_bit_seven a rd, frame_toNat a rd⟩,
    fun a => ⟨decodeFrame_frame a true, decodeFrame_frame a false⟩, fun b hb => ⟨_, _, frame_of_even hb⟩,
    fun b => decodeFrame_of_odd⟩

/-! ## All four formats -/

theorem decodeByte_setWidth (f : Byte → Except Reject Instr) (b : Byte) : decodeByte f (b.setWidth 32) = f b := by
  have hlt : (b.setWidth 32).toNat < 256 := by rw [BitVec.toNat_setWidth_of_le (by decide)]; exact b.isLt
  rw [decodeByte, if_pos hlt, BitVec.setWidth_setWidth_of_le _ (by decide), BitVec.setWidth_eq]

theorem chipByte_inj {x y : BitVec 4} : chipByte x = chipByte y ↔ x = y := by
  revert x y; decide

/-- The parameters do not enter the decoding of a command word or a frame. -/
theorem decode_encode (c : Params) {i : Instr} (hw : i.wellFormed = true)
    (hf : encodeFormat i = .command ∨ encodeFormat i = .busFrame) : decode c (encodeFormat i) (encode c i) = .ok i := by
  rcases hf with hf | hf
  · rw [hf]; exact congrArg Except.ok (decodeCommand_encode c hw hf)
  · cases i
    case frameRead a => exact (decodeByte_setWidth decodeFrame _).trans (decodeFrame_frame a true)
    case frameWrite a => exact (decodeByte_setWidth decodeFrame _).trans (decodeFrame_frame a false)
    all_goals cases hf

theorem decode_encode_chip {c : Params} {i : Instr} (hc : [c.cmdIdle, c.cmdCalcCrc, c.cmdTransceive, c.cmdSoftReset].Nodup)
    (hf : encodeFormat i = .commandRegister) : decode c (encodeFormat i) (encode c i) = .ok i := by
  simp only [List.nodup_cons, List.mem_cons, List.not_mem_nil, or_false, not_or] at hc
  cases i
  case chipIdle | chipCalcCrc | chipTransceive | chipSoftReset =>
    simp [decode, encodeFormat, encode, decodeByte_setWidth, decodeChipCommand, chipByte_inj, hc, eq_comm]
  all_goals cases hf

theorem decode_encode_card {c : Params} {i : Instr} (hc : [c.reqMode, c.piccAnticoll, c.nvbAnticoll].Nodup)
    (hf : encodeFormat i = .cardByte) : decode c (encodeFormat i) (encode c i) = .ok i := by
  simp only [List.nodup_cons, List.mem_cons, List.not_mem_nil, or_false, not_or] at hc
  cases i
  case cardReqa | cardAnticollCl1 | cardNvb =>
    simp [decode, encodeFormat, encode, decodeByte_setWidth, decodeCardByte, hc, eq_comm]
  all_goals cases hf

/-- Settles O2. -/
theorem decodingUndoesEncoding : Obligations.DecodingUndoesEncoding := by
  unfold Obligations.DecodingUndoesEncoding
  refine ⟨fun c i => decode_encode c, fun c i hw hchip hcard => ?_⟩
  cases hf : encodeFormat i
  case command => exact hf ▸ decode_encode c hw (.inl hf)
  case busFrame => exact hf ▸ decode_encode c hw (.inr hf)
  case commandRegister => exact hf ▸ decode_encode_chip hchip hf
  case cardByte => exact hf ▸ decode_encode_card hcard hf

/-- Settles O1. -/
theorem specWordsDecode : Obligations.SpecWordsDecode := by
  unfold Obligations.SpecWordsDecode
  decide

end Sys2Proof
end

section
/-! The bus frames (R100, R102), chip command codes (R103) and card bytes (R105) run by themselves (entry 11): one register
transaction each. -/

namespace Sys2Proof.Machine

theorem exec_read {i : Instr} {s : State} {a : Addr} {y z : Byte} {rest : List Byte} (h : Ready i s)
    (hp : program s.cfg i = readReg s.cfg a ++ [.retire]) (ha : s.answers = y :: z :: rest) :
    ∃ k, exec i s = .next { s with
      op := none, busy := false, running := false, seq := k, v := z, trace := s.trace ++ readEvents s.cfg a y z
      answers := rest, draws := s.draws + 2 } := by
  have hc : CodeAt (readReg s.cfg a ++ [.retire]) s.seq (readReg s.cfg a ++ [.retire]) := h.seq ▸ CodeAt.whole _
  have hread := (runs_read hc.left h.going ha).gets
  rw [exec_eq_perform, hp]
  refine next_exists_seq (perform_ends (m := .retire) hread (by decide) hc.right.head rfl rfl rfl) ?_
  simp [retire, State.moved, h.hold, h.cs, h.xfers]

/-- Settles O37. -/
theorem framesOpenTheirTransaction : Obligations.FramesOpenTheirTransaction := by
  unfold Obligations.FramesOpenTheirTransaction
  exact ⟨fun s a x v rest h ha => exec_read h rfl ha, fun s a x y rest h ha => exec_write h rfl rfl ha⟩

theorem program_of_byteWrite {c : Params} {i : Instr} {a : Addr} {b : Byte} (h : byteWrite c i = some (a, b)) :
    program c i = writeReg a (.imm b) ++ [.retire] := by
  cases i
  case chipIdle | chipCalcCrc | chipTransceive | chipSoftReset | cardReqa | cardAnticollCl1 | cardNvb => cases h; rfl
  all_goals cases h

/-- Settles O38. -/
theorem chipAndCardBytesAreWritten : Obligations.ChipAndCardBytesAreWritten := by
  unfold Obligations.ChipAndCardBytesAreWritten
  exact fun s i a b x y rest hi h ha => exec_write h (program_of_byteWrite hi) rfl ha

end Sys2Proof.Machine
end

section
/-! READ_REG and WRITE_REG (R124 to R126): an operation whose code is its checks, one piece of bus traffic and a `Finish`. -/

namespace Sys2Proof.Machine

/-- An accepted operation without checks whose code between them and the `Finish` is the bus traffic `q`. -/
theorem Ready.exec_traffic {i : Instr} {s : State} {q : Code} {st : Status} {ws : List ResWrite} {K d : Nat}
    {ev : List Event} {rest : List Byte} {v : Byte} (h : Ready i s)
    (hp : program s.cfg i = [.checks .free] ++ q ++ [.finish st ws]) (hK : 1 + K < burstBound)
    (hq : ∀ p, CodeAt p s.advance.seq q → Gets p K s.advance (s.advance.moved ev rest d v q.length)) :
    exec i s = .next (finish st ws (s.advance.moved ev rest d v q.length)) := by
  have hc : CodeAt (program s.cfg i) s.seq ([.checks .free] ++ q ++ [.finish st ws]) :=
    h.seq ▸ hp ▸ CodeAt.whole _
  have hchecks : Gets (program s.cfg i) 1 s s.advance := h.checksFree (by rw [hp]; rfl)
  have hfinish : (program s.cfg i)[(s.advance.moved ev rest d v q.length).seq]? = some (.finish st ws) :=
    at_of hc.right.head (by simp; omega)
  rw [exec_eq_perform]
  exact perform_ends (hchecks.append (hq _ hc.left.right)) hK hfinish rfl rfl rfl

/-- Settles O18: the bus traffic is one read transaction, whose second byte is bound to `v` (R125). -/
theorem readRegReturnsTheSecondByte : Obligations.ReadRegReturnsTheSecondByte := by
  unfold Obligations.ReadRegReturnsTheSecondByte
  intro s a x v rest h ha
  have hrun := h.exec_traffic rfl (by decide) fun p hc => (runs_read hc h.going.advance ha).gets
  refine next_exists_seq hrun ?_
  simp [finish, endOp, resWrites, resWrite, State.ended, State.moved, State.advance, h.hold, h.cs, h.xfers]

/-- Settles O19: the bus traffic is one write transaction, which binds nothing. -/
theorem writeRegSendsTheByte : Obligations.WriteRegSendsTheByte := by
  unfold Obligations.WriteRegSendsTheByte
  intro s a b x y rest h ha
  have hrun := h.exec_traffic rfl (by decide) fun p hc => (runs_write hc h.going.advance rfl ha).gets
  refine next_exists_seq hrun ?_
  simp [finish, endOp, resWrites, resWrite, State.ended, State.moved, State.advance, h.hold, h.cs, h.xfers]

end Sys2Proof.Machine
end

section
/-! Faults (R229): where a step can end in one, and which it is where bus and sequencer agree. -/

namespace Sys2Proof.Machine

theorem onNext_fault {r : Result} {g : State → State} {f : Fault} (h : onNext r g = .fault f) : r = .fault f := by
  cases r with
  | next s => cases h
  | fault x => exact h
  | refused x => cases h

theorem hostRead_fault {r : PortReg} {s : State} {f : Fault} (h : hostRead r s = .fault f) : f = .unwrittenRead := by
  unfold hostRead at h
  split at h
  · cases h
  · exact (Host.Outcome.fault.inj h).symm

/-- The bus invariant does not speak of the stimuli still to come. -/
theorem BusInv.withEnv {s : State} (h : BusInv s) (e : List Stimulus) : BusInv { s with env := e } :=
  ⟨h.shape, h.closed, h.busy, h.idle, h.fits, h.held, h.seqUsed⟩

theorem BusInv.atom_fault {s : State} {i : Instr} {f : Fault} (h : BusInv s) (hop : s.op = some i)
    (ha : Machine.atom (program s.cfg i) s = .fault f) : f = .unwrittenRead :=
  Machine.atom_fault (sound_program s.cfg i) (h.at hop) ha

/-- Operation `i` runs under parameters `c` with bus and sequencer in agreement. -/
structure InAgreement (c : Params) (i : Instr) (s : State) : Prop where
  bus : BusInv s
  op : s.op = some i
  cfg : s.cfg = c

/-- An atomic step after which the run goes on has not ended the operation. -/
theorem InAgreement.atom {c : Params} {i : Instr} {s t : State} (h : InAgreement c i s)
    (ha : Machine.atom (program c i) s = .next t) (hr : rests (program c i) s t = false) : InAgreement c i t := by
  obtain ⟨hbus, hop, rfl⟩ := h
  refine ⟨hbus.atom hop ha, ?op, (atom_frame ha).2.2.2.1⟩
  obtain ⟨hsame, -⟩ | ⟨hnone, -⟩ := atom_goes ha
  · exact hsame.trans hop
  · simp [rests, hnone] at hr

theorem BusInv.exec_fault {s : State} {i : Instr} {f : Fault} (h : BusInv s) (hop : s.op = some i)
    (hf : exec i s = .fault f) : f = .unwrittenRead := by
  rw [exec_eq_perform] at hf
  exact burst_fault (P := InAgreement s.cfg i) (fun _ _ hu => hu.atom)
    (fun u hu ha => hu.bus.atom_fault hu.op (hu.cfg ▸ ha)) _ s ⟨h, hop, rfl⟩ hf

theorem BusInv.undisturbed_fault {s : State} {f : Fault} (h : BusInv s) (hf : undisturbed s = .fault f) :
    f = .unwrittenRead := by
  unfold undisturbed at hf
  split at hf
  case h_1 => cases hf
  case h_2 i hop => exact h.exec_fault hop hf

theorem BusInv.sequencerStep_fault {s : State} {f : Fault} (h : BusInv s) (hf : sequencerStep s = .fault f) :
    f = .unwrittenRead := by
  unfold sequencerStep at hf
  split at hf
  case h_1 i hop _ => exact h.atom_fault hop hf
  case h_2 => cases hf

/-- Of the stimuli only a step of the sequencer, a host read and a run while the host awaits idle can fault. -/
theorem BusInv.deliver_fault {s : State} {e : Stimulus} {f : Fault} (h : BusInv s) (hf : deliver e s = .fault f) :
    f = .unwrittenRead := by
  cases e with
  | go => exact h.sequencerStep_fault hf
  | busDone => simp only [deliver, busAgent] at hf; split at hf <;> cases hf
  | timerDone => simp only [deliver, timerAgent] at hf; split at hf <;> cases hf
  | hostWriteCmd w => cases hf
  | hostWriteData i b => cases hf
  | hostWriteOutput i w => cases hf
  | hostRead r => exact hostRead_fault hf
  | hostAwaitIdle =>
    simp only [deliver] at hf
    split at hf
    case isTrue => exact h.undisturbed_fault (onNext_fault hf)
    case isFalse => cases hf
  | blockReset => cases hf

/-- Settles O53: a step delivers a stimulus or runs the operation undisturbed. -/
theorem noProtocolOrActuatorFault : Obligations.NoProtocolOrActuatorFault := by
  unfold Obligations.NoProtocolOrActuatorFault
  intro s f h hf
  unfold step at hf
  split at hf
  case isTrue =>
    split at hf
    case h_1 => exact h.undisturbed_fault hf
    case h_2 e rest _ => exact (h.withEnv rest).deliver_fault hf
  case isFalse => cases hf

end Sys2Proof.Machine
end

section
/-! Holds (R120, R236): each is lifted by its own agent, and every other move leaves the wait and the step pointer alone. -/

namespace Sys2Proof.Machine

/-! ## The agents -/

theorem busAgent_of_bus {s : State} {out : Byte} {keep : Bool} (h : s.hold = .bus out keep) :
    busAgent s = .next (completeXfer out keep s) := by
  simp [busAgent, h]

theorem busAgent_of_timer {s : State} (h : s.hold = .timer) : busAgent s = .next s := by
  simp [busAgent, h]

theorem timerAgent_of_timer {s : State} (h : s.hold = .timer) : timerAgent s = .next (completeDelay s) := by
  simp [timerAgent, h]

theorem timerAgent_of_not_timer {s : State} (h : s.hold ≠ .timer) : timerAgent s = .next s := by
  unfold timerAgent
  split
  case h_1 ht => exact absurd ht h
  all_goals rfl

theorem sequencerStep_of_held {s : State} (h : s.hold ≠ .free) : sequencerStep s = .next s := by
  unfold sequencerStep
  split
  case h_1 hfree => exact absurd hfree h
  case h_2 => rfl

theorem step_of_busDone {s : State} {out : Byte} {keep : Bool} {env : List Stimulus} (hc : s.cfg.ok = true)
    (hh : s.hold = .bus out keep) (he : s.env = .busDone :: env) :
    step s = .next (completeXfer out keep { s with env := env }) :=
  (step_of_env_cons hc he).trans (busAgent_of_bus (s := { s with env := env }) hh)

theorem step_of_timerDone {s : State} {env : List Stimulus} (hc : s.cfg.ok = true) (hh : s.hold = .timer)
    (he : s.env = .timerDone :: env) : step s = .next (completeDelay { s with env := env }) :=
  (step_of_env_cons hc he).trans (timerAgent_of_timer (s := { s with env := env }) hh)

/-! ## Moves that leave a wait alone -/

/-- From `s` to `t` the wait and the step pointer stayed. -/
structure KeepsHold (s t : State) : Prop where
  hold : t.hold = s.hold
  seq : t.seq = s.seq

theorem KeepsHold.of_next {r : Result} {s t : State} (hr : r = .next s) (h : r = .next t) : KeepsHold s t := by
  cases hr.symm.trans h
  exact ⟨rfl, rfl⟩

theorem hostRead_keepsHold {r : PortReg} {s t : State} (h : hostRead r s = .next t) : KeepsHold s t := by
  unfold hostRead at h
  split at h
  · cases h
    exact ⟨rfl, rfl⟩
  · cases h

theorem hostWriteData_keepsHold (i : Nat) (b : Byte) (s : State) : KeepsHold s (hostWriteData i b s) := by
  unfold hostWriteData
  split <;> exact ⟨rfl, rfl⟩

theorem hostWriteCmd_of_busy {s : State} (w : Word) (hb : s.busy = true) : hostWriteCmd w s = overrun s := by
  simp [hostWriteCmd, hb]

theorem hostWriteCmd_keepsHold {s : State} (w : Word) (hb : s.busy = true) : KeepsHold s (hostWriteCmd w s) := by
  rw [hostWriteCmd_of_busy w hb]
  exact ⟨rfl, rfl⟩

/-- Settles O14: one equation or one `KeepsHold` for each move. -/
theorem holdsAreLiftedByTheirAgentsOnly : Obligations.HoldsAreLiftedByTheirAgentsOnly := by
  unfold Obligations.HoldsAreLiftedByTheirAgentsOnly
  refine ⟨?prepared, ?unprepared, fun s env hc hh he => step_of_timerDone hc hh he, ?others⟩
  case prepared =>
    intro s b keep y rest env hc hh he ha
    rw [step_of_busDone hc hh he]
    simp [completeXfer, nextAnswer, ha]
  case unprepared =>
    intro s b keep env hc hh he ha
    refine ⟨nextAnswer { s with env := env }, ?_⟩
    rw [step_of_busDone hc hh he]
    simp [completeXfer, ha]
  case others =>
    intro s t e env hc hh he hmove h
    rw [step_of_env_cons hc he] at h
    have hkeeps : KeepsHold { s with env := env } t := by
      obtain rfl | ⟨rfl, ht⟩ | ⟨rfl, ht⟩ | ⟨r, rfl⟩ | ⟨i, b, rfl⟩ | ⟨hb, w, rfl⟩ := hmove
      · exact .of_next (sequencerStep_of_held hh) h
      · exact .of_next (busAgent_of_timer ht) h
      · exact .of_next (timerAgent_of_not_timer ht) h
      · exact hostRead_keepsHold h
      · cases h
        exact hostWriteData_keepsHold ..
      · cases h
        exact hostWriteCmd_keepsHold w hb
    exact ⟨hkeeps.hold, hkeeps.seq⟩

end Sys2Proof.Machine
end

section
/-! RESET_READER and ANTENNA_ON (R144, R145, R150, R151): an operation whose code is its checks, one piece of bus traffic and a
`Finish`; and what the hypothesis `Readback` (R67) makes of the read of a second ANTENNA_ON. -/

namespace Sys2Proof.Machine

theorem finish_respNone (st : Status) (s : State) : finish st [.respNone] s = endOp st { s with respLen := 0#3 } := rfl

/-- An accepted operation after bus traffic and `Finish(st, RESP_LEN <- 0)`, in the terms of Safety. -/
theorem Ready.finish_moved {i : Instr} {s : State} (h : Ready i s) (st : Status) (ev : List Event) (rest : List Byte)
    (d : Nat) (v : Byte) (n : Nat) :
    finish st [.respNone] (s.advance.moved ev rest d v n) =
      { s.ended st ev rest d with seq := s.seq + 1 + n, v := v, respLen := 0#3 } := by
  simp [finish_respNone, endOp, State.ended, State.moved, State.advance, h.hold, h.cs, h.xfers]

/-! ## RESET_READER -/

/-- The soft-reset code and the settle delay (R144, R145). -/
theorem gets_softReset {p : Code} {s : State} {x y : Byte} {rest : List Byte}
    (hc : CodeAt p s.seq (chipCommand s.cfg s.cfg.cmdSoftReset ++ delay s.cfg.resetSettleMs)) (g : Going s)
    (ha : s.answers = x :: y :: rest) :
    Gets p 8 s (s.moved (writeEvents s.cfg.regCommand (chipByte s.cfg.cmdSoftReset) x y ++ delayEvents s.cfg.resetSettleMs)
      rest 2 s.v (chipCommand s.cfg s.cfg.cmdSoftReset ++ delay s.cfg.resetSettleMs).length) := by
  have hwrite := runs_write hc.left g rfl ha
  have hdelay := runs_delay hc.right (g.moved
    (writeEvents s.cfg.regCommand (chipByte s.cfg.cmdSoftReset) x y) rest 2 s.v 4)
  have hlen := delay_length_le s.cfg.resetSettleMs
  exact (hwrite.append hdelay).gets.cast (by omega) (by rw [State.moved_moved, List.length_append]; rfl)

/-- Settles O20. -/
theorem resetReaderWritesAndSettles : Obligations.ResetReaderWritesAndSettles := by
  unfold Obligations.ResetReaderWritesAndSettles
  intro s x y rest h ha
  have hrun := h.exec_traffic rfl (by decide) fun p hc => gets_softReset hc h.going.advance ha
  exact ⟨_, hrun.trans (congrArg _ (h.finish_moved ..))⟩

/-! ## ANTENNA_ON -/

/-- The bus traffic of ANTENNA_ON: the read, the test, and the write that the test can pass over (R150). -/
def antennaTraffic (c : Params) : Code :=
  readReg c c.regTxControl ++ [.unlessBits c.antennaMask 4] ++ writeReg c.regTxControl (.varOr c.antennaMask)

section
variable {p : Code} {s : State} {x v : Byte} {rest : List Byte}

theorem gets_antenna_on (hc : CodeAt p s.seq (antennaTraffic s.cfg)) (g : Going s)
    (hv : v &&& s.cfg.antennaMask ≠ 0#8) (ha : s.answers = x :: v :: rest) :
    Gets p 7 s (s.moved (readEvents s.cfg s.cfg.regTxControl x v) rest 2 v (antennaTraffic s.cfg).length) := by
  have hread := (runs_read hc.left.left g ha).gets
  refine hread.append ((g.moved ..).micro hc.left.right.head ?_ (g.moved ..) (by simp))
  simp [execMicro, anyBit, hv, State.skip, State.moved, antennaTraffic]

theorem gets_antenna_off {y z : Byte} (hc : CodeAt p s.seq (antennaTraffic s.cfg)) (g : Going s)
    (hv : v &&& s.cfg.antennaMask = 0#8) (ha : s.answers = x :: v :: y :: z :: rest) :
    Gets p 13 s (s.moved (readEvents s.cfg s.cfg.regTxControl x v ++
      writeEvents s.cfg.regTxControl (v ||| s.cfg.antennaMask) y z) rest 4 v (antennaTraffic s.cfg).length) := by
  have hread := (runs_read hc.left.left g ha).gets
  have htest : Gets p 1 (s.moved (readEvents s.cfg s.cfg.regTxControl x v) (y :: z :: rest) 2 v 4)
      (s.moved (readEvents s.cfg s.cfg.regTxControl x v) (y :: z :: rest) 2 v 5) :=
    (g.moved ..).micro hc.left.right.head (by simp [execMicro, anyBit, hv, State.advance, State.moved]) (g.moved ..) (by simp)
  have hwrite := (runs_write (s := s.moved (readEvents s.cfg s.cfg.regTxControl x v) (y :: z :: rest) 2 v 5)
    hc.right (g.moved ..) rfl rfl).gets
  exact ((hread.append htest).append hwrite).cast (by omega) (State.moved_moved ..)

end

section
variable {s : State} {x v : Byte} {rest : List Byte}

/-- ANTENNA_ON that finds an antenna bit set. -/
theorem antennaOn_runs_on (h : Ready .antennaOn s) (hv : v &&& s.cfg.antennaMask ≠ 0#8) (ha : s.answers = x :: v :: rest) :
    ∃ k, exec .antennaOn s = .next
      { s.ended .ok (readEvents s.cfg s.cfg.regTxControl x v) rest 2 with seq := k, v := v, respLen := 0#3 } := by
  have hrun := h.exec_traffic (q := antennaTraffic s.cfg) rfl (by decide) fun p hc => gets_antenna_on hc h.going.advance hv ha
  exact ⟨_, hrun.trans (congrArg _ (h.finish_moved ..))⟩

/-- ANTENNA_ON that finds no antenna bit set. -/
theorem antennaOn_runs_off {y z : Byte} (h : Ready .antennaOn s) (hv : v &&& s.cfg.antennaMask = 0#8)
    (ha : s.answers = x :: v :: y :: z :: rest) :
    ∃ k, exec .antennaOn s = .next
      { s.ended .ok (readEvents s.cfg s.cfg.regTxControl x v ++
          writeEvents s.cfg.regTxControl (v ||| s.cfg.antennaMask) y z) rest 4 with
        seq := k, v := v, respLen := 0#3 } := by
  have hrun := h.exec_traffic (q := antennaTraffic s.cfg) rfl (by decide) fun p hc => gets_antenna_off hc h.going.advance hv ha
  exact ⟨_, hrun.trans (congrArg _ (h.finish_moved ..))⟩

end

/-- Settles O21. -/
theorem antennaOnWritesOnlyWhenBothBitsAreOff : Obligations.AntennaOnWritesOnlyWhenBothBitsAreOff := by
  unfold Obligations.AntennaOnWritesOnlyWhenBothBitsAreOff
  exact ⟨fun s x v y z rest h hv ha => antennaOn_runs_off h hv ha, fun s x v rest h hv ha => antennaOn_runs_on h hv ha⟩

/-! ## ANTENNA_ON after ANTENNA_ON, under `Readback` -/

theorem regTxControl_ne_regCommand {c : Params} (hok : c.ok = true) : c.regTxControl ≠ c.regCommand := by
  simp only [Params.ok, Params.regsDistinct, Bool.and_eq_true, decide_eq_true_eq] at hok
  obtain ⟨⟨⟨-, hdistinct⟩, -⟩, -⟩ := hok
  intro heq
  simp [Params.regs, heq] at hdistinct

theorem ownEvents_readEvents (c : Params) (a : Addr) (x v : Byte) : ownEvents (readEvents c a x v) = readEvents c a x v := rfl

theorem txns_of_readEvents (c : Params) (a : Addr) (x v : Byte) : txns (readEvents c a x v) = [.read a v] := by
  simpa using txns_readEvents c a x v []

/-- Under `Readback` a read of a register returns what was last written to it, when the trace before the read shows that write
with no later transaction to the register and no soft reset since (R67, entry 32). -/
theorem Readback.value_eq {c : Params} {tr : List Event} {a : Addr} {before between : List Txn} {b x v : Byte}
    (h : Readback c (tr ++ readEvents c a x v)) (ha : a ∈ c.sefRegs) (hcmd : a ≠ c.regCommand) (hshape : busShape tr = .idle)
    (htr : txns (ownEvents tr) = before ++ [.write a b] ++ between)
    (hbetween : ∀ t ∈ between, t.addr ≠ a ∧ t.resetsReader c = false) : v = b := by
  refine h a ha before between [] b v ?_ (fun t ht => (hbetween t ht).1) ?_
  · rw [txns_own_append hshape, htr, ownEvents_readEvents, txns_of_readEvents, List.append_nil]
  · rw [List.forall_mem_cons]
    exact ⟨by simp [Txn.resetsReader, hcmd], fun t ht => (hbetween t ht).2⟩

theorem or_mask_and_mask (b mask : Byte) : (b ||| mask) &&& mask = mask := by
  ext i hi
  cases h : mask[i] <;> simp [h]

/-- Settles O22: the byte read is `v₀ | ANTENNA_MASK`, in which the mask's bits are set. -/
theorem antennaOnIsIdempotentUnderReadback : Obligations.AntennaOnIsIdempotentUnderReadback := by
  unfold Obligations.AntennaOnIsIdempotentUnderReadback
  intro s before between v₀ x v rest h hok hmask hsef hshape htr hbetween ha hreadback
  have hv : v = v₀ ||| s.cfg.antennaMask :=
    hreadback.value_eq hsef (regTxControl_ne_regCommand hok) hshape htr hbetween
  have hset : v &&& s.cfg.antennaMask = s.cfg.antennaMask := hv ▸ or_mask_and_mask ..
  exact ⟨hset, antennaOn_runs_on h (by rwa [hset]) ha⟩

end Sys2Proof.Machine
end

section
/-! REQUEST and ANTICOLL (R153 to R156, R162): what the exchange of a stand-alone operation leaves in the registers, for each
of its three endings, and how its events read. -/

namespace Sys2Proof.Machine

/-! ## The end of a stand-alone exchange -/

/-- `s` after the checks, the clearing of both buffers and a body of `n` steps whose exchange was `e` with events `ev` and
left `tag` and `uid` in the buffers. -/
def State.bodyDone (s : State) (e : Exchange) (ev : List Event) (rest : List Byte) (tag : Vector (Option Byte) 2)
    (uid : Vector (Option Byte) 5) (n : Nat) : State :=
  { s.advance.buffersCleared.exchanged (BitVec.ofNat 16 e.polls) e.ret (e.out s.out) ev rest (2 * e.pairs.length)
      (e.value s.v) n with tagType := tag, uidBuf := uid }

/-- `RDATA` after a stand-alone exchange, from what it held (R39). -/
def Exchange.rdata (old : Option Byte) : Exchange → Option Byte
  | .timeout _ _ => old
  | .chipFault _ _ _ err => some err.2
  | .ok _ _ _ _ _ => old

/-- `RESP` after a stand-alone exchange, from what it held (R39). -/
def Exchange.resp (old : Vector (Option Byte) 5) : Exchange → Vector (Option Byte) 5
  | .timeout _ _ => old
  | .chipFault _ _ _ _ => old
  | .ok _ _ _ _ fifo => overlay5 (fifo.map (·.2)) old

/-- `RESP_LEN` after a stand-alone exchange (R39). -/
def Exchange.respLen : Exchange → BitVec 3
  | .timeout _ _ => 0#3
  | .chipFault _ _ _ _ => 0#3
  | .ok _ _ _ _ fifo => BitVec.ofNat 3 (fifo.map (·.2)).length

/-- `s` after the `Finish` that follows the body; `k` is the step pointer. -/
def State.exchangeEnded (s : State) (e : Exchange) (ev : List Event) (rest : List Byte) (tag : Vector (Option Byte) 2)
    (uid : Vector (Option Byte) 5) (k : Nat) : State :=
  { s.ended (retStatus e.ret) ev rest (2 * e.pairs.length) with
    seq := k, v := e.value s.v, out := e.out s.out, ret := e.ret
    rdata := e.rdata s.rdata, resp := e.resp s.resp, respLen := e.respLen
    polls := BitVec.ofNat 16 e.polls, pollCount := BitVec.ofNat 16 e.polls, tagType := tag, uidBuf := uid }

theorem Ready.bodyDone_eq {i : Instr} {s : State} (h : Ready i s) (e : Exchange) (ev : List Event) (rest : List Byte)
    (tag : Vector (Option Byte) 2) (uid : Vector (Option Byte) 5) (n : Nat) :
    s.bodyDone e ev rest tag uid n = { s with
      seq := s.seq + 1 + 1 + n, v := e.value s.v, out := e.out s.out, ret := e.ret
      polls := BitVec.ofNat 16 e.polls, pollCount := BitVec.ofNat 16 e.polls, tagType := tag, uidBuf := uid
      trace := s.trace ++ ev, answers := rest, draws := s.draws + 2 * e.pairs.length } := by
  simp [State.bodyDone, State.exchanged, State.moved, State.advance, State.buffersCleared, h.hold, h.cs, h.xfers]

/-- The test after the body and the `Finish` it leads to (R155, R162). -/
theorem Ready.finish_bodyDone {i : Instr} {s : State} (h : Ready i s) (e : Exchange) (ev : List Event) (rest : List Byte)
    (tag : Vector (Option Byte) 2) (uid : Vector (Option Byte) 5) (n : Nat) :
    ∃ k, (if e.ret = .ok then finish .ok [.respOut] (s.bodyDone e ev rest tag uid n).advance
      else finishFail ((s.bodyDone e ev rest tag uid n).skip 1)) = s.exchangeEnded e ev rest tag uid k := by
  rw [h.bodyDone_eq]
  cases e with
  | timeout pre misses => exact ⟨s.seq + 1 + 1 + n + 1 + 1, rfl⟩
  | chipFault pre misses hit err => exact ⟨s.seq + 1 + 1 + n + 1 + 1, rfl⟩
  | ok pre misses hit err fifo => exact ⟨s.seq + 1 + 1 + n + 1, rfl⟩

/-- REQUEST (R155), however its exchange ends. -/
theorem request_ends {s : State} {m : Byte} {e : Exchange} {rest : List Byte} (h : Ready (.request m) s)
    (hok : s.cfg.ok = true) (he : e.FitsRequest s.cfg m) (ha : s.answers = flatPairs e.pairs ++ rest) :
    ∃ k, exec (.request m) s =
      .next (s.exchangeEnded e (e.events s.cfg s.cfg.bitFramingShort [m]) rest e.tag noBytes5 k) := by
  obtain ⟨k, hk⟩ := h.finish_bodyDone e (e.events s.cfg s.cfg.bitFramingShort [m]) rest e.tag noBytes5
    (requestBody s.cfg m).length
  exact ⟨k, (request_runs h hok he ha).trans (congrArg _ hk)⟩

/-- ANTICOLL (R162), however its exchange ends. -/
theorem anticoll_ends {s : State} {e : Exchange} {rest : List Byte} (h : Ready .anticoll s)
    (hok : s.cfg.ok = true) (he : e.FitsAnticoll s.cfg) (ha : s.answers = flatPairs e.pairs ++ rest) :
    ∃ k, exec .anticoll s = .next (s.exchangeEnded e
      (e.events s.cfg s.cfg.bitFramingFull [s.cfg.piccAnticoll, s.cfg.nvbAnticoll]) rest noBytes2 e.uid k) := by
  obtain ⟨k, hk⟩ := h.finish_bodyDone e
    (e.events s.cfg s.cfg.bitFramingFull [s.cfg.piccAnticoll, s.cfg.nvbAnticoll]) rest noBytes2 e.uid
    (anticollBody s.cfg).length
  exact ⟨k, (anticoll_runs h hok he ha).trans (congrArg _ hk)⟩

/-! ## The three endings -/

section
variable (s : State) {pre misses : List (Byte × Byte)} (hit err : Byte × Byte) (ev : List Event) (rest : List Byte)
  (tag : Vector (Option Byte) 2) (uid : Vector (Option Byte) 5) (k : Nat)

theorem State.exchangeEnded_timeout {polls : Nat} (hpolls : misses.length = polls) :
    s.exchangeEnded (.timeout pre misses) ev rest tag uid k =
      { s.ended .timeout ev rest (2 * (pre.length + misses.length)) with
        seq := k, v := lastValue s.v misses, ret := .timeout, respLen := 0#3
        polls := BitVec.ofNat 16 polls, pollCount := BitVec.ofNat 16 polls, tagType := tag, uidBuf := uid } := by
  rw [← hpolls, ← List.length_append]
  rfl

theorem State.exchangeEnded_chipFault :
    s.exchangeEnded (.chipFault pre misses hit err) ev rest tag uid k =
      { s.ended .chipFault ev rest (2 * (pre.length + misses.length + 2)) with
        seq := k, v := err.2, ret := .chipFault, rdata := some err.2, respLen := 0#3
        polls := BitVec.ofNat 16 (misses.length + 1), pollCount := BitVec.ofNat 16 (misses.length + 1)
        tagType := tag, uidBuf := uid } := by
  have hpairs : (Exchange.chipFault pre misses hit err).pairs.length = pre.length + misses.length + 2 := by
    simp [Exchange.pairs, Nat.add_assoc]
  rw [← hpairs]
  rfl

theorem State.exchangeEnded_ok {fifo : List (Byte × Byte)} {n : Nat} (hn : fifo.length = n) :
    s.exchangeEnded (.ok pre misses hit err fifo) ev rest tag uid k =
      { s.ended .ok ev rest (2 * (pre.length + misses.length + 2 + n)) with
        seq := k, v := lastValue err.2 fifo, out := fifo.map (·.2), ret := .ok, resp := overlay5 (fifo.map (·.2)) s.resp
        respLen := BitVec.ofNat 3 n
        polls := BitVec.ofNat 16 (misses.length + 1), pollCount := BitVec.ofNat 16 (misses.length + 1)
        tagType := tag, uidBuf := uid } := by
  have hpairs : (Exchange.ok pre misses hit err fifo).pairs.length = pre.length + misses.length + 2 + n := by
    simp [Exchange.pairs, hn]
    omega
  have hout : (fifo.map (·.2)).length = n := (List.length_map ..).trans hn
  rw [← hpairs, ← hout]
  rfl

end

/-! ## REQUEST -/

/-- Settles O23. -/
theorem requestReturnsTheTagType : Obligations.RequestReturnsTheTagType := by
  unfold Obligations.RequestReturnsTheTagType
  intro s m pre misses hit err t₀ t₁ rest h hok he ha
  obtain ⟨k, hrun⟩ := request_ends h hok he (by simpa [Exchange.pairs] using ha)
  exact ⟨k, hrun.trans (congrArg _ (s.exchangeEnded_ok hit err _ rest _ _ k rfl))⟩

/-- Settles O24. -/
theorem requestFails : Obligations.RequestFails := by
  unfold Obligations.RequestFails
  refine ⟨?timeout, ?chipFault⟩
  case timeout =>
    intro s m pre misses rest h hok he ha
    obtain ⟨k, hrun⟩ := request_ends h hok he ha
    exact ⟨k, _, hrun.trans (congrArg _ (s.exchangeEnded_timeout _ rest _ _ k he.2.all))⟩
  case chipFault =>
    intro s m pre misses hit err rest h hok he ha
    obtain ⟨k, hrun⟩ := request_ends h hok he ha
    exact ⟨k, hrun.trans (congrArg _ (s.exchangeEnded_chipFault hit err _ rest _ _ k))⟩

/-! ## ANTICOLL -/

/-- Settles O25. -/
theorem anticollReturnsTheUidBytes : Obligations.AnticollReturnsTheUidBytes := by
  unfold Obligations.AnticollReturnsTheUidBytes
  intro s pre misses hit err fifo rest h hok he ha
  obtain ⟨k, hrun⟩ := anticoll_ends h hok he ha
  obtain ⟨-, -, -, hfifo⟩ := he
  exact ⟨k, _, hrun.trans (congrArg _ (s.exchangeEnded_ok hit err _ rest _ _ k hfifo))⟩

/-- Settles O26. -/
theorem anticollFails : Obligations.AnticollFails := by
  unfold Obligations.AnticollFails
  refine ⟨?timeout, ?chipFault⟩
  case timeout =>
    intro s pre misses rest h hok he ha
    obtain ⟨k, hrun⟩ := anticoll_ends h hok he ha
    exact ⟨k, _, hrun.trans (congrArg _ (s.exchangeEnded_timeout _ rest _ _ k he.2.all))⟩
  case chipFault =>
    intro s pre misses hit err rest h hok he ha
    obtain ⟨k, hrun⟩ := anticoll_ends h hok he ha
    exact ⟨k, hrun.trans (congrArg _ (s.exchangeEnded_chipFault hit err _ rest _ _ k))⟩

/-! ## The events of an exchange -/

theorem prologueTxns_length {c : Params} (framing : Byte) (payload : List Byte) (hclear : c.clearIrqBeforeIssue = false)
    (hstart : c.startSendAfterIssue = false) : (prologueTxns c framing payload).length = 4 + payload.length := by
  simp [prologueTxns, hclear, hstart]
  omega

/-- The transactions that follow the polls (R156). -/
def Exchange.readsAfterPoll : Exchange → Nat
  | .timeout _ _ => 0
  | .chipFault _ _ _ _ => 1
  | .ok _ _ _ _ fifo => 1 + fifo.length

theorem Exchange.txns_length (c : Params) (framing : Byte) (payload : List Byte) (e : Exchange) :
    (e.txns c framing payload).length = (prologueTxns c framing payload).length + e.polls + e.readsAfterPoll := by
  cases e <;> simp [Exchange.txns, Exchange.polls, Exchange.readsAfterPoll] <;> omega

/-- Settles O27. -/
theorem exchangeReadings : Obligations.ExchangeReadings := by
  unfold Obligations.ExchangeReadings
  intro c framing payload n e he
  obtain ⟨hdiags, houts⟩ := quiet_events c framing payload e
  refine ⟨txns_exchange he, delays_events c framing payload e, hdiags, houts, Exchange.polls_le he, ?counts⟩
  intro hclear hstart
  rw [txns_exchange he, Exchange.txns_length, prologueTxns_length framing payload hclear hstart]
  cases e with
  | timeout => rfl
  | chipFault => rfl
  | ok pre misses hit err fifo =>
    obtain ⟨-, -, -, hfifo⟩ := he
    rw [← hfifo]
    rfl

end Sys2Proof.Machine
end

section
/-! CALC_CRC (R168, R169), and the checks that end an operation in a fault before any transaction (R169, R180). -/

namespace Sys2Proof.Machine

/-- CALC_CRC within `CRC_MAX_LEN` whose data bytes hold values (R168). -/
theorem calcCrc_runs {s : State} {n : Nat} {data : List Byte} {x : CrcAnswers} {rest : List Byte}
    (h : Ready (.calcCrc n) s) (hok : s.cfg.ok = true) (hlen : n ≤ s.cfg.crcMaxLen)
    (hdata : readCells s.dataIn 0 n = some data) (hx : x.Fits s.cfg n) (ha : s.answers = flatPairs x.pairs ++ rest) :
    ∃ k, exec (.calcCrc n) s = .next (finish (retStatus x.ret) [.respOut]
      (s.exchanged (BitVec.ofNat 16 x.polls) x.ret [x.lo.2, x.hi.2] (x.events s.cfg data) rest (2 * x.pairs.length)
        x.hi.2 k)) := by
  obtain ⟨-, -, hmin, hmax, -, -, hcrc, -⟩ := ok_bounds hok
  obtain ⟨k, hfinish, hrun⟩ := gets_calcCrc h.going h.seq hlen hcrc hdata hx hmin hmax ha
  exact ⟨k, perform_ends hrun (by decide) hfinish rfl rfl rfl⟩

theorem CrcAnswers.retStatus_ret (x : CrcAnswers) :
    retStatus x.ret = if x.hit.isSome then Status.ok else Status.timeout := by
  unfold CrcAnswers.ret
  split <;> rfl

theorem CrcAnswers.polls_le {c : Params} {n : Nat} {x : CrcAnswers} (hx : x.Fits c n) : x.polls ≤ c.pollMaxDiv := by
  obtain ⟨pre, misses, hit, lo, hi⟩ := x
  obtain ⟨-, hpoll⟩ := hx
  cases hit with
  | none => simpa [CrcAnswers.polls] using hpoll.all.le
  | some hit => simpa [CrcAnswers.polls] using hpoll.inTime

theorem overlay5_pair (a b : Byte) (old : Vector (Option Byte) 5) :
    overlay5 [a, b] old = #v[some a, some b, old[2], old[3], old[4]] := rfl

/-- Settles O28. -/
theorem calcCrcReturnsTheResultRegisters : Obligations.CalcCrcReturnsTheResultRegisters := by
  unfold Obligations.CalcCrcReturnsTheResultRegisters
  intro s n data x rest h hok hlen hdata hx ha
  refine ⟨?_, CrcAnswers.txns_events hx (readCells_length hdata), CrcAnswers.delays_events s.cfg data x,
    CrcAnswers.polls_le hx⟩
  obtain ⟨k, hrun⟩ := calcCrc_runs h hok hlen hdata hx ha
  refine ⟨s.seq + k, hrun.trans ?_⟩
  rw [CrcAnswers.retStatus_ret]
  simp [finish, endOp, resWrites, resWrite, State.exchanged, State.moved, State.ended, h.hold, h.cs, h.xfers, CrcAnswers.ret,
    overlay5_pair]

/-! ## Operands that hold no value -/

theorem checks_crc_fault {s : State} {n i : Nat} (hlen : n ≤ s.cfg.crcMaxLen) (hi : i < n)
    (hnone : readCell s.dataIn i = none) : checks (.crc n) s = .fault .unwrittenRead := by
  have hdata : readCells s.dataIn 0 n = none := readCells_none (Nat.zero_le i) (by omega) hnone
  simp [checks, hlen, hdata]

theorem checks_candidate_fault {s : State} {i : Nat} (hi : i < s.cfg.uidLen) (hnone : readCell s.dataIn i = none) :
    checks .candidate s = .fault .unwrittenRead := by
  have hcandidate : candidate s = none := readCells_none (Nat.zero_le i) (by omega) hnone
  simp [checks, hcandidate]

/-- A fault of an operation's checks is the operation's (R227). -/
theorem Ready.exec_fault_of_checks {i : Instr} {s : State} {f : Fault} (h : Ready i s)
    (hp : (program s.cfg i)[0]? = some (.checks (checkOf i))) (hf : checks (checkOf i) s = .fault f) :
    exec i s = .fault f := by
  rw [exec_eq_perform]
  exact perform_fault (m := .checks (checkOf i)) h.hold (h.seq ▸ hp) hf

/-- Settles O30: both operations fault in their first step. -/
theorem unwrittenOperandsFault : Obligations.UnwrittenOperandsFault := by
  unfold Obligations.UnwrittenOperandsFault
  exact ⟨fun s n i h hlen hi hnone => h.exec_fault_of_checks rfl (checks_crc_fault hlen hi hnone),
    fun s i h hi hnone => h.exec_fault_of_checks rfl (checks_candidate_fault hi hnone)⟩

end Sys2Proof.Machine
end

section
/-! Operations end (R143, R191, R236): what COMPARE_UID, UNLOCK, LOCK, POLL_CYCLE and a round of RUN run to, and that every
operation and every round ends once the reader answers every transfer. -/

namespace Sys2Proof.Machine

/-! ## Operations without bus traffic -/

theorem program_of_isReserved {c : Params} {i : Instr} (hi : i.isReserved = true) :
    program c i = [.checks .reserved] ∧ checkOf i = .reserved := by
  cases i
  case reservedOp0 | reservedOpD | reservedOpE | reservedOpF => exact ⟨rfl, rfl⟩
  case reservedRsv25 | reservedRsv26 | reservedRsv27 | reservedRsv28 => exact ⟨rfl, rfl⟩
  case reservedRsv29 | reservedRsv30 | reservedRsv31 => exact ⟨rfl, rfl⟩
  all_goals cases hi

section
variable {i : Instr} {s t : State}

/-- An operation that its checks turn away ends there (R94, R224 to R226). -/
theorem Ready.exec_turned_away (h : Ready i s) (hp : (program s.cfg i)[0]? = some (.checks (checkOf i)))
    (hchecks : checks (checkOf i) s = .next t) (ht : t.op = none) : exec i s = .next t := by
  rw [exec_eq_perform]
  exact perform_first (m := .checks (checkOf i)) h.hold (h.seq ▸ hp) hchecks ht

/-- An operation of one step between its checks and its `Finish`. -/
theorem Ready.exec_one_step {m : Micro} {st : Status} {ws : List ResWrite} (h : Ready i s)
    (hp : program s.cfg i = [.checks (checkOf i), m, .finish st ws]) (hchecks : checks (checkOf i) s = .next s.advance)
    (hm : execMicro m s.advance = .next t) (ht : Going t) (hseq : t.seq = 2) (hne : ∀ n, m ≠ .restart n) :
    exec i s = .next (finish st ws t) := by
  have hc : CodeAt (program s.cfg i) s.seq [.checks (checkOf i), m, .finish st ws] := by
    rw [h.seq, hp]
    exact CodeAt.whole _
  have hfirst := h.going.micro hc.head hchecks h.going.advance (by simp)
  have hsecond := h.going.advance.micro hc.tail.head hm ht hne
  rw [exec_eq_perform]
  exact perform_ends (hfirst.append hsecond) (by decide) (at_of hc.tail.tail.head (by rw [h.seq, hseq])) ht.hold rfl rfl

end

theorem compareUid_runs {s : State} {u : List Byte} (h : Ready .compareUid s) (hu : candidate s = some u) :
    exec .compareUid s = .next (finish .ok [.rdataResult, .respNone]
      { s with result := matchByte (uidMatches s.cfg.uidLen u s.cfg.whitelist), seq := s.seq + 2 }) := by
  have hu' : candidate s.advance = some u := hu
  exact h.exec_one_step (m := .compareData) rfl (by simp [checkOf, checks, hu]) (by simp only [execMicro, hu']; rfl)
    ⟨h.going.op, h.hold, h.cs, h.xfers⟩ (by simp [h.seq]) (by simp)

theorem unlock_runs {s : State} (h : Ready .unlock s) (hhost : s.cfg.hostActuatorOps = true) :
    exec .unlock s = .next (finish .ok [.respNone] s.advance.unlockDone) :=
  h.exec_one_step (m := .unlock) rfl (by simp [checkOf, checks, hhost]) rfl ⟨h.going.op, h.hold, h.cs, h.xfers⟩
    (by simp [State.unlockDone, h.seq]) (by simp)

theorem lock_runs {s : State} (h : Ready .lock s) (hhost : s.cfg.hostActuatorOps = true) :
    exec .lock s = .next (finish .ok [.respNone] s.advance.lockDone) :=
  h.exec_one_step (m := .lock) rfl (by simp [checkOf, checks, hhost]) rfl ⟨h.going.op, h.hold, h.cs, h.xfers⟩
    (by simp [State.lockDone, h.seq]) (by simp)

/-! ## POLL_CYCLE and RUN -/

/-- POLL_CYCLE (R185): the checks, a cycle, the `Finish`. -/
theorem pollCycle_runs {s : State} {x : CycleAnswers} {rest : List Byte} (h : Ready .pollCycle s) (hok : s.cfg.ok = true)
    (hx : x.Fits s.cfg) (ha : s.answers = flatPairs x.pairs ++ rest) :
    ∃ v out, exec .pollCycle s = .next (finish .ok [.rdataResult] (cycleEnd s.advance x rest v out)) := by
  have hc : CodeAt (codePollCycle s.cfg) s.seq ([.checks .free] ++ cycle s.cfg ++ [.finish .ok [.rdataResult]]) :=
    h.seq ▸ CodeAt.whole _
  obtain ⟨v, out, hcycle⟩ := gets_cycle (s := s.advance) hc.left.right h.going.advance hok hx ha
  have hrun := (h.checksFree (p := codePollCycle s.cfg) rfl).append hcycle
  exact ⟨v, out, perform_ends hrun (by decide) (at_of hc.right.head (by simp [cycleEnd]; omega)) rfl rfl rfl⟩

/-- RUN (R190) from the beginning of a round, or up to two steps before it. -/
theorem run_runs_round {s u : State} {x : CycleAnswers} {rest : List Byte} (hstart : Gets (codeRun s.cfg) 2 s u)
    (hu : RoundReady u) (hcfg : u.cfg = s.cfg) (hok : u.cfg.ok = true) (hx : x.Fits u.cfg)
    (ha : u.answers = flatPairs x.pairs ++ rest) :
    ∃ v out, exec .run s = .next { cycleEnd u x rest v out with seq := roundStart } := by
  have hc : CodeAt (codeRun s.cfg) 0 ([.checks .free, .setRunning] ++ cycle u.cfg ++ [.restart roundStart]) := by
    rw [hcfg]
    exact CodeAt.whole _
  have hgoing : Going u := ⟨by rw [hu.op]; rfl, hu.hold, hu.cs, hu.xfers⟩
  obtain ⟨v, out, hcycle⟩ := gets_cycle (p := codeRun s.cfg) (hc.left.right.cast hu.seq.symm) hgoing hok hx ha
  exact ⟨v, out, perform_round (hstart.append hcycle) (by decide)
    (at_of hc.right.head (by simp [cycleEnd, hu.seq, roundStart]; omega)) rfl⟩

/-- `s` at the beginning of RUN's first round: past the checks and `running <- 1` (R190). -/
def State.runBegun (s : State) : State := { s with running := true, seq := roundStart }

theorem Ready.runBegun {s : State} (h : Ready .run s) : RoundReady s.runBegun :=
  ⟨h.op, rfl, h.hold, h.cs, h.xfers, rfl⟩

theorem Ready.gets_runBegun {s : State} (h : Ready .run s) : Gets (codeRun s.cfg) 2 s s.runBegun := by
  have hc : CodeAt (codeRun s.cfg) s.seq (codeRun s.cfg) := h.seq ▸ CodeAt.whole _
  have hset : execMicro .setRunning s.advance = .next s.runBegun := by
    simp [execMicro, State.advance, State.runBegun, h.seq, roundStart]
  exact (h.checksFree (p := codeRun s.cfg) rfl).append
    (h.going.advance.micro hc.tail.head hset ⟨h.going.op, h.hold, h.cs, h.xfers⟩ (by simp))

theorem RoundReady.cycleEnd {u : State} (h : RoundReady u) (x : CycleAnswers) (rest : List Byte) (v : Byte)
    (out : List Byte) : RoundReady { Machine.cycleEnd u x rest v out with seq := roundStart } :=
  ⟨h.op, rfl, rfl, rfl, rfl, h.running⟩

/-- RUN, from its start or from the beginning of a later round, gets to the beginning of the next (R190, R191). -/
theorem run_round_ends {s : State} (h : Ready .run s ∨ RoundReady s) (hok : s.cfg.ok = true)
    (hl : 300000 ≤ s.answers.length) : ∃ t, exec .run s = .next t ∧ RoundReady t := by
  obtain ⟨-, -, -, x, rest, ha, hx⟩ := anyAnswersAreAnswered s.cfg s.answers hok hl
  obtain h | h := h
  · obtain ⟨v, out, hrun⟩ := run_runs_round h.gets_runBegun h.runBegun rfl hok hx ha
    exact ⟨_, hrun, h.runBegun.cycleEnd ..⟩
  · obtain ⟨v, out, hrun⟩ := run_runs_round ((Gets.nil s).cast (Nat.zero_le _) rfl) h rfl hok hx ha
    exact ⟨_, hrun, h.cycleEnd ..⟩

/-! ## Every operation ends -/

/-- The undisturbed run of operation `i` from `s` ends it. -/
def Ends (i : Instr) (s : State) : Prop := ∃ t, exec i s = .next t ∧ t.op = none ∧ t.busy = false

section
variable {i : Instr} {s : State}

theorem Ends.of_finish {st : Status} {ws : List ResWrite} {t : State} (h : exec i s = .next (finish st ws t)) : Ends i s :=
  ⟨_, h, rfl, rfl⟩

/-- From a statement about the operation's result. -/
theorem Ends.of_exists {f : Nat → State} (h : ∃ k, exec i s = .next (f k)) (hop : ∀ k, (f k).op = none := by intro; rfl)
    (hbusy : ∀ k, (f k).busy = false := by intro; rfl) : Ends i s :=
  h.elim fun k hk => ⟨f k, hk, hop k, hbusy k⟩

theorem reserved_ends (h : Ready i s) (hi : i.isReserved = true) : Ends i s := by
  obtain ⟨hp, hcheck⟩ := program_of_isReserved (c := s.cfg) hi
  exact Ends.of_finish (h.exec_turned_away (by rw [hp, hcheck]; rfl) (by rw [hcheck]; rfl) rfl)

theorem antennaOn_ends (h : Ready .antennaOn s) (hl : 300000 ≤ s.answers.length) : Ends .antennaOn s := by
  obtain ⟨x, v, t, ha⟩ := exists_cons_cons_of_two_le_length (l := s.answers) (by omega)
  by_cases hv : v &&& s.cfg.antennaMask = 0#8
  · rw [ha, List.length_cons, List.length_cons] at hl
    obtain ⟨y, z, rest, rfl⟩ := exists_cons_cons_of_two_le_length (l := t) (by omega)
    exact Ends.of_exists (antennaOn_runs_off h hv ha)
  · exact Ends.of_exists (antennaOn_runs_on h hv ha)

theorem calcCrc_ends {n : Nat} (h : Ready (.calcCrc n) s) (hok : s.cfg.ok = true) (hl : 300000 ≤ s.answers.length)
    (hdata : ∀ j, j < n → (readCell s.dataIn j).isSome = true) : Ends (.calcCrc n) s := by
  obtain ⟨-, -, -, -, -, -, hcrc, -⟩ := ok_bounds hok
  by_cases hlen : s.cfg.crcMaxLen < n
  · exact Ends.of_finish (h.exec_turned_away rfl (if_pos hlen) rfl)
  · obtain ⟨data, hcells⟩ := readCells_isSome (m := s.dataIn) (k := 0) (n := n) (by simpa using hdata)
    obtain ⟨-, -, hanswers, -⟩ := anyAnswersAreAnswered s.cfg s.answers hok hl
    obtain ⟨x, rest, ha, hx⟩ := hanswers n (by omega)
    obtain ⟨k, hrun⟩ := calcCrc_runs h hok (by omega) hcells hx ha
    exact Ends.of_finish hrun

theorem compareUid_ends (h : Ready .compareUid s) (hdata : ∀ j, j < s.cfg.uidLen → (readCell s.dataIn j).isSome = true) :
    Ends .compareUid s := by
  obtain ⟨u, hu⟩ := readCells_isSome (m := s.dataIn) (k := 0) (n := s.cfg.uidLen) (by simpa using hdata)
  exact Ends.of_finish (compareUid_runs h hu)

theorem unlock_ends (h : Ready .unlock s) : Ends .unlock s := by
  by_cases hhost : s.cfg.hostActuatorOps = true
  · exact Ends.of_finish (unlock_runs h hhost)
  · exact Ends.of_finish (h.exec_turned_away rfl (if_neg hhost) rfl)

theorem lock_ends (h : Ready .lock s) : Ends .lock s := by
  by_cases hhost : s.cfg.hostActuatorOps = true
  · exact Ends.of_finish (lock_runs h hhost)
  · exact Ends.of_finish (h.exec_turned_away rfl (if_neg hhost) rfl)

end

/-- Settles O57: operation by operation, from the statement about its result. -/
theorem everyOperationEnds : Obligations.EveryOperationEnds := by
  unfold Obligations.EveryOperationEnds
  refine ⟨?operations, fun s => run_round_ends⟩
  intro s i h hok hl hrun hcrc hcandidate
  obtain ⟨x, y, rest, ha⟩ := exists_cons_cons_of_two_le_length (l := s.answers) (by omega)
  obtain ⟨hrequest, hanticoll, -, hcycle⟩ := anyAnswersAreAnswered s.cfg s.answers hok hl
  obtain ⟨hframeRead, hframeWrite⟩ := framesOpenTheirTransaction
  show Ends i s
  cases i
  case readReg a => exact Ends.of_exists (readRegReturnsTheSecondByte s a x y rest h ha)
  case writeReg a v => exact Ends.of_exists (writeRegSendsTheByte s a v x y rest h ha)
  case resetReader => exact Ends.of_exists (resetReaderWritesAndSettles s x y rest h ha)
  case antennaOn => exact antennaOn_ends h hl
  case request m =>
    obtain ⟨e, more, he, hfits⟩ := hrequest m
    exact Ends.of_exists (request_ends h hok hfits he)
  case anticoll =>
    obtain ⟨e, more, he, hfits⟩ := hanticoll
    exact Ends.of_exists (anticoll_ends h hok hfits he)
  case calcCrc n => exact calcCrc_ends h hok hl fun j => hcrc n j rfl
  case compareUid => exact compareUid_ends h fun j => hcandidate j rfl
  case unlock => exact unlock_ends h
  case lock => exact lock_ends h
  case pollCycle =>
    obtain ⟨e, more, he, hfits⟩ := hcycle
    obtain ⟨v, out, hcycle⟩ := pollCycle_runs h hok hfits he
    exact Ends.of_finish hcycle
  case run => exact absurd rfl hrun
  case frameRead a => exact Ends.of_exists (hframeRead s a x y rest h ha)
  case frameWrite a => exact Ends.of_exists (hframeWrite s a x y rest h ha)
  case chipIdle | chipCalcCrc | chipTransceive | chipSoftReset | cardReqa | cardAnticollCl1 | cardNvb =>
    exact Ends.of_exists (chipAndCardBytesAreWritten s _ _ _ x y rest rfl h ha)
  all_goals exact reserved_ends h rfl

end Sys2Proof.Machine
end

section
/-! The whitelist comparator and COMPARE_UID (R180 to R182). -/

namespace Sys2Proof.Machine

theorem uidMatches_iff {n : Nat} {u : List Byte} {wl : List (List Byte)} :
    uidMatches n u wl = true ↔ ∃ w ∈ wl, u.take n = w.take n := by
  simp [uidMatches]

/-- The comparator is the existential of R181. -/
theorem uidMatches_iff_exists_bytes {n : Nat} {u : List Byte} {wl : List (List Byte)} (hu : n ≤ u.length)
    (hwl : ∀ w ∈ wl, w.length = n) : uidMatches n u wl = true ↔ ∃ w ∈ wl, ∀ i, i < n → u[i]? = w[i]? := by
  rw [uidMatches_iff]
  exact exists_congr fun w => and_congr_right fun hw => take_eq_iff hu (hwl w hw)

/-- Settles O32. -/
theorem compareUidIsExactMembership : Obligations.CompareUidIsExactMembership := by
  unfold Obligations.CompareUidIsExactMembership
  refine ⟨fun n u wl => uidMatches_iff_exists_bytes, fun n wl w hw => uidMatches_iff.mpr ⟨w, hw, rfl⟩, ?differs⟩
  case differs =>
    intro n u wl hu hwl hdiffers
    rw [Bool.eq_false_iff, ne_eq, uidMatches_iff_exists_bytes hu.ge hwl]
    rintro ⟨w, hw, hagree⟩
    obtain ⟨i, hi, hne⟩ := hdiffers w hw
    exact hne (hagree i hi)

/-- Settles O31. -/
theorem compareUidAnswersTheMatchBit : Obligations.CompareUidAnswersTheMatchBit := by
  unfold Obligations.CompareUidAnswersTheMatchBit
  intro s u h hlen hu
  have hcandidate : candidate s = some u := readCells_some hlen (by simpa using hu)
  refine ⟨s.seq + 2, (compareUid_runs h hcandidate).trans ?_⟩
  simp [finish, endOp, resWrites, resWrite, State.ended, matchByte]

end Sys2Proof.Machine
end

section
/-! POLL_CYCLE and RUN (R185 to R190): the state after one cycle, whichever way it goes, and that nothing but block reset ends
RUN. -/

namespace Sys2Proof.Machine

/-! ## One cycle -/

/-- Settles O39. -/
theorem pollCycleRunsOneCycle : Obligations.PollCycleRunsOneCycle := by
  unfold Obligations.PollCycleRunsOneCycle
  intro s x rest h hok hx ha
  obtain ⟨v, out, hrun⟩ := pollCycle_runs h hok hx ha
  refine ⟨s.seq + 1 + (cycle s.cfg).length, v, out, hrun.trans ?_⟩
  simp [finish, endOp, resWrites, resWrite, cycleEnd, State.ended, State.advance, h.hold, h.cs, h.xfers]

/-- A later round begins where the first one does. -/
theorem RoundReady.runBegun_eq {s : State} (h : RoundReady s) : s.runBegun = s := by
  obtain ⟨-, hseq, -, -, -, hrunning⟩ := h
  cases s
  simp_all [State.runBegun]

/-- RUN reaches the beginning of a round from its start, and from the beginning of a later round without a step. -/
theorem gets_runBegun {s : State} (h : Ready .run s ∨ RoundReady s) :
    Gets (codeRun s.cfg) 2 s s.runBegun ∧ RoundReady s.runBegun := by
  obtain h | h := h
  · exact ⟨h.gets_runBegun, h.runBegun⟩
  · rw [h.runBegun_eq]
    exact ⟨(Gets.nil s).cast (Nat.zero_le _) rfl, h⟩

/-- A round of RUN (R190) is a cycle. -/
theorem run_runs {s : State} {x : CycleAnswers} {rest : List Byte} (h : Ready .run s ∨ RoundReady s) (hok : s.cfg.ok = true)
    (hx : x.Fits s.cfg) (ha : s.answers = flatPairs x.pairs ++ rest) :
    ∃ v out, exec .run s = .next { cycleEnd s.runBegun x rest v out with seq := roundStart } := by
  obtain ⟨hstart, hround⟩ := gets_runBegun h
  exact run_runs_round hstart hround rfl hok hx ha

/-- Settles O40. -/
theorem runRepeatsTheCycle : Obligations.RunRepeatsTheCycle := by
  unfold Obligations.RunRepeatsTheCycle
  intro s x rest h hok hx ha
  obtain ⟨v, out, hrun⟩ := run_runs h hok hx ha
  obtain ⟨-, hround⟩ := gets_runBegun h
  obtain ⟨hhold, hcs, hxfers⟩ : s.hold = .free ∧ s.cs = false ∧ s.xfers = 0 := ⟨hround.hold, hround.cs, hround.xfers⟩
  refine ⟨_, v, out, hrun, hround.cycleEnd x rest v out, ?_⟩
  simp [cycleEnd, State.runBegun, hhold, hcs, hxfers]

/-! ## RUN goes on -/

/-- RUN runs in `t`, with `STATUS` as in `s`. -/
structure RunGoesOn (s t : State) : Prop where
  op : t.op = some .run
  busy : t.busy = true
  status : t.status = s.status

/-- No step of RUN's code ends it (R190, R191). -/
theorem RunGoesOn.advances {s u t : State} (hu : RunGoesOn s u) (h : Advances .run u t) : RunGoesOn s t := by
  refine advances_rel (P := RunGoesOn s) hu h ?transfer ?delay ?micro
  case transfer => exact fun w _ _ hw => ⟨hw.op, hw.busy, hw.status⟩
  case delay => exact fun w hw => ⟨hw.op, hw.busy, hw.status⟩
  case micro =>
    intro m hm w w' hw he
    obtain ⟨hop, hbusy, hstatus⟩ := keeps_op he (run_frames u.cfg m hm)
    exact ⟨hop.trans hw.op, hbusy.trans hw.busy, hstatus.trans hw.status⟩

/-- Settles O41: the moves of the outside leave a busy block's operation alone. -/
theorem runEndsByBlockResetAlone : Obligations.RunEndsByBlockResetAlone := by
  unfold Obligations.RunEndsByBlockResetAlone
  intro s t hop hbusy h hreset
  have hstart : ∀ e, RunGoesOn s { s with env := e } := fun e => ⟨hop, hbusy, rfl⟩
  suffices hgoes : RunGoesOn s t from ⟨hgoes.op, hgoes.busy, hgoes.status⟩
  obtain ⟨-, ⟨rfl, -⟩ | ⟨e, rfl⟩ | ⟨i, u, f, hi, ⟨e, hu⟩, rfl⟩ | ⟨i, e, r, hi, -, -, ha⟩ | ⟨o, k, r, -, rfl⟩ |
    ⟨r, -, rfl⟩ | ⟨r, -, rfl⟩ | ⟨w, r, hidle, -⟩ | ⟨j, b, r, hidle, -⟩ | ⟨y, r, rfl⟩ | ⟨r, hr, -⟩⟩ := step_cases h
  · exact ⟨hop, hbusy, rfl⟩
  · exact ⟨hop, hbusy, rfl⟩
  · obtain rfl : Instr.run = i := Option.some.inj (hop.symm.trans hi)
    have hgoes := (hstart e).advances (.inl hu)
    exact ⟨hgoes.op, hgoes.busy, hgoes.status⟩
  · obtain rfl : Instr.run = i := Option.some.inj (hop.symm.trans hi)
    exact (hstart r).advances (.inr ha)
  · exact ⟨hop, hbusy, rfl⟩
  · exact ⟨hop, hbusy, rfl⟩
  · exact ⟨hop, hbusy, rfl⟩
  · exact absurd (hbusy.symm.trans hidle) (by decide)
  · exact absurd (hbusy.symm.trans hidle) (by decide)
  · exact ⟨hop, hbusy, rfl⟩
  · exact absurd hr hreset

end Sys2Proof.Machine
end

section
/-! The events of a cycle read as transactions, delays, diagnostics and outputs (R185, R187, R189, R237). -/

namespace Sys2Proof.Machine

@[simp] theorem diags_events (c : Params) (f : Byte) (p : List Byte) (e : Exchange) : diags (e.events c f p) = [] :=
  (quiet_events c f p e).1

@[simp] theorem outs_events (c : Params) (f : Byte) (p : List Byte) (e : Exchange) : outs (e.events c f p) = [] :=
  (quiet_events c f p e).2

@[simp] theorem diags_delayEvents (ms : Nat) : diags (delayEvents ms) = [] := (quiet_delayEvents ms).1

@[simp] theorem outs_delayEvents (ms : Nat) : outs (delayEvents ms) = [] := (quiet_delayEvents ms).2

@[simp] theorem outs_opDone (st : Status) (r : List Event) : outs (.opDone st :: r) = outs r := rfl

theorem delayList_sum (k ms : Nat) : (delayList k ms).sum = k * ms := by
  unfold delayList
  split <;> simp [*]

theorem txns_grantedEvents (c : Params) (r : List Event) : txns (grantedEvents c ++ r) = txns r := by
  simp [grantedEvents, List.append_assoc]

/-! ## One equation for each way of a cycle -/

theorem CycleAnswers.events_noTag (c : Params) (r : Exchange) : CycleAnswers.events c (.noTag r) =
    r.events c c.bitFramingShort [c.reqMode] ++ delayEvents c.interPollMs := by
  simp [CycleAnswers.events, CycleAnswers.request]

theorem CycleAnswers.events_noUid (c : Params) (r a : Exchange) : CycleAnswers.events c (.noUid r a) =
    r.events c c.bitFramingShort [c.reqMode] ++ .diag .cardDetected ::
      (a.events c c.bitFramingFull [c.piccAnticoll, c.nvbAnticoll] ++ delayEvents c.interPollMs) := by
  simp [CycleAnswers.events, CycleAnswers.request]

theorem CycleAnswers.events_uid (c : Params) (r a : Exchange) : CycleAnswers.events c (.uid r a) =
    r.events c c.bitFramingShort [c.reqMode] ++ .diag .cardDetected ::
      (a.events c c.bitFramingFull [c.piccAnticoll, c.nvbAnticoll] ++ .diag (.uid (a.uidOf c)) ::
        ((if CycleAnswers.granted c (.uid r a) then grantedEvents c else [.diag .denied]) ++
          delayEvents c.interPollMs)) := by
  simp [CycleAnswers.events, CycleAnswers.request]

theorem CycleAnswers.granted_uid (c : Params) (r a : Exchange) :
    CycleAnswers.granted c (.uid r a) = uidMatches c.uidLen (a.uidOf c) c.whitelist := rfl

theorem CycleAnswers.Fits.request {c : Params} {x : CycleAnswers} (hx : x.Fits c) : x.request.FitsRequest c c.reqMode := by
  cases x <;> exact hx.1

theorem CycleAnswers.Fits.anticoll {c : Params} {x : CycleAnswers} {a : Exchange} (hx : x.Fits c)
    (ha : x.anticoll = some a) : a.FitsAnticoll c := by
  cases x <;> cases ha <;> exact hx.2.2.1

/-! ## The readings -/

section
variable {c : Params} {x : CycleAnswers}

theorem txns_cycle (hx : x.Fits c) : txns (x.events c) = x.txns c := by
  have hdelay := (delayEvents_readings c.interPollMs).1
  cases x with
  | noTag r =>
    obtain ⟨hr, -⟩ := hx
    simp [CycleAnswers.events_noTag, CycleAnswers.txns, CycleAnswers.request, CycleAnswers.anticoll, txns_events hr, hdelay]
  | noUid r a =>
    obtain ⟨hr, -, ha, -⟩ := hx
    simp [CycleAnswers.events_noUid, CycleAnswers.txns, CycleAnswers.request, CycleAnswers.anticoll, txns_events hr,
      txns_events ha, hdelay]
  | uid r a =>
    obtain ⟨hr, -, ha, -⟩ := hx
    rw [CycleAnswers.events_uid]
    split <;>
      simp [CycleAnswers.txns, CycleAnswers.request, CycleAnswers.anticoll, txns_events hr, txns_events ha, hdelay,
        txns_grantedEvents]

theorem delays_cycle (c : Params) (x : CycleAnswers) : delays (x.events c) = x.delays c := by
  cases x with
  | noTag r =>
    simp [CycleAnswers.events_noTag, CycleAnswers.delays, CycleAnswers.request, CycleAnswers.anticoll, CycleAnswers.granted,
      delays_events]
  | noUid r a =>
    simp [CycleAnswers.events_noUid, CycleAnswers.delays, CycleAnswers.request, CycleAnswers.anticoll, CycleAnswers.granted,
      delays_events]
  | uid r a =>
    cases hg : CycleAnswers.granted c (.uid r a) <;>
      simp [CycleAnswers.events_uid, CycleAnswers.delays, CycleAnswers.request, CycleAnswers.anticoll, delays_events, hg,
        grantedEvents]

theorem diags_cycle (c : Params) (x : CycleAnswers) : diags (x.events c) = x.diags c := by
  cases x with
  | noTag r => simp [CycleAnswers.events_noTag, CycleAnswers.diags]
  | noUid r a => simp [CycleAnswers.events_noUid, CycleAnswers.diags]
  | uid r a =>
    cases hg : CycleAnswers.granted c (.uid r a) <;> simp [CycleAnswers.events_uid, CycleAnswers.diags, hg, grantedEvents]

theorem outs_cycle (c : Params) (x : CycleAnswers) : outs (x.events c) = x.outs c := by
  cases x with
  | noTag r => simp [CycleAnswers.events_noTag, CycleAnswers.outs, CycleAnswers.granted]
  | noUid r a => simp [CycleAnswers.events_noUid, CycleAnswers.outs, CycleAnswers.granted]
  | uid r a =>
    cases hg : CycleAnswers.granted c (.uid r a) <;> simp [CycleAnswers.events_uid, CycleAnswers.outs, hg, grantedEvents]

/-- The cycle's last poll is that of ANTICOLL, where one is made, and else that of REQUEST. -/
theorem CycleAnswers.polls_le (hx : x.Fits c) : x.polls ≤ c.pollMaxCom := by
  unfold CycleAnswers.polls
  split
  · exact Exchange.polls_le hx.request
  · rename_i a ha
    exact Exchange.polls_le (hx.anticoll ha)

/-- What precedes the inter-poll delay: a granted cycle ends with the opening, the dwell and the closing, every other one drives
no output (R185, R189). -/
theorem events_before_delay (c : Params) (x : CycleAnswers) :
    ∃ before, x.events c = before ++ delayEvents c.interPollMs ∧
      (x.granted c = true → ∃ first, outs first = [] ∧
        before = first ++ [.diag .granted, .outputs false true] ++ delayEvents c.dwellMs ++ [.outputs true false]) ∧
      (x.granted c = false → outs before = []) := by
  refine ⟨_, rfl, ?granted, ?other⟩
  case granted =>
    intro hg
    cases x with
    | noTag r => cases hg
    | noUid r a => cases hg
    | uid r a =>
      refine ⟨r.events c c.bitFramingShort [c.reqMode] ++ .diag .cardDetected ::
        (a.events c c.bitFramingFull [c.piccAnticoll, c.nvbAnticoll] ++ [.diag (.uid (a.uidOf c))]), by simp, ?_⟩
      simp [CycleAnswers.request, hg, grantedEvents]
  case other =>
    intro hg
    cases x with
    | noTag r => simp
    | noUid r a => simp
    | uid r a => simp [hg]

/-- With the default times of R8 (R237). -/
theorem delays_sum_of_defaults (x : CycleAnswers) (hpoll : c.pollIntervalMs = 1) (hinter : c.interPollMs = 1000)
    (hdwell : c.dwellMs = 5000) :
    (x.delays c).sum = (x.request.polls - 1) +
      (match x.anticoll with
      | none => 0
      | some a => a.polls - 1) + (if x.granted c then 5000 else 0) + 1000 := by
  cases hg : x.granted c <;> cases ha : x.anticoll <;>
    simp [CycleAnswers.delays, hpoll, hinter, hdwell, hg, ha, delayList_sum, Nat.add_assoc]

end

/-- Settles O42: one lemma for each reading. -/
theorem cycleReadings : Obligations.CycleReadings := by
  unfold Obligations.CycleReadings
  exact fun c x hx => ⟨txns_cycle hx, delays_cycle c x, diags_cycle c x, outs_cycle c x,
    Exchange.polls_le hx.request, fun _ ha => Exchange.polls_le (hx.anticoll ha), CycleAnswers.polls_le hx,
    events_before_delay c x, delays_sum_of_defaults x⟩

end Sys2Proof.Machine
end

section
/-! What a cycle that drives the outputs has read (R181, R185, R189, R213). -/

namespace Sys2Proof.Machine

/-- The first bytes of a buffer that hold values are those values. -/
theorem take_eq_map_of_takeValues : ∀ {n : Nat} {l : List (Option Byte)} {u : List Byte},
    takeValues n l = some u → l.take n = u.map some := by
  intro n
  induction n with
  | zero => intro l u h; cases h; rfl
  | succ n ih =>
    intro l u h
    cases l with
    | nil => cases h
    | cons b l =>
      unfold takeValues at h
      split at h
      · rename_i b bs hbs
        cases h
        simp [ih hbs]
      · cases h

theorem Exchange.uid_of_ok {e : Exchange} (h : e.ret = .ok) : e.uid = overlay5 (e.out []) noBytes5 := by
  cases e with
  | timeout pre ms => cases h
  | chipFault pre ms hit err => cases h
  | ok pre ms hit err fifo => rfl

section
variable {s t : State} {x : CycleAnswers}

/-- The UID of a granted cycle is an entry of the whitelist, and `uidBuf` begins with it (R163, R181). -/
theorem listed_of_granted (hok : s.cfg.ok = true) (hx : x.Fits s.cfg) (hg : x.granted s.cfg = true)
    (hbuf : t.uidBuf = x.uidBuf) : ∃ u ∈ s.cfg.whitelist, t.uidBuf.toList.take s.cfg.uidLen = u.map some := by
  obtain ⟨-, -, -, -, hlen, h5, -, hwl⟩ := ok_bounds hok
  cases x with
  | noTag r => cases hg
  | noUid r a => cases hg
  | uid r a =>
    obtain ⟨-, -, hfits, hret⟩ := hx
    obtain ⟨w, hw, hmatch⟩ := uidMatches_iff.mp hg
    have huid : a.uidOf s.cfg = w := by
      simpa [Exchange.uidOf, List.take_take, List.take_of_length_le (hwl w hw).le] using hmatch
    have hbytes : uidBytes { s with uidBuf := t.uidBuf } = some (a.uidOf s.cfg) :=
      uidBytes_of_uid hfits hret hlen h5 (hbuf.trans (Exchange.uid_of_ok hret).symm) rfl
    exact ⟨w, hw, huid ▸ take_eq_map_of_takeValues hbytes⟩

/-- A run that adds the output changes of a cycle to the trace adds none unless the cycle is granted. -/
theorem opens_only_for_listed (hok : s.cfg.ok = true) (hx : x.Fits s.cfg) (hbuf : t.uidBuf = x.uidBuf)
    (houts : outs t.trace = outs s.trace ++ x.outs s.cfg) (hlock : x.granted s.cfg = true → t.lockState = .locked)
    (hmoved : outs t.trace ≠ outs s.trace) :
    ∃ u ∈ s.cfg.whitelist, t.uidBuf.toList.take s.cfg.uidLen = u.map some ∧
      outs t.trace = outs s.trace ++ [(false, true), (true, false)] ∧ t.lockState = .locked := by
  cases hg : x.granted s.cfg with
  | false => exact absurd (by simpa [CycleAnswers.outs, hg] using houts) hmoved
  | true =>
    obtain ⟨u, hu, hbytes⟩ := listed_of_granted hok hx hg hbuf
    exact ⟨u, hu, hbytes, by simpa [CycleAnswers.outs, hg] using houts, hlock hg⟩

end

/-- Settles O58: long enough answers are those of a cycle, and the cycle's output changes are known. -/
theorem aCycleOpensOnlyForAListedUid : Obligations.ACycleOpensOnlyForAListedUid := by
  unfold Obligations.ACycleOpensOnlyForAListedUid
  intro s t h hok hl hmoved
  obtain ⟨-, -, -, x, rest, ha, hx⟩ := anyAnswersAreAnswered s.cfg s.answers hok hl
  obtain ⟨h, ht⟩ | ⟨h, ht⟩ := h
  · obtain ⟨k, v, out, hrun⟩ := pollCycleRunsOneCycle s x rest h hok hx ha
    cases ht.symm.trans hrun
    exact opens_only_for_listed hok hx rfl (by simp [State.ended, outs_cycle]) (fun hg => by simp [hg]) hmoved
  · obtain ⟨u, v, out, hrun, -, rfl⟩ := runRepeatsTheCycle s x rest h hok hx ha
    cases ht.symm.trans hrun
    exact opens_only_for_listed hok hx rfl (by simp [outs_cycle]) (fun hg => by simp [hg]) hmoved

end Sys2Proof.Machine
end

section
/-! The controller's way through a cycle (R186), move by move. -/

namespace Sys2Proof.Machine

/-- A cycle of POLL_CYCLE or RUN begins in `u`, to which the operation gets from `s` without a move of the controller. -/
structure CycleBegins (i : Instr) (s u : State) : Prop where
  gets : ∃ K, Gets (mute s.ctrlState (program s.cfg i)) K s u
  going : Going u
  cycleAt : CycleAt (program s.cfg i) u.seq s.cfg
  cfg : u.cfg = s.cfg
  trace : u.trace = s.trace
  answers : u.answers = s.answers

theorem cycleAt_pollCycle (c : Params) : CycleAt (codePollCycle c) 1 c := CycleAt.of_codeAt (CodeAt.whole _).left.right

theorem cycleAt_run (c : Params) : CycleAt (codeRun c) roundStart c := CycleAt.of_codeAt (CodeAt.whole _).left.right

theorem Ready.pollCycle_begins {s : State} (h : Ready .pollCycle s) : CycleBegins .pollCycle s s.advance :=
  ⟨⟨1, h.checksFree rfl⟩, h.going.advance, by rw [State.advance_seq, h.seq]; exact cycleAt_pollCycle s.cfg, rfl, rfl, rfl⟩

theorem Ready.run_begins {s : State} (h : Ready .run s) : CycleBegins .run s s.runBegun := by
  have hset : (mute s.ctrlState (codeRun s.cfg))[s.advance.seq]? = some .setRunning := by
    rw [State.advance_seq, h.seq]
    rfl
  have hgoing : Going s.runBegun := ⟨h.going.op, h.hold, h.cs, h.xfers⟩
  have hgets := (h.checksFree (p := mute s.ctrlState (codeRun s.cfg)) rfl).append
    (h.going.advance.micro (t := s.runBegun) hset
      (by simp [execMicro, State.advance, State.runBegun, h.seq, roundStart]) hgoing (by simp))
  exact ⟨⟨_, hgets⟩, hgoing, cycleAt_run s.cfg, rfl, rfl, rfl⟩

theorem RoundReady.run_begins {s : State} (h : RoundReady s) : CycleBegins .run s s :=
  ⟨⟨0, Gets.nil s⟩, ⟨by rw [h.op]; rfl, h.hold, h.cs, h.xfers⟩, h.seq ▸ cycleAt_run s.cfg, rfl, rfl, rfl⟩

/-- Every accepted POLL_CYCLE or RUN, and RUN at the start of a round, begins a cycle. -/
theorem cycle_begins {i : Instr} {s : State} (hi : i = .pollCycle ∨ i = .run)
    (h : Ready i s ∨ (i = .run ∧ RoundReady s)) : ∃ u, CycleBegins i s u := by
  obtain h | ⟨rfl, h⟩ := h
  · obtain rfl | rfl := hi
    · exact ⟨_, h.pollCycle_begins⟩
    · exact ⟨_, h.run_begins⟩
  · exact ⟨_, h.run_begins⟩

section
variable {p : Code} {w : State}

/-- The state in which a cycle has decided on the UID `u`: Granted with the granted branch to run, or Denied. -/
def State.decidedByMatch (w : State) (u : List Byte) : State :=
  if uidMatches w.cfg.uidLen u w.cfg.whitelist then w.decidedOn u .granted 0
  else w.decidedOn u .denied (grantedBranch w.cfg deniedBranch.length).length

theorem decidedByMatch_ctrlState (w : State) (u : List Byte) :
    (w.decidedByMatch u).ctrlState = if uidMatches w.cfg.uidLen u w.cfg.whitelist then .granted else .denied := by
  unfold State.decidedByMatch
  split <;> rfl

theorem decidedByMatch_trace (w : State) (u : List Byte) : (w.decidedByMatch u).trace = w.trace ++ [.diag (.uid u)] := by
  unfold State.decidedByMatch
  split <;> rfl

/-- Granted or Denied to Idle: the decision's events and the inter-poll delay. -/
theorem keepsCtrl_after_decision (g : Going w) (hd : CodeAt p w.seq (decision w.cfg))
    (hf : CodeAt p (w.seq + (decision w.cfg).length) (delay w.cfg.interPollMs ++ [.ctrl .idle])) (u : List Byte) :
    ∃ t, KeepsCtrlUntil p (w.decidedByMatch u) t ∧ t.ctrlState = .idle ∧
      t.trace = (w.decidedByMatch u).trace ++
        (if uidMatches w.cfg.uidLen u w.cfg.whitelist then grantedEvents w.cfg else [.diag .denied]) ++
        delayEvents w.cfg.interPollMs := by
  rw [decision_length] at hf
  unfold State.decidedByMatch
  split
  · have hbranch : CodeAt p (w.seq + 2 + 1) ([.emit .granted, .unlock] ++ delay w.cfg.dwellMs ++
        [.lock, .outcome outcomeGranted deniedBranch.length]) := hd.left.right.tail
    exact keepsCtrl_granted (g.decidedOn ..) hbranch (hf.cast (by
      simp [State.decidedOn, State.ctrlTo, State.emitted, deniedBranch]; omega))
  · have hbranch := hd.right.tail
    refine keepsCtrl_denied (g.decidedOn ..) (hbranch.cast ?_) (hf.cast ?_) <;>
      simp [State.decidedOn, State.ctrlTo, State.emitted, grantedBranch_length] <;> omega

end

section
variable {p : Code} {s : State} {r a : Exchange} {rest : List Byte}

/-- The state of a cycle in which ANTICOLL has succeeded and the decision begins. -/
def State.decides (s : State) (r a : Exchange) (rest : List Byte) : State := (s.uidRead r a rest).advance

theorem decides_decision (hcyc : CycleAt p s.seq s.cfg) (r a : Exchange) (rest : List Byte) :
    CodeAt p (s.decides r a rest).seq (decision s.cfg) ∧
    CodeAt p ((s.decides r a rest).seq + (decision s.cfg).length) (delay s.cfg.interPollMs ++ [.ctrl .idle]) := by
  refine ⟨hcyc.decide.cast ?_, hcyc.finish.cast ?_⟩ <;>
    simp [State.decides, State.uidRead, State.exchanged] <;> omega

/-- ReadUid to Granted or Denied. -/
theorem keepsCtrl_decided {more : List Byte} (hcyc : CycleAt p s.seq s.cfg) (g : Going s) (hok : s.cfg.ok = true)
    (ha : a.FitsAnticoll s.cfg) (hret : a.ret = .ok) (hmore : more = flatPairs a.pairs ++ rest) :
    KeepsCtrlUntil p (s.cardFound r more) ((s.decides r a rest).decidedByMatch (a.uidOf s.cfg)) := by
  obtain ⟨hmin, hmax, -, -, hlen, h5, -⟩ := ok_bounds hok
  have hanticoll := (gets_anticoll_readUid (e := r) hcyc g hmin hmax ha hmore).append
    (gets_onFail_ok (at_mute (by exact hcyc.fail2) rfl) (g.uidRead ..) hret)
  exact keepsCtrl_decision (w := s.decides r a rest) (g.cardFound r more).op hanticoll (g.uidRead ..).advance
    (decides_decision hcyc r a rest).1 (uidBytes_of_uid ha hret hlen h5 rfl rfl)

end

/-- Settles O43: the moves of the controller one after the other, from the state in which the cycle begins. -/
theorem cyclesMoveTheControllerAsR186Says : Obligations.CyclesMoveTheControllerAsR186Says := by
  unfold Obligations.CyclesMoveTheControllerAsR186Says
  intro i s x rest hi h hok hx hans
  have hgoing : s.op.isSome = true := h.elim (fun h => h.going.op) fun h => by rw [h.2.op]; rfl
  obtain ⟨u, ⟨K, hgets⟩, g, hcyc, hcfg, htrace, hanswers⟩ := cycle_begins hi h
  rw [← hanswers] at hans
  rw [← hcfg] at hok hx hcyc hgets ⊢
  rw [← htrace]
  obtain ⟨hmin, hmax, -⟩ := ok_bounds hok
  refine ⟨u.cycleBegun, ⟨keepsCtrl_begun hgoing hgets hcyc g, rfl, rfl⟩, ?_⟩
  cases x with
  | noTag r =>
    obtain ⟨hr, hfail⟩ := hx
    obtain ⟨t, hend, hidle, ht⟩ := keepsCtrl_noTag hcyc g hmin hmax hr hans hfail
    exact ⟨t, hend, hidle, ht.trans (by simp [CycleAnswers.events_noTag])⟩
  | noUid r a =>
    obtain ⟨hr, hcard, ha, hfail⟩ := hx
    rw [CycleAnswers.pairs, flatPairs_append, List.append_assoc] at hans
    obtain ⟨t, hend, hidle, ht⟩ := keepsCtrl_noUid (e := r) hcyc g hmin hmax ha rfl hfail
    refine ⟨_, t, ⟨keepsCtrl_card hcyc g hmin hmax hr hans hcard, rfl, rfl⟩, hend, hidle, ht.trans ?_⟩
    simp [State.uidRead, State.exchanged, CycleAnswers.events_noUid]
  | uid r a =>
    obtain ⟨hr, hcard, ha, hread⟩ := hx
    rw [CycleAnswers.pairs, flatPairs_append, List.append_assoc] at hans
    obtain ⟨hdecision, hfinish⟩ := decides_decision hcyc r a rest
    obtain ⟨t, hend, hidle, ht⟩ := keepsCtrl_after_decision (w := u.decides r a rest) (g.uidRead ..).advance hdecision hfinish
      (a.uidOf u.cfg)
    refine ⟨_, _, t, ⟨keepsCtrl_card hcyc g hmin hmax hr hans hcard, rfl, rfl⟩,
      ⟨keepsCtrl_decided hcyc g hok ha hread rfl, decidedByMatch_ctrlState .., (decidedByMatch_trace ..).trans ?_⟩,
      hend, hidle, ht.trans ?_⟩
    · simp [State.decides, State.uidRead, State.exchanged, State.cardFound]
    · rw [decidedByMatch_trace, CycleAnswers.events_uid, CycleAnswers.granted_uid]
      simp [State.decides, State.uidRead, State.exchanged]

end Sys2Proof.Machine
end

section
/-! UNLOCK and LOCK (R210 to R214, R226): the states they end in where the host may drive the actuator, and that they are past
their first step, and wait for nothing, only there. -/

namespace Sys2Proof.Machine

/-! ## Results -/

/-- Settles O33. -/
theorem unlockOpens : Obligations.UnlockOpens := by
  unfold Obligations.UnlockOpens
  intro s h hon
  refine ⟨s.seq + 2, (unlock_runs h hon).trans ?_⟩
  simp [finish_respNone, endOp, State.unlockDone, State.ended]

/-- Settles O34. -/
theorem lockCloses : Obligations.LockCloses := by
  unfold Obligations.LockCloses
  intro s h hon
  refine ⟨s.seq + 2, (lock_runs h hon).trans ?_⟩
  simp [finish_respNone, endOp, State.lockDone, State.ended]

/-! ## The actuator invariant -/

theorem ActuatorInv.of_other_op {s : State} (h : ¬(s.op = some .unlock ∨ s.op = some .lock)) : ActuatorInv s :=
  ⟨fun hop => absurd hop h, fun hop => absurd hop h⟩

theorem ActuatorInv.seq_of_not_allowed {s : State} (h : ActuatorInv s) (hop : s.op = some .unlock ∨ s.op = some .lock)
    (hoff : s.cfg.hostActuatorOps = false) : s.seq = 0 := by
  by_contra hseq
  exact absurd ((h.allowed hop hseq).symm.trans hoff) (by decide)

theorem execMicro_checks_hold {c : Check} {s t : State} (h : execMicro (.checks c) s = .next t) : t.hold = s.hold := by
  simp only [execMicro, checks] at h
  repeat' split at h
  all_goals cases h
  all_goals rfl

/-- No step of UNLOCK or LOCK starts a transfer or a delay. -/
theorem hostActuator_hold {c : Params} {i : Instr} {m : Micro} {s t : State} (hi : i = .unlock ∨ i = .lock)
    (hm : m ∈ program c i) (h : execMicro m s = .next t) : t.hold = s.hold := by
  have hsteps : m = .checks .actuator ∨ m = .unlock ∨ m = .lock ∨ m = .finish .ok [.respNone] := by
    obtain rfl | rfl := hi
    · simp only [program, codeUnlock, List.mem_cons, List.not_mem_nil, or_false] at hm
      tauto
    · simp only [program, codeLock, List.mem_cons, List.not_mem_nil, or_false] at hm
      tauto
  obtain rfl | rfl | rfl | rfl := hsteps
  · exact execMicro_checks_hold h
  all_goals cases h; rfl

/-- Where the host may drive the actuator nothing is asked of the step pointer; where it may not, UNLOCK and LOCK end in their
first step. -/
theorem ActuatorInv.atom {s t : State} {i : Instr} (h : ActuatorInv s) (hop : s.op = some i)
    (ha : Machine.atom (program s.cfg i) s = .next t) : ActuatorInv t := by
  by_cases hi : i = .unlock ∨ i = .lock
  case neg =>
    refine ActuatorInv.of_other_op fun htop => ?_
    obtain ⟨hsame, -⟩ | ⟨hnone, -⟩ := atom_goes ha
    · exact hi (by simpa [hsame, hop] using htop)
    · simp [hnone] at htop
  case pos =>
    have hop' : s.op = some .unlock ∨ s.op = some .lock := by simpa [hop] using hi
    have hfree := h.free hop'
    cases hhost : s.cfg.hostActuatorOps with
    | false =>
      have hend := atom_turned_away (c := s.cfg) hi hfree (h.seq_of_not_allowed hop' hhost) hhost
      cases ha.symm.trans hend
      exact ActuatorInv.of_other_op (by simp [finish])
    | true =>
      obtain ⟨-, -, -, hcfg, -⟩ := atom_frame ha
      have hallowed : t.cfg.hostActuatorOps = true := by rw [hcfg, hhost]
      suffices hthold : t.hold = .free from ⟨fun _ => hthold, fun _ _ => hallowed⟩
      obtain ⟨out, keep, -, rfl⟩ | ⟨-, rfl⟩ | ⟨-, m, hm, -, he⟩ | ⟨-, -, rfl⟩ := atom_cases ha
      · rfl
      · rfl
      · exact (hostActuator_hold hi hm he).trans hfree
      · exact hfree

/-- Settles O54. -/
theorem everyStepKeepsTheActuatorInvariant : Obligations.EveryStepKeepsTheActuatorInvariant := by
  unfold Obligations.EveryStepKeepsTheActuatorInvariant
  intro s t hs h
  refine step_keeps hs h ?outside ?atom ?bus ?timer ?overrun ?accept ?data ?reset
  case atom => exact fun u w i hu hop ha => hu.atom hop ha
  case bus =>
    intro u out keep hu hh
    refine ActuatorInv.of_other_op fun hop => ?_
    simp [hu.free hop] at hh
  case timer => exact fun u hu _ => ⟨fun _ => rfl, hu.allowed⟩
  case accept => exact fun u _ _ _ => ⟨fun _ => rfl, fun _ hseq => absurd rfl hseq⟩
  case reset =>
    intro u _
    have h0 := ActuatorInv.initial u.cfg
    exact ⟨h0.free, h0.allowed⟩
  case overrun => exact fun u hu => ⟨hu.free, hu.allowed⟩
  case outside | data => exact fun u _ _ hu => ⟨hu.free, hu.allowed⟩

end Sys2Proof.Machine
end

section
/-! Acceptance and overrun (R223), and the operations that their checks end: BAD_OP (R224), BAD_LEN (R225), DISABLED (R226). -/

namespace Sys2Proof.Machine

/-! ## Acceptance and overrun -/

/-- The code of every command row starts with the row's checks (R94, R223). -/
theorem program_head_of_command (c : Params) {i : Instr} (hi : encodeFormat i = .command) :
    (program c i)[0]? = some (.checks (checkOf i)) := by
  cases i
  case frameRead | frameWrite => cases hi
  case chipIdle | chipCalcCrc | chipTransceive | chipSoftReset => cases hi
  case cardReqa | cardAnticollCl1 | cardNvb => cases hi
  all_goals rfl

theorem hostWriteData_of_busy {s : State} (i : Nat) (b : Byte) (hb : s.busy = true) : hostWriteData i b s = overrun s := by
  simp [hostWriteData, hb]

/-- A host write while busy is discarded and recorded (R22, R223). -/
theorem step_of_write_while_busy {s : State} {e : Stimulus} {rest : List Stimulus} (hc : s.cfg.ok = true)
    (he : s.env = e :: rest) (hb : s.busy = true)
    (hwrite : (∃ w, e = .hostWriteCmd w) ∨ ∃ i b, e = .hostWriteData i b) :
    step s = .next (overrun { s with env := rest }) := by
  rw [step_of_env_cons hc he]
  obtain ⟨w, rfl⟩ | ⟨i, b, rfl⟩ := hwrite
  · exact congrArg Host.Outcome.next (hostWriteCmd_of_busy (s := { s with env := rest }) w hb)
  · exact congrArg Host.Outcome.next (hostWriteData_of_busy (s := { s with env := rest }) i b hb)

/-- `OVERRUN` is sticky until block reset (R23, R223): an operation leaves it alone, and of the moves of the outside only block
reset clears it. -/
theorem step_keeps_overrun {s t : State} (hover : s.overrun = true) (h : step s = .next t)
    (hreset : s.env.head? ≠ some .blockReset) : t.overrun = true := by
  obtain ⟨-, ⟨rfl, -⟩ | ⟨e, rfl⟩ | ⟨i, u, f, -, ⟨e, hu⟩, rfl⟩ | ⟨i, e, r, -, -, -, ha⟩ | ⟨o, k, r, -, rfl⟩ |
    ⟨r, -, rfl⟩ | ⟨r, -, rfl⟩ | ⟨w, r, -, rfl⟩ | ⟨i, b, r, -, rfl⟩ | ⟨x, r, rfl⟩ | ⟨r, hr, -⟩⟩ := step_cases h
  · exact hover
  · exact hover
  · exact (Advances.keepsInputs (.inl hu)).overrun.trans hover
  · exact (Advances.keepsInputs (.inr ha)).overrun.trans hover
  · exact hover
  · exact hover
  · rfl
  · exact hover
  · exact hover
  · exact hover
  · exact absurd hr hreset

/-- Settles O10. -/
theorem acceptanceAndOverrun : Obligations.AcceptanceAndOverrun := by
  unfold Obligations.AcceptanceAndOverrun
  exact ⟨fun _ _ _ => step_of_hostWriteCmd, fun c w => program_head_of_command c (decodeCommand_format w),
    fun _ _ _ => step_of_write_while_busy, fun _ _ => step_keeps_overrun⟩

/-! ## Operations that end in their checks -/

/-- `Finish(st, RESP_LEN <- 0)` as the first step: nothing received, no event before `OpDone`. -/
theorem finish_respNone_eq_ended (st : Status) (s : State) :
    finish st [.respNone] s = { s.ended st [] s.answers 0 with respLen := 0#3 } := by
  simp [finish_respNone, endOp, State.ended]

section
variable {i : Instr} {s : State} {st : Status} (h : Ready i s) (hi : encodeFormat i = .command)
  (hchecks : checks (checkOf i) s = .next (finish st [.respNone] s))
include h hi hchecks

/-- An operation that its checks turn away has no other effect (R224 to R226). -/
theorem Ready.exec_ended : exec i s = .next { s.ended st [] s.answers 0 with respLen := 0#3 } := by
  rw [← finish_respNone_eq_ended]
  exact h.exec_turned_away (program_head_of_command s.cfg hi) hchecks rfl

/-- The same as the one atomic step of its code. -/
theorem Ready.atom_ended : atom (program s.cfg i) s = .next { s.ended st [] s.answers 0 with respLen := 0#3 } := by
  rw [← finish_respNone_eq_ended]
  exact atom_of (m := .checks (checkOf i)) (h.seq ▸ program_head_of_command s.cfg hi) h.hold hchecks

end

/-- Settles O29. -/
theorem calcCrcTooLongIsBadLen : Obligations.CalcCrcTooLongIsBadLen := by
  unfold Obligations.CalcCrcTooLongIsBadLen
  exact fun s n h hlen => h.exec_ended rfl (if_pos hlen)

theorem checks_actuator_off {s : State} (hoff : s.cfg.hostActuatorOps = false) :
    checks .actuator s = .next (finish .disabled [.respNone] s) := by
  simp [checks, hoff]

/-- Settles O35. -/
theorem hostActuatorOpsOffIsDisabled : Obligations.HostActuatorOpsOffIsDisabled := by
  unfold Obligations.HostActuatorOpsOffIsDisabled
  rintro s i (rfl | rfl) h hoff
  · exact h.exec_ended rfl (checks_actuator_off hoff)
  · exact h.exec_ended rfl (checks_actuator_off hoff)

theorem checks_of_isReserved {i : Instr} (hi : i.isReserved = true) (s : State) :
    checks (checkOf i) s = .next (finish .badOp [.respNone] s) := by
  rw [(program_of_isReserved (c := s.cfg) hi).2]
  rfl

theorem Ready.exec_reserved {i : Instr} {s : State} (h : Ready i s) (hi : i.isReserved = true) :
    exec i s = .next { s.ended .badOp [] s.answers 0 with respLen := 0#3 } :=
  h.exec_ended (encodeFormat_of_isReserved hi) (checks_of_isReserved hi s)

/-- Settles O36: the words of R93 are those that decode to a rejected row. -/
theorem rejectedWordsAreBadOp : Obligations.RejectedWordsAreBadOp := by
  unfold Obligations.RejectedWordsAreBadOp
  refine ⟨fun s w hw h => h.exec_reserved ((decodeCommand_isReserved_iff w).mpr hw), fun s i hi h => ?_⟩
  exact ⟨h.exec_reserved hi, h.atom_ended (encodeFormat_of_isReserved hi) (checks_of_isReserved hi s),
    (program_of_isReserved hi).1⟩

end Sys2Proof.Machine
end
